-- ==== Sys2Proof/Word.lean ====
section
/-! DEFINITION. The bit vectors of Niu32: 32-bit words (00_scope.md R6), 8-bit bytes (20_memory.md R40), the 5-bit
register number and opcode fields and the 17-bit immediate (30_encoding.md R71). -/

namespace Sys2Proof

/-- A register value, an address or a pc value (R6, R20, R26). -/
abbrev Word := BitVec 32

/-- The contents of one memory location (R40). -/
abbrev Byte := BitVec 8

/-- A register number, the content of a field `ARG1`, `ARG2` or `ARGD` (R20). -/
abbrev Reg := BitVec 5

/-- A primary or secondary opcode, the content of `OP1` or `OP2` (R71). -/
abbrev Opcode := BitVec 5

/-- The content of the field `IMM` (R71, R73). -/
abbrev Imm := BitVec 17

end Sys2Proof
end

