-- ==== Sys2Proof/Config.lean ====
section
/-! DEFINITION. What an implementation fixes and the spec leaves open or overridable (00_scope.md R4): the configuration,
plain data that a run never changes, and the free values, constants without a body of which nothing can be proved.
The spec's own default of each parameter stands in Machine/Defaults.lean. -/

namespace Sys2Proof

/-- `OPMAP` (R76, R77): the COLUMN, the three low bits, of each opcode whose column the source's flattened tables lost
(R75). The two row bits are certain and are added by `OpMap.op1` and `OpMap.op2`; `ALUI` and the eight opcodes of
secondary row `00` are certain whole and have no field here. DESIGN CHOICE of the spec (D1), log 1. -/
structure OpMap where
  /-- primary row `00` -/
  (addi mlti divi andi ori xori : BitVec 3)
  /-- primary row `01` -/
  (suli ssli suri ssri : BitVec 3)
  /-- primary row `10` -/
  (lw lb sw sb lui : BitVec 3)
  /-- primary row `11` -/
  (beq bne blt ble jal : BitVec 3)
  /-- secondary row `01` -/
  (sul ssl sur ssr : BitVec 3)
  /-- secondary row `10` -/
  (eq neq lt leq : BitVec 3)
  deriving DecidableEq, Repr

/-- How a 17-bit immediate is widened to 32 bits (R79). -/
inductive Ext where
  | sign
  | zero
  deriving DecidableEq, Repr

/-- `IMM_EXT`, per instruction (R79, D6; log 4). `ADDI` has no field: its sign extension follows from the source. `LUI`
and `JAL` do not widen `IMM`. -/
structure ImmExt where
  (mlti divi andi ori xori suli ssli suri ssri lw lb sw sb beq bne blt ble : Ext)
  deriving DecidableEq, Repr

/-- `DIV_ROUND` (R113, D8; log 6): the two usual roundings of a quotient. -/
inductive DivRound where
  | towardZero
  | towardMinusInf
  deriving DecidableEq, Repr

/-- The reading of the signed left shift `sshl32` (R114, D10; log 9): the same bits as the unsigned shift, or open
wherever the readings differ. -/
inductive SignedLeft where
  | asUnsigned
  | openReading
  deriving DecidableEq, Repr

/-- What a fetch from a word that a store has written does (R56, D25; log 24): a model stop, or, in a model that commits
to the unified reading, the stored bytes. -/
inductive FetchStored where
  | stop
  | unified
  deriving DecidableEq, Repr

/-- `HALT`, how a run ends (R256, D23; log 22). -/
inductive Halt where
  | selfBranch
  | stepBound (steps : Nat)
  | pcSentinel (address : Word)
  deriving DecidableEq, Repr

/-- The parameters of R4 that an implementation fixes. -/
structure Config where
  /-- `MEM_SIZE`, the number of implemented bytes (R44, OPEN; log 12) -/
  memSize : Nat
  /-- `OPMAP` (R76, R77; log 1) -/
  opMap : OpMap
  /-- `IMM_EXT` (R79; log 4) -/
  immExt : ImmExt
  /-- `CMP_SIGNED` (R116; log 5) -/
  cmpSigned : Bool
  /-- `DIV_SIGNED` (R113; log 6) -/
  divSigned : Bool
  /-- `DIV_ROUND` (R113; log 6) -/
  divRound : DivRound
  /-- `sshl32` (R114; log 9) -/
  sshl : SignedLeft
  /-- the treatment of R56 (log 24) -/
  fetchStored : FetchStored
  /-- `RESET_PC` (R250; log 18) -/
  resetPc : Word
  /-- `HALT` (R256; log 22) -/
  halt : Halt
  deriving DecidableEq, Repr

/-- The shift operation that `SHIFT_OOR` is told (R115); an immediate form passes the name of its register form
(R106-R109). -/
inductive ShiftOp where
  | sul
  | ssl
  | sur
  | ssr
  deriving DecidableEq, Repr

/-- FREE VALUE `DIV_CORNER(a, b)` (R113, OPEN; log 7): the quotient of a division by zero and of the one signed quotient
that does not fit, a function of the two operands of which no law is known. -/
opaque Config.divCorner : Word → Word → Word

/-- FREE VALUE `SHIFT_OOR(op, a, amt)` (R115, OPEN; log 8): the result of a shift whose amount is not in 0..31. -/
opaque Config.shiftOor : ShiftOp → Word → Word → Word

/-- FREE VALUE (R114; log 9): the signed left shift of `a` by `n` under `SignedLeft.openReading`, where the bits
`a[31:31-n]` are not all equal. -/
opaque Config.sshlOpen : Word → Nat → Word

end Sys2Proof
end

