-- ==== Sys2Proof/Syntax.lean ====
section
/-! DEFINITION. The instructions of Niu32, one constructor per row of spec/opcode_table.json (30_encoding.md R76, R77,
R160), their operands in the order of the source's syntax lines (R78, R194), and the two opcode name spaces. -/

namespace Sys2Proof

/-- The names of the primary opcode map (R76), in the table's order. -/
inductive Primary where
  | alui | addi | mlti | divi | andi | ori | xori
  | suli | ssli | suri | ssri
  | lw | lb | sw | sb | lui
  | beq | bne | blt | ble | jal
  deriving DecidableEq, Repr

/-- The names of the secondary opcode map (R77), in the table's order. -/
inductive Secondary where
  | sub | add | mlt | div | not | and | or | xor
  | sul | ssl | sur | ssr
  | eq | neq | lt | leq
  deriving DecidableEq, Repr

/-- One Niu32 instruction. Every field has exactly the width the encoding gives it (R71-R73), so a term carries no value
that its word could not. -/
inductive Instr where
  /-- the escape `ALUI` with the fields of the non-immediate format (R72, R160): no mnemonic of a program, but another
  name for the word that its `OP2` selects -/
  | alui (arg1 arg2 argD : Reg) (op2 : Opcode)
  | addi (argD arg1 : Reg) (imm : Imm)
  | mlti (argD arg1 : Reg) (imm : Imm)
  | divi (argD arg1 : Reg) (imm : Imm)
  | andi (argD arg1 : Reg) (imm : Imm)
  | ori (argD arg1 : Reg) (imm : Imm)
  | xori (argD arg1 : Reg) (imm : Imm)
  | suli (argD arg1 : Reg) (imm : Imm)
  | ssli (argD arg1 : Reg) (imm : Imm)
  | suri (argD arg1 : Reg) (imm : Imm)
  | ssri (argD arg1 : Reg) (imm : Imm)
  | lw (argD arg1 : Reg) (imm : Imm)
  | lb (argD arg1 : Reg) (imm : Imm)
  /-- `arg1` holds the word stored, `arg2` the base (R122) -/
  | sw (arg1 arg2 : Reg) (imm : Imm)
  /-- `arg1` holds the value stored, `arg2` the base (R123) -/
  | sb (arg1 arg2 : Reg) (imm : Imm)
  | lui (argD : Reg) (imm : Imm)
  | beq (arg1 arg2 : Reg) (imm : Imm)
  | bne (arg1 arg2 : Reg) (imm : Imm)
  | blt (arg1 arg2 : Reg) (imm : Imm)
  | ble (arg1 arg2 : Reg) (imm : Imm)
  /-- `arg1` is the link register, written; `argD` holds the target, read (R144) -/
  | jal (arg1 argD : Reg)
  | sub (argD arg1 arg2 : Reg)
  | add (argD arg1 arg2 : Reg)
  | mlt (argD arg1 arg2 : Reg)
  | div (argD arg1 arg2 : Reg)
  | not (argD arg1 : Reg)
  | and (argD arg1 arg2 : Reg)
  | or (argD arg1 arg2 : Reg)
  | xor (argD arg1 arg2 : Reg)
  | sul (argD arg1 arg2 : Reg)
  | ssl (argD arg1 arg2 : Reg)
  | sur (argD arg1 arg2 : Reg)
  | ssr (argD arg1 arg2 : Reg)
  | eq (argD arg1 arg2 : Reg)
  | neq (argD arg1 arg2 : Reg)
  | lt (argD arg1 arg2 : Reg)
  | leq (argD arg1 arg2 : Reg)
  deriving DecidableEq, Repr

end Sys2Proof
end

