-- ==== Sys2Proof/Machine/OpMap.lean ====
section
/-! DEFINITION. The opcode maps (30_encoding.md R75-R77): the 5-bit value of each opcode under a configuration table, the
lookup of a value, the constraints every table keeps, and the table the spec decides (D1). -/

namespace Sys2Proof

/-- All primary opcodes in the order of the source's table (R75). -/
def Primary.all : List Primary :=
  [.alui, .addi, .mlti, .divi, .andi, .ori, .xori, .suli, .ssli, .suri, .ssri,
   .lw, .lb, .sw, .sb, .lui, .beq, .bne, .blt, .ble, .jal]

/-- All secondary opcodes in the order of the source's table (R75). -/
def Secondary.all : List Secondary :=
  [.sub, .add, .mlt, .div, .not, .and, .or, .xor, .sul, .ssl, .sur, .ssr, .eq, .neq, .lt, .leq]

/-- The value of `OP1`: the certain row followed by the table's column; `ALUI` is `00000` (R75, R76). -/
def OpMap.op1 (m : OpMap) : Primary → Opcode
  | .alui => 0b00000#5
  | .addi => 0b00#2 ++ m.addi
  | .mlti => 0b00#2 ++ m.mlti
  | .divi => 0b00#2 ++ m.divi
  | .andi => 0b00#2 ++ m.andi
  | .ori => 0b00#2 ++ m.ori
  | .xori => 0b00#2 ++ m.xori
  | .suli => 0b01#2 ++ m.suli
  | .ssli => 0b01#2 ++ m.ssli
  | .suri => 0b01#2 ++ m.suri
  | .ssri => 0b01#2 ++ m.ssri
  | .lw => 0b10#2 ++ m.lw
  | .lb => 0b10#2 ++ m.lb
  | .sw => 0b10#2 ++ m.sw
  | .sb => 0b10#2 ++ m.sb
  | .lui => 0b10#2 ++ m.lui
  | .beq => 0b11#2 ++ m.beq
  | .bne => 0b11#2 ++ m.bne
  | .blt => 0b11#2 ++ m.blt
  | .ble => 0b11#2 ++ m.ble
  | .jal => 0b11#2 ++ m.jal

/-- The value of `OP2`: row `00` is certain whole, the others as `op1` (R75, R77). -/
def OpMap.op2 (m : OpMap) : Secondary → Opcode
  | .sub => 0b00000#5
  | .add => 0b00001#5
  | .mlt => 0b00010#5
  | .div => 0b00011#5
  | .not => 0b00100#5
  | .and => 0b00101#5
  | .or => 0b00110#5
  | .xor => 0b00111#5
  | .sul => 0b01#2 ++ m.sul
  | .ssl => 0b01#2 ++ m.ssl
  | .sur => 0b01#2 ++ m.sur
  | .ssr => 0b01#2 ++ m.ssr
  | .eq => 0b10#2 ++ m.eq
  | .neq => 0b10#2 ++ m.neq
  | .lt => 0b10#2 ++ m.lt
  | .leq => 0b10#2 ++ m.leq

/-- The primary opcode a value of `OP1` is assigned to, if any (R76, R83). -/
def OpMap.primaryOf (m : OpMap) (c : Opcode) : Option Primary :=
  Primary.all.find? fun p => m.op1 p == c

/-- The secondary opcode a value of `OP2` is assigned to, if any (R77, R83). -/
def OpMap.secondaryOf (m : OpMap) (c : Opcode) : Option Secondary :=
  Secondary.all.find? fun p => m.op2 p == c

/-- What every assignment keeps (R75 (b), (d); D1): within each row the columns rise in the source's order, and `ALUI`
comes before `ADDI`. With the rows fixed this says that the values rise along the whole table. -/
abbrev OpMap.Wf (m : OpMap) : Prop :=
  (Primary.all.map m.op1).Pairwise (· < ·) ∧ (Secondary.all.map m.op2).Pairwise (· < ·)

/-- The shift rows of the two maps hold the same columns, which R77 calls very likely. No part of `OpMap.Wf`. -/
abbrev OpMap.ShiftRowsTied (m : OpMap) : Prop :=
  m.suli = m.sul ∧ m.ssli = m.ssl ∧ m.suri = m.sur ∧ m.ssri = m.ssr

/-- The assignment the spec decides (R76, R77, D1; DESIGN CHOICE of the spec, log 1): primary row `00` mirrors the
complete secondary row, every other row is packed to the left. -/
def OpMap.decided : OpMap where
  addi := 0b001
  mlti := 0b010
  divi := 0b011
  andi := 0b101
  ori := 0b110
  xori := 0b111
  suli := 0b000
  ssli := 0b001
  suri := 0b010
  ssri := 0b011
  lw := 0b000
  lb := 0b001
  sw := 0b010
  sb := 0b011
  lui := 0b100
  beq := 0b000
  bne := 0b001
  blt := 0b010
  ble := 0b011
  jal := 0b100
  sul := 0b000
  ssl := 0b001
  sur := 0b010
  ssr := 0b011
  eq := 0b000
  neq := 0b001
  lt := 0b010
  leq := 0b011

end Sys2Proof
end

