-- ==== Sys2Proof/WellFormed.lean ====
section
/-! DEFINITION. Which instructions and which configurations are well formed. Field widths are kept by the types, so the
one instruction with a check is the escape `ALUI`: its `OP2` must be assigned (30_encoding.md R83) and must leave the
unused `ARG2` of `NOT` zero (R82). -/

namespace Sys2Proof

/-- `i` stands for a word that the encoding admits under the opcode map `m` (R82, R83). -/
def Instr.wf (m : OpMap) (i : Instr) : Bool :=
  match i with
  | .alui _ arg2 _ op2 =>
    match m.secondaryOf op2 with
    | none => false
    | some op => op != .not || arg2 == 0
  | .addi _ _ _ | .mlti _ _ _ | .divi _ _ _ | .andi _ _ _ | .ori _ _ _ | .xori _ _ _ => true
  | .suli _ _ _ | .ssli _ _ _ | .suri _ _ _ | .ssri _ _ _ => true
  | .lw _ _ _ | .lb _ _ _ | .sw _ _ _ | .sb _ _ _ | .lui _ _ => true
  | .beq _ _ _ | .bne _ _ _ | .blt _ _ _ | .ble _ _ _ | .jal _ _ => true
  | .sub _ _ _ | .add _ _ _ | .mlt _ _ _ | .div _ _ _ | .not _ _ | .and _ _ _ | .or _ _ _ | .xor _ _ _ => true
  | .sul _ _ _ | .ssl _ _ _ | .sur _ _ _ | .ssr _ _ _ => true
  | .eq _ _ _ | .neq _ _ _ | .lt _ _ _ | .leq _ _ _ => true

/-- What the spec says of every admissible configuration: `MEM_SIZE` is a multiple of 4 in `4 .. 2^32` (R44), the opcode
map keeps R75, and `RESET_PC` is a multiple of 4 (R28). -/
abbrev Config.Wf (c : Config) : Prop :=
  c.memSize % 4 = 0 ∧ 4 ≤ c.memSize ∧ c.memSize ≤ 2 ^ 32 ∧ c.opMap.Wf ∧ c.resetPc.toNat % 4 = 0

end Sys2Proof
end

