-- ==== Sys2Proof/Decode.lean ====
section
/-! DEFINITION. The instruction word: its fields (30_encoding.md R72, R73), its byte order (20_memory.md R42, R48), the
decoder (R86), total on all words and all byte lists and rejecting by name, and after it the encoder (R78). -/

namespace Sys2Proof

/-! ## Bytes of a word -/

/-- The word whose byte at the lowest address is `b0` (R42: big-endian). -/
def wordOfBytes (b0 b1 b2 b3 : Byte) : Word := b0 ++ b1 ++ b2 ++ b3

/-- The byte that lies `k` addresses above the word's own, `W[31-8k : 24-8k]` (R41, R42). -/
def byteOfWord (w : Word) (k : Nat) : Byte := w.extractLsb' (24 - 8 * k) 8

/-- The four bytes of a word in the order of their addresses (R42). -/
def bytesOfWord (w : Word) : List Byte := [byteOfWord w 0, byteOfWord w 1, byteOfWord w 2, byteOfWord w 3]

/-! ## Fields -/

/-- `insn[31:27]` (R72, R73) -/
def fieldOp1 (w : Word) : Opcode := w.extractLsb' 27 5

/-- `insn[26:22]`, `ARG1` in both formats (R72, R73) -/
def fieldArg1 (w : Word) : Reg := w.extractLsb' 22 5

/-- `insn[21:17]`: `ARG2` of the non-immediate format, `ARGD` of the immediate one (R72, R73) -/
def fieldMid (w : Word) : Reg := w.extractLsb' 17 5

/-- `insn[16:12]`, `ARGD` of the non-immediate format (R72) -/
def fieldArgD (w : Word) : Reg := w.extractLsb' 12 5

/-- `insn[11:5]` (R72) -/
def fieldEmpty (w : Word) : BitVec 7 := w.extractLsb' 5 7

/-- `insn[4:0]` (R72) -/
def fieldOp2 (w : Word) : Opcode := w.extractLsb' 0 5

/-- `insn[16:0]` (R73) -/
def fieldImm (w : Word) : Imm := w.extractLsb' 0 17

/-! ## The decoder -/

/-- Why a word is a reserved encoding (R83), or bytes are no word. All of them are the one model stop
`ReservedEncoding` of R232. -/
inductive Reserved where
  /-- `OP1` has no instruction (R83 (a)) -/
  | unassignedOp1
  /-- `OP2` has no instruction (R83 (b)) -/
  | unassignedOp2
  /-- bits 11-5 are not zero (R82) -/
  | emptyNotZero
  /-- the unused `ARG2` of `NOT` is not zero (R82) -/
  | notArg2NotZero
  /-- the unused `ARG1` of `LUI` is not zero (R82) -/
  | luiArg1NotZero
  /-- the unused `IMM` of `JAL` is not zero (R82) -/
  | jalImmNotZero
  /-- not the four bytes of one word (R70) -/
  | notOneWord
  deriving DecidableEq, Repr

/-- The instruction a secondary opcode names, with its registers (R77, R78). `NOT` has no second source. -/
def Secondary.instr (op : Secondary) (argD arg1 arg2 : Reg) : Instr :=
  match op with
  | .sub => .sub argD arg1 arg2
  | .add => .add argD arg1 arg2
  | .mlt => .mlt argD arg1 arg2
  | .div => .div argD arg1 arg2
  | .not => .not argD arg1
  | .and => .and argD arg1 arg2
  | .or => .or argD arg1 arg2
  | .xor => .xor argD arg1 arg2
  | .sul => .sul argD arg1 arg2
  | .ssl => .ssl argD arg1 arg2
  | .sur => .sur argD arg1 arg2
  | .ssr => .ssr argD arg1 arg2
  | .eq => .eq argD arg1 arg2
  | .neq => .neq argD arg1 arg2
  | .lt => .lt argD arg1 arg2
  | .leq => .leq argD arg1 arg2

/-- The non-immediate half of R86: the checks in the rule's order. -/
def decodeNonImmediate (m : OpMap) (w : Word) : Except Reserved Instr :=
  if fieldEmpty w ≠ 0 then .error .emptyNotZero
  else
    match m.secondaryOf (fieldOp2 w) with
    | none => .error .unassignedOp2
    | some op =>
      if op = .not ∧ fieldMid w ≠ 0 then .error .notArg2NotZero
      else .ok (op.instr (fieldArgD w) (fieldArg1 w) (fieldMid w))

/-- The decode procedure (R86) under the opcode map `m`. The field of bits 21-17 is the second source of the stores and
the branches (R78, D2; log 2). -/
def decode (m : OpMap) (w : Word) : Except Reserved Instr :=
  match m.primaryOf (fieldOp1 w) with
  | none => .error .unassignedOp1
  | some .alui => decodeNonImmediate m w
  | some .addi => .ok (.addi (fieldMid w) (fieldArg1 w) (fieldImm w))
  | some .mlti => .ok (.mlti (fieldMid w) (fieldArg1 w) (fieldImm w))
  | some .divi => .ok (.divi (fieldMid w) (fieldArg1 w) (fieldImm w))
  | some .andi => .ok (.andi (fieldMid w) (fieldArg1 w) (fieldImm w))
  | some .ori => .ok (.ori (fieldMid w) (fieldArg1 w) (fieldImm w))
  | some .xori => .ok (.xori (fieldMid w) (fieldArg1 w) (fieldImm w))
  | some .suli => .ok (.suli (fieldMid w) (fieldArg1 w) (fieldImm w))
  | some .ssli => .ok (.ssli (fieldMid w) (fieldArg1 w) (fieldImm w))
  | some .suri => .ok (.suri (fieldMid w) (fieldArg1 w) (fieldImm w))
  | some .ssri => .ok (.ssri (fieldMid w) (fieldArg1 w) (fieldImm w))
  | some .lw => .ok (.lw (fieldMid w) (fieldArg1 w) (fieldImm w))
  | some .lb => .ok (.lb (fieldMid w) (fieldArg1 w) (fieldImm w))
  | some .sw => .ok (.sw (fieldArg1 w) (fieldMid w) (fieldImm w))
  | some .sb => .ok (.sb (fieldArg1 w) (fieldMid w) (fieldImm w))
  | some .lui => if fieldArg1 w ≠ 0 then .error .luiArg1NotZero else .ok (.lui (fieldMid w) (fieldImm w))
  | some .beq => .ok (.beq (fieldArg1 w) (fieldMid w) (fieldImm w))
  | some .bne => .ok (.bne (fieldArg1 w) (fieldMid w) (fieldImm w))
  | some .blt => .ok (.blt (fieldArg1 w) (fieldMid w) (fieldImm w))
  | some .ble => .ok (.ble (fieldArg1 w) (fieldMid w) (fieldImm w))
  | some .jal => if fieldImm w ≠ 0 then .error .jalImmNotZero else .ok (.jal (fieldArg1 w) (fieldMid w))

/-- The decoder over the bytes of memory, lowest address first (R48, R70). -/
def decodeBytes (m : OpMap) : List Byte → Except Reserved Instr
  | [b0, b1, b2, b3] => decode m (wordOfBytes b0 b1 b2 b3)
  | _ => .error .notOneWord

/-- The instruction that a word numbered as spec/opcode_table.json numbers it decodes to under the spec's opcode map
(D1). Bits at and above `nbits` are 0. -/
def decodeTableWord (nbits w : Nat) : Option Instr :=
  (decodeBytes OpMap.decided (bytesOfWord (BitVec.ofNat 32 (w % 2 ^ nbits)))).toOption

/-! ## The encoder -/

/-- The non-immediate format, `EMPTY` zero (R72, R82). -/
def nonImmediateWord (arg1 arg2 argD : Reg) (op2 : Opcode) : Word := 0#5 ++ arg1 ++ arg2 ++ argD ++ 0#7 ++ op2

/-- The immediate format (R73); `mid` is the content of bits 21-17. -/
def immediateWord (op1 : Opcode) (arg1 mid : Reg) (imm : Imm) : Word := op1 ++ arg1 ++ mid ++ imm

/-- The word of an instruction (R78), unused fields zero (R82). -/
def encode (m : OpMap) (i : Instr) : Word :=
  match i with
  | .alui arg1 arg2 argD op2 => nonImmediateWord arg1 arg2 argD op2
  | .addi argD arg1 imm => immediateWord (m.op1 .addi) arg1 argD imm
  | .mlti argD arg1 imm => immediateWord (m.op1 .mlti) arg1 argD imm
  | .divi argD arg1 imm => immediateWord (m.op1 .divi) arg1 argD imm
  | .andi argD arg1 imm => immediateWord (m.op1 .andi) arg1 argD imm
  | .ori argD arg1 imm => immediateWord (m.op1 .ori) arg1 argD imm
  | .xori argD arg1 imm => immediateWord (m.op1 .xori) arg1 argD imm
  | .suli argD arg1 imm => immediateWord (m.op1 .suli) arg1 argD imm
  | .ssli argD arg1 imm => immediateWord (m.op1 .ssli) arg1 argD imm
  | .suri argD arg1 imm => immediateWord (m.op1 .suri) arg1 argD imm
  | .ssri argD arg1 imm => immediateWord (m.op1 .ssri) arg1 argD imm
  | .lw argD arg1 imm => immediateWord (m.op1 .lw) arg1 argD imm
  | .lb argD arg1 imm => immediateWord (m.op1 .lb) arg1 argD imm
  | .sw arg1 arg2 imm => immediateWord (m.op1 .sw) arg1 arg2 imm
  | .sb arg1 arg2 imm => immediateWord (m.op1 .sb) arg1 arg2 imm
  | .lui argD imm => immediateWord (m.op1 .lui) 0 argD imm
  | .beq arg1 arg2 imm => immediateWord (m.op1 .beq) arg1 arg2 imm
  | .bne arg1 arg2 imm => immediateWord (m.op1 .bne) arg1 arg2 imm
  | .blt arg1 arg2 imm => immediateWord (m.op1 .blt) arg1 arg2 imm
  | .ble arg1 arg2 imm => immediateWord (m.op1 .ble) arg1 arg2 imm
  | .jal arg1 argD => immediateWord (m.op1 .jal) arg1 argD 0
  | .sub argD arg1 arg2 => nonImmediateWord arg1 arg2 argD (m.op2 .sub)
  | .add argD arg1 arg2 => nonImmediateWord arg1 arg2 argD (m.op2 .add)
  | .mlt argD arg1 arg2 => nonImmediateWord arg1 arg2 argD (m.op2 .mlt)
  | .div argD arg1 arg2 => nonImmediateWord arg1 arg2 argD (m.op2 .div)
  | .not argD arg1 => nonImmediateWord arg1 0 argD (m.op2 .not)
  | .and argD arg1 arg2 => nonImmediateWord arg1 arg2 argD (m.op2 .and)
  | .or argD arg1 arg2 => nonImmediateWord arg1 arg2 argD (m.op2 .or)
  | .xor argD arg1 arg2 => nonImmediateWord arg1 arg2 argD (m.op2 .xor)
  | .sul argD arg1 arg2 => nonImmediateWord arg1 arg2 argD (m.op2 .sul)
  | .ssl argD arg1 arg2 => nonImmediateWord arg1 arg2 argD (m.op2 .ssl)
  | .sur argD arg1 arg2 => nonImmediateWord arg1 arg2 argD (m.op2 .sur)
  | .ssr argD arg1 arg2 => nonImmediateWord arg1 arg2 argD (m.op2 .ssr)
  | .eq argD arg1 arg2 => nonImmediateWord arg1 arg2 argD (m.op2 .eq)
  | .neq argD arg1 arg2 => nonImmediateWord arg1 arg2 argD (m.op2 .neq)
  | .lt argD arg1 arg2 => nonImmediateWord arg1 arg2 argD (m.op2 .lt)
  | .leq argD arg1 arg2 => nonImmediateWord arg1 arg2 argD (m.op2 .leq)

/-- The bytes of an instruction in memory, lowest address first (R48). -/
def encodeBytes (m : OpMap) (i : Instr) : List Byte := bytesOfWord (encode m i)

/-- The instruction that `i` names: the escape `ALUI` names the secondary instruction its `OP2` selects (R160), every
other instruction names itself. -/
def Instr.selected (m : OpMap) (i : Instr) : Instr :=
  match i with
  | .alui arg1 arg2 argD op2 => ((m.secondaryOf op2).map fun op => op.instr argD arg1 arg2).getD i
  | _ => i

end Sys2Proof
end

