-- ==== Sys2Proof/Machine/Defaults.lean ====
section
/-! DEFINITION. The values the parameters have in `State.reset`: the spec's own default of each (00_scope.md R4,
92_eei_decisions.md), and the value the model names for each register that reset leaves unspecified. No statement about
all states rests on any of them. -/

namespace Sys2Proof

/-- `IMM_EXT` as the spec decides it: sign extension (R79, D6; log 4). -/
def ImmExt.decided : ImmExt where
  mlti := .sign
  divi := .sign
  andi := .sign
  ori := .sign
  xori := .sign
  suli := .sign
  ssli := .sign
  suri := .sign
  ssri := .sign
  lw := .sign
  lb := .sign
  sw := .sign
  sb := .sign
  beq := .sign
  bne := .sign
  blt := .sign
  ble := .sign

/-- The spec's default of every parameter. `MEM_SIZE` is OPEN in the spec: the value is the size of the source's example
memory, 2^17 bytes (R44; DESIGN CHOICE, log 12). -/
def Config.decided : Config where
  memSize := 0x20000
  opMap := OpMap.decided
  immExt := ImmExt.decided
  cmpSigned := true
  divSigned := true
  divRound := .towardZero
  sshl := .asUnsigned
  fetchStored := .stop
  resetPc := 0x00000000
  halt := .selfBranch

/-- What `x[1]` to `x[31]` hold in `State.reset`. The spec leaves them unspecified (R35); DESIGN CHOICE, unsafe, log 19. -/
def resetRegs : Vector Word 31 := Vector.replicate 31 0

end Sys2Proof
end

