-- ==== Sys2Proof/Machine/State.lean ====
section
/-! DEFINITION. The state of a Niu32 machine as plain data (10_state.md R36): registers, pc, memory, the set of stored-to
words, and the configuration, which no step changes; the reasons a step can stop; the state after reset. -/

namespace Sys2Proof.Machine

/-- Memory as (address, byte) cells in one canonical form (`Memory.wf`); an address without a cell reads as
`Memory.unlisted` says. -/
abbrev Memory := List Host.Cell

/-- The model stops (60_exceptions.md R232). None is a trap of the machine (R8, R231): each marks a situation to which
the spec gives no effect, so stopping there is safe. -/
inductive Fault where
  /-- Raised by `step` for a word that decodes to no instruction (R83, R86), and by `execAlui` for an `OP2` that selects
  none (R160). Safe. -/
  | reservedEncoding
  /-- Raised by the fetch when `pc[1:0]` is not `00` (R48). Safe. -/
  | misalignedFetch
  /-- Raised by `LW` and `SW` at an address that is not a multiple of 4 (R46). Safe. -/
  | misalignedAccess
  /-- Raised by the fetch and by loads and stores for a byte at or above `MEM_SIZE` (R44). Safe. -/
  | accessOutOfRange
  /-- Raised by the fetch from a word that a store has written (R56). Safe. -/
  | fetchAfterStore
  /-- Raised by `SB` of a value outside -128 .. 255 (R123). Safe. -/
  | sbValueRange
  /-- Raised by the fetch and by loads for a byte that neither the image nor a store has written (R35, R251, R232). Safe. -/
  | uninitialisedRead
  deriving DecidableEq, Repr

/-- Why the model gives an instruction no meaning. -/
inductive Refusal where
  /-- Raised by `exec` for an instruction without a meaning, by its mnemonic. Safe. No arm of this model answers it. -/
  | notModelled (mnemonic : String)
  deriving DecidableEq, Repr

/-- The machine state. `regs`, `pc` and `mem` are the architectural state of R36; `written` is the bookkeeping of R56;
`cfg` is the model's own field, the parameters of R4 (log 31). The stopped mark of R8 is the outcome `fault` of a step
(log 30). -/
structure State where
  /-- `x[1]` .. `x[31]`, register `r` at index `r - 1` (R20); `x[0]` is not stored (R22) -/
  regs : Vector Word 31
  /-- the byte address of the instruction being executed (R26) -/
  pc : Word
  /-- memory (R33) -/
  mem : Memory
  /-- the addresses of the words a store has written since reset, rising (R56) -/
  written : List Nat
  /-- the configuration (R4) -/
  cfg : Config
  deriving DecidableEq, Repr

/-- The machine right after reset with nothing loaded (R35, R250, R251): the pc at `RESET_PC`, no word marked, memory
with nothing listed, and the register values of log 19. -/
def State.reset : State where
  regs := resetRegs
  pc := Config.decided.resetPc
  mem := []
  written := []
  cfg := Config.decided

end Sys2Proof.Machine
end

