-- ==== Sys2Proof/Machine/Ops.lean ====
section
/-! DEFINITION. The operations every instruction is written over: the model stop that stands where another machine would
take an exception (60_exceptions.md R230-R235), registers and pc (10_state.md R20-R29), the memory's cells, and the
access primitives `MemRead`, `MemWrite` and fetch (20_memory.md R43, R48). -/

namespace Sys2Proof.Machine

/-- The outcome of a step of this machine. -/
abbrev Outcome := Host.Outcome State Fault Refusal

/-- `raise Undefined(f)` (R8, R231): the ONE operation that takes the place of taking an exception. Niu32 saves nothing,
changes no mode and has no vector (R235), so nothing stands beside it for a return. -/
def raiseUndefined (f : Fault) : Outcome := .fault f

/-! ## Registers and pc -/

/-- `x[r]`: register 0 reads 0 (R22). -/
def State.readReg (s : State) (r : Reg) : Word :=
  if h : r = 0 then 0
  else s.regs[r.toNat - 1]'(by have := r.isLt; omega)

/-- `x[r] <- v`: a write of register 0 is discarded (R22). -/
def State.writeReg (s : State) (r : Reg) (v : Word) : State :=
  if h : r = 0 then s
  else { s with regs := s.regs.set (r.toNat - 1) v (by have := r.isLt; omega) }

/-- `pc <- t` (R7). -/
def State.setPc (s : State) (t : Word) : State := { s with pc := t }

/-- The address of the next instruction in memory, `(pc + 4) mod 2^32` (R27, R29). -/
def State.nextPc (s : State) : Word := BitVec.ofNat 32 (s.pc.toNat + 4)

/-- Every instruction but a taken branch and `JAL` ends so (R27). -/
def State.advance (s : State) : State := s.setPc s.nextPc

/-- The end of an instruction whose only result is register `d` (R117): write, then advance. -/
def writeResult (d : Reg) (v : Word) (s : State) : Outcome := .next (s.writeReg d v).advance

/-! ## Cells of memory -/

/-- What an address with no cell reads as: no value is known of it (R35, R251; DESIGN CHOICE, safe, log 20). -/
def Memory.unlisted (_ : Nat) : Option Byte := none

/-- The byte at an address, if one is known. -/
def Memory.read : Memory → Nat → Option Byte
  | [], a => Memory.unlisted a
  | (k, v) :: m, a => if a = k then some v else Memory.read m a

/-- Put a cell in its place, in the rising order of addresses. -/
def Memory.insert : Memory → Nat → Byte → Memory
  | [], a, b => [(a, b)]
  | (k, v) :: m, a, b =>
    if a < k then (a, b) :: (k, v) :: m
    else if a = k then (a, b) :: m
    else (k, v) :: Memory.insert m a b

/-- Write one byte, keeping the canonical form: a value that an unlisted address reads as is not listed. -/
def Memory.write (m : Memory) (a : Nat) (b : Byte) : Memory :=
  if Memory.unlisted a = some b then m.filter (fun c => c.1 != a) else m.insert a b

/-- The canonical form: addresses strictly rise and no cell says what an unlisted address reads as. -/
abbrev Memory.wf (m : Memory) : Prop :=
  (m.map Prod.fst).Pairwise (· < ·) ∧ ∀ c ∈ m, Memory.unlisted c.1 ≠ some c.2

/-- The four bytes of a word, big-endian, `a` the lowest address (R42, R43). -/
def Memory.writeWord (m : Memory) (a : Nat) (w : Word) : Memory :=
  (((m.write a (byteOfWord w 0)).write (a + 1) (byteOfWord w 1)).write (a + 2) (byteOfWord w 2)).write (a + 3)
    (byteOfWord w 3)

/-- Mark a word as written by a store, keeping the list rising (R56). -/
def markWritten : List Nat → Nat → List Nat
  | [], a => [a]
  | k :: ws, a => if a < k then a :: k :: ws else if a = k then k :: ws else k :: markWritten ws a

/-- The address of the word a byte lies in: the low two bits cleared (R41, R43). -/
def wordAddress (a : Word) : Nat := a.toNat / 4 * 4

/-! ## The access primitives (R43) -/

/-- The bytes of a word as `MemRead(addr, 4)` joins them (R42); a byte of unspecified contents stops the model (R35). -/
def State.wordAt (s : State) (a : Nat) : Except Fault Word :=
  match s.mem.read a, s.mem.read (a + 1), s.mem.read (a + 2), s.mem.read (a + 3) with
  | some b0, some b1, some b2, some b3 => .ok (wordOfBytes b0 b1 b2 b3)
  | _, _, _, _ => .error .uninitialisedRead

/-- `MemRead(addr, 1)` (R43). -/
def State.memRead1 (s : State) (addr : Word) : Except Fault Byte :=
  if s.cfg.memSize ≤ addr.toNat then .error .accessOutOfRange
  else
    match s.mem.read addr.toNat with
    | some b => .ok b
    | none => .error .uninitialisedRead

/-- `MemRead(addr, 4)` (R43): alignment before range (R234). -/
def State.memRead4 (s : State) (addr : Word) : Except Fault Word :=
  if addr.toNat % 4 ≠ 0 then .error .misalignedAccess
  else if s.cfg.memSize ≤ addr.toNat + 3 then .error .accessOutOfRange
  else s.wordAt addr.toNat

/-- `MemWrite(addr, 1, v)` (R43), with the mark of R56. -/
def State.memWrite1 (s : State) (addr : Word) (v : Byte) : Except Fault State :=
  if s.cfg.memSize ≤ addr.toNat then .error .accessOutOfRange
  else .ok { s with mem := s.mem.write addr.toNat v, written := markWritten s.written (wordAddress addr) }

/-- `MemWrite(addr, 4, v)` (R43): alignment before range (R234), with the mark of R56. -/
def State.memWrite4 (s : State) (addr : Word) (v : Word) : Except Fault State :=
  if addr.toNat % 4 ≠ 0 then .error .misalignedAccess
  else if s.cfg.memSize ≤ addr.toNat + 3 then .error .accessOutOfRange
  else .ok { s with mem := s.mem.writeWord addr.toNat v, written := markWritten s.written (wordAddress addr) }

/-- The instruction word at the pc (R48), its checks in the order of R234; the stop of R56 is the spec's default and the
unified reading its stated alternative (log 24). -/
def State.fetch (s : State) : Except Fault Word :=
  if s.pc.toNat % 4 ≠ 0 then .error .misalignedFetch
  else if s.cfg.memSize ≤ s.pc.toNat + 3 then .error .accessOutOfRange
  else if s.cfg.fetchStored = .stop ∧ s.pc.toNat ∈ s.written then .error .fetchAfterStore
  else s.wordAt s.pc.toNat

/-- The end of a load: the value read goes to register `d`; a model stop writes nothing (R120, R121). -/
def loadResult (d : Reg) (r : Except Fault Word) (s : State) : Outcome :=
  match r with
  | .ok v => writeResult d v s
  | .error f => raiseUndefined f

/-- The end of a store (R122, R123). -/
def storeResult (r : Except Fault State) : Outcome :=
  match r with
  | .ok s => .next s.advance
  | .error f => raiseUndefined f

end Sys2Proof.Machine
end

