-- ==== Sys2Proof/Machine/Arith.lean ====
section
/-! DEFINITION. The integer laws of 40_alu_immediate.md R110-R115, each computed on integers and narrowed at the end. -/

namespace Sys2Proof.Machine

/-- `add32` (R110) -/
def add32 (a b : Word) : Word := BitVec.ofNat 32 (a.toNat + b.toNat)

/-- `sub32` (R110) -/
def sub32 (a b : Word) : Word := BitVec.ofInt 32 ((a.toNat : Int) - b.toNat)

/-- `mul32` (R111): the low 32 bits of the product. -/
def mul32 (a b : Word) : Word := BitVec.ofNat 32 (a.toNat * b.toNat)

/-- `and32` (R112) -/
def and32 (a b : Word) : Word := a &&& b

/-- `or32` (R112) -/
def or32 (a b : Word) : Word := a ||| b

/-- `xor32` (R112) -/
def xor32 (a b : Word) : Word := a ^^^ b

/-- `not32` (R112) -/
def not32 (a : Word) : Word := a ^^^ 0xFFFFFFFF

/-- The rounding of a quotient (`DIV_ROUND`, R113; log 6). -/
def roundedQuotient (r : DivRound) (a b : Int) : Int :=
  match r with
  | .towardZero => a.tdiv b
  | .towardMinusInf => a.fdiv b

/-- `div32` (R113). Under `DIV_SIGNED` the two corners are the free value `DIV_CORNER`; read unsigned, only the division
by zero is one (log 6, log 7). -/
def div32 (c : Config) (a b : Word) : Word :=
  if c.divSigned then
    if b.toInt = 0 then Config.divCorner a b
    else if a.toInt = -2 ^ 31 ∧ b.toInt = -1 then Config.divCorner a b
    else BitVec.ofInt 32 (roundedQuotient c.divRound a.toInt b.toInt)
  else if b.toNat = 0 then Config.divCorner a b
  else BitVec.ofNat 32 (a.toNat / b.toNat)

/-- `shl32` (R114) -/
def shl32 (a : Word) (n : Nat) : Word := BitVec.ofNat 32 (a.toNat * 2 ^ n)

/-- `shrl32` (R114) -/
def shrl32 (a : Word) (n : Nat) : Word := BitVec.ofNat 32 (a.toNat / 2 ^ n)

/-- `shra32` (R114): the quotient by the positive `2^n` rounded down, so that copies of the sign enter. -/
def shra32 (a : Word) (n : Nat) : Word := BitVec.ofInt 32 (a.toInt / 2 ^ n)

/-- Bits 31 down to 31-n are all equal, where every reading of the signed left shift agrees (R107, R114). -/
def topBitsEqual (a : Word) (n : Nat) : Bool := shra32 a (31 - n) == 0 || shra32 a (31 - n) == BitVec.allOnes 32

/-- `sshl32` (R114): the bits of `shl32`, or, under the open reading, a free value where the readings differ (log 9). -/
def sshl32 (c : Config) (a : Word) (n : Nat) : Word :=
  match c.sshl with
  | .asUnsigned => shl32 a n
  | .openReading => if topBitsEqual a n then shl32 a n else Config.sshlOpen a n

/-- A shift by a whole 32-bit amount (R115): the laws of R114 for amounts up to 31, the free value `SHIFT_OOR` beyond
(log 8). -/
def shift (c : Config) (op : ShiftOp) (a amt : Word) : Word :=
  if amt.toNat ≤ 31 then
    match op with
    | .sul => shl32 a amt.toNat
    | .ssl => sshl32 c a amt.toNat
    | .sur => shrl32 a amt.toNat
    | .ssr => shra32 a amt.toNat
  else Config.shiftOor op a amt

end Sys2Proof.Machine
end

