-- ==== Sys2Proof/Machine/Operands.lean ====
section
/-! DEFINITION. The operand forms (30_encoding.md R78-R80): the widened immediate, the two effective addresses
(41_load_store_lui.md R125), the absolute branch target (42_branch_jump.md R145) and the constant of `LUI` (R124). -/

namespace Sys2Proof.Machine

/-- `sext_32(IMM)` (R7, R79): the 17-bit field read as a two's-complement number. -/
def sextImm (imm : Imm) : Word := BitVec.ofInt 32 imm.toInt

/-- `zext_32(IMM)` (R7, R79): the field read as an unsigned number. -/
def zextImm (imm : Imm) : Word := BitVec.ofNat 32 imm.toNat

/-- The 32-bit value of `IMM` under the instruction's entry of `IMM_EXT` (R79). -/
def immValue (e : Ext) (imm : Imm) : Word :=
  match e with
  | .sign => sextImm imm
  | .zero => zextImm imm

/-- `ea_word` (R53, R125): base plus four times the immediate, modulo 2^32. -/
def eaWord (base : Word) (imm32 : Word) : Word := BitVec.ofInt 32 (base.toNat + 4 * imm32.toInt)

/-- `ea_byte` (R53, R125): base plus the immediate, modulo 2^32. -/
def eaByte (base : Word) (imm32 : Word) : Word := BitVec.ofInt 32 (base.toNat + imm32.toInt)

/-- The absolute target of a branch (R145): four times the immediate, modulo 2^32. -/
def branchTarget (imm32 : Word) : Word := BitVec.ofInt 32 (imm32.toInt * 4)

/-- The value of `LUI`: `IMM` in bits 31-15, zeros below (R124). -/
def luiValue (imm : Imm) : Word := imm ++ 0#15

/-- `LB`'s result: the byte sign-extended to 32 bits (R121). -/
def sextByte (b : Byte) : Word := BitVec.ofInt 32 b.toInt

/-- The byte that `SB` stores, `x[VAL][7:0]` (R123). -/
def lowByte (v : Word) : Byte := v.extractLsb' 0 8

/-- `v` "fits into 8 bits" (R123): `v[31:8]` is zero or `v[31:7]` is all ones. -/
def sbFits (v : Word) : Bool := v.extractLsb' 8 24 == 0#24 || v.extractLsb' 7 25 == BitVec.allOnes 25

end Sys2Proof.Machine
end

