-- ==== Sys2Proof/Machine/AluImmediate.lean ====
section
/-! DEFINITION. The ten immediate ALU instructions (40_alu_immediate.md R100-R109, template R119). -/

namespace Sys2Proof.Machine

/-- `ADDI` (R100): `x[ARGD] <- x[ARG1] + sext_32(IMM)`; the sign extension is the source's. -/
def execAddi (argD arg1 : Reg) (imm : Imm) (s : State) : Outcome :=
  writeResult argD (add32 (s.readReg arg1) (sextImm imm)) s

/-- `MLTI` (R101): `x[ARGD] <- x[ARG1] * imm32`, by C1 a multiplication. -/
def execMlti (argD arg1 : Reg) (imm : Imm) (s : State) : Outcome :=
  writeResult argD (mul32 (s.readReg arg1) (immValue s.cfg.immExt.mlti imm)) s

/-- `DIVI` (R102): `x[ARGD] <- x[ARG1] / imm32`. -/
def execDivi (argD arg1 : Reg) (imm : Imm) (s : State) : Outcome :=
  writeResult argD (div32 s.cfg (s.readReg arg1) (immValue s.cfg.immExt.divi imm)) s

/-- `ANDI` (R103): `x[ARGD] <- x[ARG1] & imm32`. -/
def execAndi (argD arg1 : Reg) (imm : Imm) (s : State) : Outcome :=
  writeResult argD (and32 (s.readReg arg1) (immValue s.cfg.immExt.andi imm)) s

/-- `ORI` (R104): `x[ARGD] <- x[ARG1] | imm32`, by C2 an OR. -/
def execOri (argD arg1 : Reg) (imm : Imm) (s : State) : Outcome :=
  writeResult argD (or32 (s.readReg arg1) (immValue s.cfg.immExt.ori imm)) s

/-- `XORI` (R105): `x[ARGD] <- x[ARG1] ^ imm32`, by C3 an exclusive OR. -/
def execXori (argD arg1 : Reg) (imm : Imm) (s : State) : Outcome :=
  writeResult argD (xor32 (s.readReg arg1) (immValue s.cfg.immExt.xori imm)) s

/-- `SULI` (R106): the shift of `SUL` by `imm32` read as unsigned. -/
def execSuli (argD arg1 : Reg) (imm : Imm) (s : State) : Outcome :=
  writeResult argD (shift s.cfg .sul (s.readReg arg1) (immValue s.cfg.immExt.suli imm)) s

/-- `SSLI` (R107): the shift of `SSL` by `imm32` read as unsigned. -/
def execSsli (argD arg1 : Reg) (imm : Imm) (s : State) : Outcome :=
  writeResult argD (shift s.cfg .ssl (s.readReg arg1) (immValue s.cfg.immExt.ssli imm)) s

/-- `SURI` (R108): the shift of `SUR` by `imm32` read as unsigned. -/
def execSuri (argD arg1 : Reg) (imm : Imm) (s : State) : Outcome :=
  writeResult argD (shift s.cfg .sur (s.readReg arg1) (immValue s.cfg.immExt.suri imm)) s

/-- `SSRI` (R109): the shift of `SSR` by `imm32` read as unsigned. -/
def execSsri (argD arg1 : Reg) (imm : Imm) (s : State) : Outcome :=
  writeResult argD (shift s.cfg .ssr (s.readReg arg1) (immValue s.cfg.immExt.ssri imm)) s

end Sys2Proof.Machine
end

