-- ==== Sys2Proof/Machine/Flags.lean ====
section
/-! DEFINITION. Niu32 has no status flags, no condition codes and no predicate registers (10_state.md R30), so no
instruction computes any. What stands here are the conditions that other machines derive from flags: the comparisons of
40_alu_immediate.md R116, which a set instruction writes to a register and a branch consumes at once. -/

namespace Sys2Proof.Machine

/-- `eq32` (R116) -/
def eq32 (a b : Word) : Bool := a == b

/-- `ne32` (R116) -/
def ne32 (a b : Word) : Bool := !eq32 a b

/-- `lt32` (R116): signed order under `CMP_SIGNED`, unsigned order otherwise (log 5). -/
def lt32 (c : Config) (a b : Word) : Bool :=
  if c.cmpSigned then decide (a.toInt < b.toInt) else decide (a.toNat < b.toNat)

/-- `le32` (R116) -/
def le32 (c : Config) (a b : Word) : Bool :=
  if c.cmpSigned then decide (a.toInt ≤ b.toInt) else decide (a.toNat ≤ b.toNat)

/-- What the four set instructions write (R116). -/
def truthWord (b : Bool) : Word := if b then 0x00000001 else 0x00000000

end Sys2Proof.Machine
end

