-- ==== Sys2Proof/Machine/AluRegister.lean ====
section
/-! DEFINITION. The sixteen register-register instructions and the escape that selects them (43_alu_register.md
R160-R176). -/

namespace Sys2Proof.Machine

/-- `SUB` (R161): `x[ARGD] <-` `x[ARG1] - x[ARG2]`, the operand order of C4. -/
def execSub (argD arg1 arg2 : Reg) (s : State) : Outcome :=
  writeResult argD (sub32 (s.readReg arg1) (s.readReg arg2)) s

/-- `ADD` (R162): `x[ARGD] <-` `x[ARG1] + x[ARG2]`. -/
def execAdd (argD arg1 arg2 : Reg) (s : State) : Outcome :=
  writeResult argD (add32 (s.readReg arg1) (s.readReg arg2)) s

/-- `MLT` (R163): `x[ARGD] <-` `x[ARG1] * x[ARG2]`, low 32 bits. -/
def execMlt (argD arg1 arg2 : Reg) (s : State) : Outcome :=
  writeResult argD (mul32 (s.readReg arg1) (s.readReg arg2)) s

/-- `DIV` (R164): `x[ARGD] <-` `x[ARG1] / x[ARG2]`. -/
def execDiv (argD arg1 arg2 : Reg) (s : State) : Outcome :=
  writeResult argD (div32 s.cfg (s.readReg arg1) (s.readReg arg2)) s

/-- `NOT` (R165): `x[ARGD] <- ~x[ARG1]`; one source only. -/
def execNot (argD arg1 : Reg) (s : State) : Outcome :=
  writeResult argD (not32 (s.readReg arg1)) s

/-- `AND` (R166): `x[ARGD] <-` `x[ARG1] & x[ARG2]`. -/
def execAnd (argD arg1 arg2 : Reg) (s : State) : Outcome :=
  writeResult argD (and32 (s.readReg arg1) (s.readReg arg2)) s

/-- `OR` (R167): `x[ARGD] <-` `x[ARG1] | x[ARG2]`. -/
def execOr (argD arg1 arg2 : Reg) (s : State) : Outcome :=
  writeResult argD (or32 (s.readReg arg1) (s.readReg arg2)) s

/-- `XOR` (R168): `x[ARGD] <-` `x[ARG1] ^ x[ARG2]`. -/
def execXor (argD arg1 arg2 : Reg) (s : State) : Outcome :=
  writeResult argD (xor32 (s.readReg arg1) (s.readReg arg2)) s

/-- `SUL` (R169): `x[ARGD] <-` `x[ARG1] << x[ARG2]`. -/
def execSul (argD arg1 arg2 : Reg) (s : State) : Outcome :=
  writeResult argD (shift s.cfg .sul (s.readReg arg1) (s.readReg arg2)) s

/-- `SSL` (R170): `x[ARGD] <-` `x[ARG1] <<< x[ARG2]`. -/
def execSsl (argD arg1 arg2 : Reg) (s : State) : Outcome :=
  writeResult argD (shift s.cfg .ssl (s.readReg arg1) (s.readReg arg2)) s

/-- `SUR` (R171): `x[ARGD] <-` `x[ARG1] >> x[ARG2]`. -/
def execSur (argD arg1 arg2 : Reg) (s : State) : Outcome :=
  writeResult argD (shift s.cfg .sur (s.readReg arg1) (s.readReg arg2)) s

/-- `SSR` (R172): `x[ARGD] <-` `x[ARG1] >>> x[ARG2]`. -/
def execSsr (argD arg1 arg2 : Reg) (s : State) : Outcome :=
  writeResult argD (shift s.cfg .ssr (s.readReg arg1) (s.readReg arg2)) s

/-- `EQ` (R173): `x[ARGD] <-` 1 if equal, else 0. -/
def execEq (argD arg1 arg2 : Reg) (s : State) : Outcome :=
  writeResult argD (truthWord (eq32 (s.readReg arg1) (s.readReg arg2))) s

/-- `NEQ` (R174): `x[ARGD] <-` 1 if not equal, else 0. -/
def execNeq (argD arg1 arg2 : Reg) (s : State) : Outcome :=
  writeResult argD (truthWord (ne32 (s.readReg arg1) (s.readReg arg2))) s

/-- `LT` (R175): `x[ARGD] <-` 1 if less than, else 0. -/
def execLt (argD arg1 arg2 : Reg) (s : State) : Outcome :=
  writeResult argD (truthWord (lt32 s.cfg (s.readReg arg1) (s.readReg arg2))) s

/-- `LEQ` (R176): `x[ARGD] <-` 1 if less than or equal, else 0. -/
def execLeq (argD arg1 arg2 : Reg) (s : State) : Outcome :=
  writeResult argD (truthWord (le32 s.cfg (s.readReg arg1) (s.readReg arg2))) s

/-- `ALUI` (R160): execute the instruction that R77 assigns to `OP2`; where there is none, or where `NOT`'s unused
`ARG2` is not zero (R82, R86), the word is reserved (log 32). -/
def execAlui (arg1 arg2 argD : Reg) (op2 : Opcode) (s : State) : Outcome :=
  match s.cfg.opMap.secondaryOf op2 with
  | none => raiseUndefined .reservedEncoding
  | some .sub => execSub argD arg1 arg2 s
  | some .add => execAdd argD arg1 arg2 s
  | some .mlt => execMlt argD arg1 arg2 s
  | some .div => execDiv argD arg1 arg2 s
  | some .not => if arg2 ≠ 0 then raiseUndefined .reservedEncoding else execNot argD arg1 s
  | some .and => execAnd argD arg1 arg2 s
  | some .or => execOr argD arg1 arg2 s
  | some .xor => execXor argD arg1 arg2 s
  | some .sul => execSul argD arg1 arg2 s
  | some .ssl => execSsl argD arg1 arg2 s
  | some .sur => execSur argD arg1 arg2 s
  | some .ssr => execSsr argD arg1 arg2 s
  | some .eq => execEq argD arg1 arg2 s
  | some .neq => execNeq argD arg1 arg2 s
  | some .lt => execLt argD arg1 arg2 s
  | some .leq => execLeq argD arg1 arg2 s

end Sys2Proof.Machine
end

