-- ==== Sys2Proof/Machine/Branch.lean ====
section
/-! DEFINITION. The four conditional branches and jump-and-link (42_branch_jump.md R140-R145), the only instructions that
set the pc to anything but `pc + 4` (R146). -/

namespace Sys2Proof.Machine

/-- The common part of the branches (R145): the absolute target if the condition holds, else the next instruction. -/
def branchTo (cond : Bool) (imm32 : Word) (s : State) : Outcome :=
  .next (if cond then s.setPc (branchTarget imm32) else s.advance)

/-- `BEQ` (R140) -/
def execBeq (arg1 arg2 : Reg) (imm : Imm) (s : State) : Outcome :=
  branchTo (eq32 (s.readReg arg1) (s.readReg arg2)) (immValue s.cfg.immExt.beq imm) s

/-- `BNE` (R141) -/
def execBne (arg1 arg2 : Reg) (imm : Imm) (s : State) : Outcome :=
  branchTo (ne32 (s.readReg arg1) (s.readReg arg2)) (immValue s.cfg.immExt.bne imm) s

/-- `BLT` (R142) -/
def execBlt (arg1 arg2 : Reg) (imm : Imm) (s : State) : Outcome :=
  branchTo (lt32 s.cfg (s.readReg arg1) (s.readReg arg2)) (immValue s.cfg.immExt.blt imm) s

/-- `BLE` (R143) -/
def execBle (arg1 arg2 : Reg) (imm : Imm) (s : State) : Outcome :=
  branchTo (le32 s.cfg (s.readReg arg1) (s.readReg arg2)) (immValue s.cfg.immExt.ble imm) s

/-- `JAL` (R144): the target is read first, then `arg1` gets the address of the next instruction (D19; log 17). -/
def execJal (arg1 argD : Reg) (s : State) : Outcome :=
  .next ((s.writeReg arg1 s.nextPc).setPc (s.readReg argD))

end Sys2Proof.Machine
end

