-- ==== Sys2Proof/Machine/LoadStore.lean ====
section
/-! DEFINITION. Loads, stores and load-upper-immediate (41_load_store_lui.md R120-R125). -/

namespace Sys2Proof.Machine

/-- `LW` (R120): base `ARG1`, word offset. -/
def execLw (argD arg1 : Reg) (imm : Imm) (s : State) : Outcome :=
  loadResult argD (s.memRead4 (eaWord (s.readReg arg1) (immValue s.cfg.immExt.lw imm))) s

/-- `LB` (R121): base `ARG1`, byte offset, the byte sign-extended. -/
def execLb (argD arg1 : Reg) (imm : Imm) (s : State) : Outcome :=
  loadResult argD ((s.memRead1 (eaByte (s.readReg arg1) (immValue s.cfg.immExt.lb imm))).map sextByte) s

/-- `SW` (R122): the word in `arg1` to base `arg2` plus the word offset. -/
def execSw (arg1 arg2 : Reg) (imm : Imm) (s : State) : Outcome :=
  storeResult (s.memWrite4 (eaWord (s.readReg arg2) (immValue s.cfg.immExt.sw imm)) (s.readReg arg1))

/-- `SB` (R123): the low byte of `arg1` to base `arg2` plus the byte offset; the value is checked before the address
(R234; log 16). -/
def execSb (arg1 arg2 : Reg) (imm : Imm) (s : State) : Outcome :=
  if sbFits (s.readReg arg1) then
    storeResult (s.memWrite1 (eaByte (s.readReg arg2) (immValue s.cfg.immExt.sb imm)) (lowByte (s.readReg arg1)))
  else raiseUndefined .sbValueRange

/-- `LUI` (R124): `IMM` in bits 31-15, by C9. -/
def execLui (argD : Reg) (imm : Imm) (s : State) : Outcome :=
  writeResult argD (luiValue imm) s

end Sys2Proof.Machine
end

