-- ==== Sys2Proof/Machine/Dispatch.lean ====
section
/-! DEFINITION. What each instruction does, one arm per constructor of `Instr`, each a direct call of its meaning. -/

namespace Sys2Proof.Machine

def exec (i : Instr) (s : State) : Host.Outcome State Fault Refusal :=
  match i with
  | .alui arg1 arg2 argD op2 => Sys2Proof.Machine.execAlui arg1 arg2 argD op2 s
  | .addi argD arg1 imm => Sys2Proof.Machine.execAddi argD arg1 imm s
  | .mlti argD arg1 imm => Sys2Proof.Machine.execMlti argD arg1 imm s
  | .divi argD arg1 imm => Sys2Proof.Machine.execDivi argD arg1 imm s
  | .andi argD arg1 imm => Sys2Proof.Machine.execAndi argD arg1 imm s
  | .ori argD arg1 imm => Sys2Proof.Machine.execOri argD arg1 imm s
  | .xori argD arg1 imm => Sys2Proof.Machine.execXori argD arg1 imm s
  | .suli argD arg1 imm => Sys2Proof.Machine.execSuli argD arg1 imm s
  | .ssli argD arg1 imm => Sys2Proof.Machine.execSsli argD arg1 imm s
  | .suri argD arg1 imm => Sys2Proof.Machine.execSuri argD arg1 imm s
  | .ssri argD arg1 imm => Sys2Proof.Machine.execSsri argD arg1 imm s
  | .lw argD arg1 imm => Sys2Proof.Machine.execLw argD arg1 imm s
  | .lb argD arg1 imm => Sys2Proof.Machine.execLb argD arg1 imm s
  | .sw arg1 arg2 imm => Sys2Proof.Machine.execSw arg1 arg2 imm s
  | .sb arg1 arg2 imm => Sys2Proof.Machine.execSb arg1 arg2 imm s
  | .lui argD imm => Sys2Proof.Machine.execLui argD imm s
  | .beq arg1 arg2 imm => Sys2Proof.Machine.execBeq arg1 arg2 imm s
  | .bne arg1 arg2 imm => Sys2Proof.Machine.execBne arg1 arg2 imm s
  | .blt arg1 arg2 imm => Sys2Proof.Machine.execBlt arg1 arg2 imm s
  | .ble arg1 arg2 imm => Sys2Proof.Machine.execBle arg1 arg2 imm s
  | .jal arg1 argD => Sys2Proof.Machine.execJal arg1 argD s
  | .sub argD arg1 arg2 => Sys2Proof.Machine.execSub argD arg1 arg2 s
  | .add argD arg1 arg2 => Sys2Proof.Machine.execAdd argD arg1 arg2 s
  | .mlt argD arg1 arg2 => Sys2Proof.Machine.execMlt argD arg1 arg2 s
  | .div argD arg1 arg2 => Sys2Proof.Machine.execDiv argD arg1 arg2 s
  | .not argD arg1 => Sys2Proof.Machine.execNot argD arg1 s
  | .and argD arg1 arg2 => Sys2Proof.Machine.execAnd argD arg1 arg2 s
  | .or argD arg1 arg2 => Sys2Proof.Machine.execOr argD arg1 arg2 s
  | .xor argD arg1 arg2 => Sys2Proof.Machine.execXor argD arg1 arg2 s
  | .sul argD arg1 arg2 => Sys2Proof.Machine.execSul argD arg1 arg2 s
  | .ssl argD arg1 arg2 => Sys2Proof.Machine.execSsl argD arg1 arg2 s
  | .sur argD arg1 arg2 => Sys2Proof.Machine.execSur argD arg1 arg2 s
  | .ssr argD arg1 arg2 => Sys2Proof.Machine.execSsr argD arg1 arg2 s
  | .eq argD arg1 arg2 => Sys2Proof.Machine.execEq argD arg1 arg2 s
  | .neq argD arg1 arg2 => Sys2Proof.Machine.execNeq argD arg1 arg2 s
  | .lt argD arg1 arg2 => Sys2Proof.Machine.execLt argD arg1 arg2 s
  | .leq argD arg1 arg2 => Sys2Proof.Machine.execLeq argD arg1 arg2 s

end Sys2Proof.Machine
end

