-- ==== Sys2Proof/Machine/Step.lean ====
section
/-! DEFINITION. One step of the machine (70_reset_and_hazards.md R260): fetch, decode, execute. -/

namespace Sys2Proof.Machine

/-- Fetch (R48), decode (R86), then the instruction's rule; a word that decodes to nothing is the model stop
ReservedEncoding (R83). -/
def step (s : State) : Host.Outcome State Fault Refusal :=
  match s.fetch with
  | .error f => raiseUndefined f
  | .ok w =>
    match decode s.cfg.opMap w with
    | .error _ => raiseUndefined .reservedEncoding
    | .ok i => exec i s

/-- The state with an instruction word, numbered as spec/opcode_table.json numbers it and zero above `nbits`, loaded
where the next fetch reads (R48, R220): its four bytes at the pc, and the word not marked as stored to (R56). Where the
pc is misaligned or outside memory no word can be fetched, whatever stands there. Log 33. -/
def State.withFetchWord (s : State) (nbits w : Nat) : State :=
  { s with
    mem := s.mem.writeWord s.pc.toNat (BitVec.ofNat 32 (w % 2 ^ nbits))
    written := s.written.filter fun a => a != s.pc.toNat }

end Sys2Proof.Machine
end

