-- ==== Sys2Proof/Machine/Conventions.lean ====
section
/-! DEFINITION. The register table of 10_state.md R21 and its software roles (R24, R148). Nothing in the machine checks
or uses the roles (R24); the names are the assembler's (R192). -/

namespace Sys2Proof

/-- The 32 register names in the order of their numbers, each as written after the `$` (R21). -/
def regNames : List String :=
  ["zero", "a0", "a1", "a2", "a3", "t0", "t1", "t2", "t3", "t4", "t5", "t6", "t7",
   "s0", "s1", "s2", "s3", "s4", "s5", "s6", "s7", "r0", "r1", "r2", "r3",
   "ra", "gp", "fp", "sp", "at", "k0", "k1"]

/-- The name of a register (R21). -/
def regName (r : Reg) : String := "$" ++ regNames.getD r.toNat ""

/-- The register a name stands for: only the names of the table (R192; 91_not_in_source.md N13). -/
def regOfName (name : List Char) : Option Reg :=
  ((regNames.map String.toList).findIdx? (· == name)).map (BitVec.ofNat 5)

/-- `$zero` (R22) -/
def regZero : Reg := 0

/-- `$ra`, the link register of `JMP` and `RET` (R23) -/
def regRa : Reg := 25

/-- `$sp`, the stack pointer of `PUSH` and `POP` (R23) -/
def regSp : Reg := 28

/-- The roles of the register table's description column (R21, R24). -/
inductive RegRole where
  | zero | argument | temporary | saved | returnValue | returnAddress
  | globalPointer | framePointer | stackPointer | assembler | kernel
  deriving DecidableEq, Repr

/-- The role of a register (R21). -/
def regRole (r : Reg) : RegRole :=
  if r.toNat = 0 then .zero
  else if r.toNat ≤ 4 then .argument
  else if r.toNat ≤ 12 then .temporary
  else if r.toNat ≤ 20 then .saved
  else if r.toNat ≤ 24 then .returnValue
  else if r.toNat = 25 then .returnAddress
  else if r.toNat = 26 then .globalPointer
  else if r.toNat = 27 then .framePointer
  else if r.toNat = 28 then .stackPointer
  else if r.toNat = 29 then .assembler
  else .kernel

/-- Who keeps a register's value over a call, in the table's words (R24, R148). -/
inductive Saver where
  | callerPushed | callerSaved | calleeSaved | notStated
  deriving DecidableEq, Repr

/-- The convention of R24 for each role. -/
def RegRole.saver : RegRole → Saver
  | .argument => .callerPushed
  | .temporary => .callerSaved
  | .saved | .returnAddress | .framePointer | .stackPointer => .calleeSaved
  | .zero | .returnValue | .globalPointer | .assembler | .kernel => .notStated

end Sys2Proof
end

