-- ==== Sys2Proof/Machine/PseudoOps.lean ====
section
/-! DEFINITION. The 17 pseudo-ops and their expansions (44_assembler_pseudo_ops.md R196-R212, D26; log 25). They are the
assembler's, not the machine's: each is one or two real instructions. -/

namespace Sys2Proof

/-- A pseudo-op with its operands in the order of its syntax line. A number is an assembly-level integer where the
expansion depends on its value, and otherwise the field it becomes. -/
inductive Pseudo where
  | subi (argD arg1 : Reg) (imm : Int)
  | gt (argD arg1 arg2 : Reg)
  | geq (argD arg1 arg2 : Reg)
  | nand (argD arg1 arg2 : Reg)
  | nor (argD arg1 arg2 : Reg)
  | nxor (argD arg1 arg2 : Reg)
  | cpy (argD arg1 : Reg)
  /-- `location` is the label's byte address -/
  | la (argD : Reg) (location : Word)
  | lv (argD : Reg) (value : Word)
  | clr (argD : Reg)
  | bgt (arg1 arg2 : Reg) (imm : Imm)
  | bge (arg1 arg2 : Reg) (imm : Imm)
  | goto (imm : Imm)
  | jmp (argD : Reg)
  | ret
  | push (arg1 : Reg)
  | pop (argD : Reg)
  deriving DecidableEq, Repr

/-- The field of a number that fits `IMM`, `-65536 <= v <= 65535`, encoded modulo 2^17 (R81; log 35). -/
def immOfInt (v : Int) : Option Imm := if -65536 ≤ v ∧ v ≤ 65535 then some (BitVec.ofInt 17 v) else none

/-- `LUI` then `ORI`: the two words that build a 32-bit constant (R126, R203, R204). -/
def loadConstant (argD : Reg) (k : Word) : List Instr :=
  [.lui argD (k.extractLsb' 15 17), .ori argD argD (0#2 ++ k.extractLsb' 0 15)]

/-- The expansion of a pseudo-op (R196-R212). In the two corners of `SUBI` that R196 leaves open (N15) what counts is
whether the negated number fits: 65536 becomes `ADDI` with -65536, and -65536 has no expansion (DESIGN CHOICE, log 43). -/
def Pseudo.expand : Pseudo → Option (List Instr)
  | .subi argD arg1 imm => (immOfInt (-imm)).map fun n => [.addi argD arg1 n]
  | .gt argD arg1 arg2 => some [.lt argD arg2 arg1]
  | .geq argD arg1 arg2 => some [.leq argD arg2 arg1]
  | .nand argD arg1 arg2 => some [.and argD arg1 arg2, .not argD argD]
  | .nor argD arg1 arg2 => some [.or argD arg1 arg2, .not argD argD]
  | .nxor argD arg1 arg2 => some [.xor argD arg1 arg2, .not argD argD]
  | .cpy argD arg1 => some [.add argD arg1 regZero]
  | .la argD location => some (loadConstant argD location)
  | .lv argD value => some (loadConstant argD value)
  | .clr argD => some [.add argD regZero regZero]
  | .bgt arg1 arg2 imm => some [.blt arg2 arg1 imm]
  | .bge arg1 arg2 imm => some [.ble arg2 arg1 imm]
  | .goto imm => some [.beq regZero regZero imm]
  | .jmp argD => some [.jal regRa argD]
  | .ret => some [.jal regZero regRa]
  | .push arg1 => some [.sw arg1 regSp 0, .addi regSp regSp (BitVec.ofInt 17 (-4))]
  | .pop argD => some [.addi regSp regSp 4, .lw argD regSp 0]

end Sys2Proof

namespace Sys2Proof.Machine

/-- Instructions executed one after the other, without the fetches between them: the effect of an expansion whose words
lie one after the other in memory (R257). -/
def execAll : List Instr → State → Outcome
  | [], s => .next s
  | i :: rest, s =>
    match exec i s with
    | .next t => execAll rest t
    | .fault f => .fault f
    | .refused r => .refused r

end Sys2Proof.Machine
end

