-- ==== Sys2Proof/Machine/Assembler.lean ====
section
/-! DEFINITION. The assembler over parsed lines (44_assembler_pseudo_ops.md R194-R220): the mnemonics with their operand
forms, the directives, the location counter, labels and constants, the image, and the output lines. A program text the
spec gives no encoding is refused by name (93_implementation_defined.md U4, U5, U21). Decisions: logs 25 to
27, 35 to 37, 40 to 44. -/

namespace Sys2Proof.Asm

/-- Why a program text has no encoding. -/
inductive AsmError where
  /-- `ALUI` written in a program (R195) -/
  | aluiWritten
  /-- no mnemonic, pseudo-op or directive of that spelling (R190) -/
  | unknownMnemonic
  /-- the operands are not those of the syntax line (R194) -/
  | badOperands
  /-- a `$` name that the register table does not have (R192) -/
  | badRegister
  /-- a number that is not `0x`, `0b` or decimal digits (R191) -/
  | badNumber
  /-- a label that is not lower case (R190) -/
  | badLabel
  /-- a number that does not fit its field (R81) -/
  | immOutOfRange
  /-- a number that does not fit a 32-bit word -/
  | valueOutOfRange
  /-- `.ORIG` at a location that is not a multiple of 4 (R214) -/
  | origMisaligned
  /-- a location outside the 32-bit address space -/
  | locationOutOfRange
  /-- a name that is neither a label nor an earlier `.NAME` (R213) -/
  | undefinedName
  /-- a label where only a number may stand (R217) -/
  | labelNotAllowed
  /-- a name defined twice -/
  | duplicateName
  /-- two words at one location (R216) -/
  | overlappingWords
  deriving DecidableEq, Repr

/-- A label or a `.NAME` constant. -/
abbrev Name := List Char

/-- One operand of a line (R191, R192, R194). -/
inductive Operand where
  | reg (r : Reg)
  | num (v : Int)
  | name (n : Name)
  deriving DecidableEq, Repr

/-- One parsed line: its text, the label before it, its mnemonic or directive and the operands. -/
structure Line where
  text : List Char
  label : Option Name
  op : Option (List Char × List Operand)
  deriving DecidableEq, Repr

/-! ## Operand values (R81, R217) -/

/-- A number in the signed range of `IMM` (R81). -/
def immField (v : Int) : Except AsmError Imm :=
  match immOfInt v with
  | some n => .ok n
  | none => .error .immOutOfRange

/-- The operand of `LUI`: a 17-bit pattern (R124, D27). -/
def luiField (v : Int) : Except AsmError Imm :=
  if 0 ≤ v ∧ v < 2 ^ 17 then .ok (BitVec.ofInt 17 v) else .error .immOutOfRange

/-- A 32-bit number, a negative one modulo 2^32 (R204); its range is the model's own (DESIGN CHOICE, log 26). -/
def wordValue (v : Int) : Except AsmError Word :=
  if -2 ^ 31 ≤ v ∧ v < 2 ^ 32 then .ok (BitVec.ofInt 32 v) else .error .valueOutOfRange

/-- The labels of a program with the byte addresses they denote (R194). -/
abbrev Labels := List (Name × Nat)

/-- An operand that must be a number (R217); a label in its place is refused (DESIGN CHOICE, log 44). -/
def numberOf (labels : Labels) : Operand → Except AsmError Int
  | .num v => .ok v
  | .name n => if (labels.lookup n).isSome then .error .labelNotAllowed else .error .undefinedName
  | .reg _ => .error .badOperands

/-- A branch target: a label stands for its location divided by 4, a number for itself (R217). A label whose quotient is
above 65535 does not fit the field by R81 and is refused, those at 0xFFFC0000 and above too, which a sign-extended field
would reach (R145): whether they are in reach depends on `IMM_EXT` (DESIGN CHOICE, log 40). -/
def targetOf (labels : Labels) : Operand → Except AsmError Int
  | .num v => .ok v
  | .name n =>
    match labels.lookup n with
    | some l => .ok ((l / 4 : Nat) : Int)
    | none => .error .undefinedName
  | .reg _ => .error .badOperands

/-- The operand of `LA`: a label stands for its location (R203, R217); a number, which R203 does not show, stands
for itself (DESIGN CHOICE, log 44). -/
def locationOf (labels : Labels) : Operand → Except AsmError Int
  | .num v => .ok v
  | .name n =>
    match labels.lookup n with
    | some l => .ok (l : Int)
    | none => .error .undefinedName
  | .reg _ => .error .badOperands

/-! ## Mnemonics -/

/-- The operand forms of the syntax lines (R194, R196-R212). -/
inductive Form where
  | none (out : Pseudo)
  | r (out : Reg → Pseudo)
  | rr (out : Reg → Reg → Instr)
  | rrPseudo (out : Reg → Reg → Pseudo)
  | rrr (out : Reg → Reg → Reg → Instr)
  | rrrPseudo (out : Reg → Reg → Reg → Pseudo)
  | rri (out : Reg → Reg → Imm → Instr)
  | rriNegated (out : Reg → Reg → Int → Pseudo)
  | lui (out : Reg → Imm → Instr)
  | branch (out : Reg → Reg → Imm → Instr)
  | branchPseudo (out : Reg → Reg → Imm → Pseudo)
  | target (out : Imm → Pseudo)
  | value (out : Reg → Word → Pseudo)
  | location (out : Reg → Word → Pseudo)
  | word

/-- Every mnemonic a program may contain, and `.WORD`, with its operand form and the number of words it becomes
(R2, R194, R215, R216). `ALUI` is none of them (R195). -/
def mnemonics : List (String × Form × Nat) :=
  [("ADDI", .rri .addi, 1), ("MLTI", .rri .mlti, 1), ("DIVI", .rri .divi, 1), ("ANDI", .rri .andi, 1),
   ("ORI", .rri .ori, 1), ("XORI", .rri .xori, 1), ("SULI", .rri .suli, 1), ("SSLI", .rri .ssli, 1),
   ("SURI", .rri .suri, 1), ("SSRI", .rri .ssri, 1), ("LW", .rri .lw, 1), ("LB", .rri .lb, 1),
   ("SW", .rri .sw, 1), ("SB", .rri .sb, 1), ("LUI", .lui .lui, 1),
   ("BEQ", .branch .beq, 1), ("BNE", .branch .bne, 1), ("BLT", .branch .blt, 1), ("BLE", .branch .ble, 1),
   ("JAL", .rr .jal, 1),
   ("SUB", .rrr .sub, 1), ("ADD", .rrr .add, 1), ("MLT", .rrr .mlt, 1), ("DIV", .rrr .div, 1), ("NOT", .rr .not, 1),
   ("AND", .rrr .and, 1), ("OR", .rrr .or, 1), ("XOR", .rrr .xor, 1), ("SUL", .rrr .sul, 1), ("SSL", .rrr .ssl, 1),
   ("SUR", .rrr .sur, 1), ("SSR", .rrr .ssr, 1), ("EQ", .rrr .eq, 1), ("NEQ", .rrr .neq, 1), ("LT", .rrr .lt, 1),
   ("LEQ", .rrr .leq, 1),
   ("SUBI", .rriNegated .subi, 1), ("GT", .rrrPseudo .gt, 1), ("GEQ", .rrrPseudo .geq, 1),
   ("NAND", .rrrPseudo .nand, 2), ("NOR", .rrrPseudo .nor, 2), ("NXOR", .rrrPseudo .nxor, 2),
   ("CPY", .rrPseudo .cpy, 1), ("LA", .location .la, 2), ("LV", .value .lv, 2), ("CLR", .r .clr, 1),
   ("BGT", .branchPseudo .bgt, 1), ("BGE", .branchPseudo .bge, 1), ("GOTO", .target .goto, 1), ("JMP", .r .jmp, 1),
   ("RET", .none .ret, 1), ("PUSH", .r .push, 2), ("POP", .r .pop, 2), (".WORD", .word, 1)]

/-- The operand form and word count of a mnemonic or `.WORD`, which are upper case (R190). R190 leaves open whether another
spelling is rejected: the model refuses every one, `add` and `.word` among them (DESIGN CHOICE, log 41). -/
def formOf (mn : List Char) : Except AsmError (Form × Nat) :=
  match mnemonics.find? fun e => e.1.toList == mn with
  | some e => .ok e.2
  | none => .error (if mn = ['A', 'L', 'U', 'I'] then .aluiWritten else .unknownMnemonic)

/-- The words of a pseudo-op (R196-R212). -/
def pseudoWords (m : OpMap) (p : Pseudo) : Except AsmError (List Word) :=
  match p.expand with
  | some is => .ok (is.map (encode m))
  | none => .error .immOutOfRange

/-- The words one line becomes (R194, R196-R212, R215, R217). -/
def lineWords (m : OpMap) (labels : Labels) (f : Form) (ops : List Operand) : Except AsmError (List Word) :=
  match f, ops with
  | .none p, [] => pseudoWords m p
  | .r p, [.reg a] => pseudoWords m (p a)
  | .rr i, [.reg a, .reg b] => .ok [encode m (i a b)]
  | .rrPseudo p, [.reg a, .reg b] => pseudoWords m (p a b)
  | .rrr i, [.reg a, .reg b, .reg c] => .ok [encode m (i a b c)]
  | .rrrPseudo p, [.reg a, .reg b, .reg c] => pseudoWords m (p a b c)
  | .rri i, [.reg a, .reg b, o] => do .ok [encode m (i a b (← immField (← numberOf labels o)))]
  | .rriNegated p, [.reg a, .reg b, o] => do pseudoWords m (p a b (← numberOf labels o))
  | .lui i, [.reg a, o] => do .ok [encode m (i a (← luiField (← numberOf labels o)))]
  | .branch i, [.reg a, .reg b, o] => do .ok [encode m (i a b (← immField (← targetOf labels o)))]
  | .branchPseudo p, [.reg a, .reg b, o] => do pseudoWords m (p a b (← immField (← targetOf labels o)))
  | .target p, [o] => do pseudoWords m (p (← immField (← targetOf labels o)))
  | .value p, [.reg a, o] => do pseudoWords m (p a (← wordValue (← numberOf labels o)))
  | .location p, [.reg a, o] => do pseudoWords m (p a (← wordValue (← locationOf labels o)))
  | .word, [o] => do .ok [← wordValue (← numberOf labels o)]
  | _, _ => .error .badOperands

/-! ## Locations (R213-R216) -/

/-- A line at its location, its constants replaced by their values. -/
structure Placed where
  location : Nat
  text : List Char
  form : Form
  operands : List Operand

/-- A `.NAME` constant stands for its value wherever a number may (R213). -/
def Operand.withConstants (consts : List (Name × Int)) : Operand → Operand
  | .name n =>
    match consts.lookup n with
    | some v => .num v
    | none => .name n
  | o => o

/-- Walk the lines with the location counter (R216): a label takes the current location (R194), `.NAME` defines a
constant and emits nothing (R213), `.ORIG` sets the counter (R214), every other line is placed and moves it on by four
bytes a word. A label on the line of a directive, or alone on its line, takes the counter's value before the line: before
`.ORIG` moves it, and the address of the word for `.WORD` (DESIGN CHOICE, log 42).
The two directives are known in upper case alone (DESIGN CHOICE, log 41). -/
def place (loc : Nat) (consts : List (Name × Int)) (labels : Labels) :
    List Line → Except AsmError (List Placed × Labels)
  | [] => .ok ([], labels)
  | line :: rest =>
    let labelled : Except AsmError Labels :=
      match line.label with
      | none => .ok labels
      | some n =>
        if (labels.lookup n).isSome || (consts.lookup n).isSome then .error .duplicateName else .ok ((n, loc) :: labels)
    match labelled with
    | .error e => .error e
    | .ok labels =>
      match line.op with
      | none => place loc consts labels rest
      | some (mn, ops) =>
        let ops := ops.map (Operand.withConstants consts)
        if mn = ['.', 'N', 'A', 'M', 'E'] then
          match ops with
          | [.name n, .num v] =>
            if (labels.lookup n).isSome then .error .duplicateName else place loc ((n, v) :: consts) labels rest
          | [.num _, .num _] => .error .duplicateName
          | _ => .error .badOperands
        else if mn = ['.', 'O', 'R', 'I', 'G'] then
          match ops with
          | [.num v] =>
            if v < 0 ∨ 2 ^ 32 ≤ v then .error .locationOutOfRange
            else if v.toNat % 4 ≠ 0 then .error .origMisaligned
            else place v.toNat consts labels rest
          | _ => .error .badOperands
        else
          match formOf mn with
          | .error e => .error e
          | .ok (form, count) =>
            if 2 ^ 32 < loc + 4 * count then .error .locationOutOfRange
            else
              match place (loc + 4 * count) consts labels rest with
              | .error e => .error e
              | .ok (placed, all) => .ok (⟨loc, line.text, form, ops⟩ :: placed, all)

/-- One assembled word: its location, the input instruction, the word (R219). -/
structure Emitted where
  location : Nat
  text : List Char
  word : Word
  deriving DecidableEq, Repr

/-- The words of a line at consecutive locations (R216). -/
def emitFrom (location : Nat) (text : List Char) : List Word → List Emitted
  | [] => []
  | w :: ws => ⟨location, text, w⟩ :: emitFrom (location + 4) text ws

/-- The words of all placed lines. -/
def emitAll (m : OpMap) (labels : Labels) : List Placed → Except AsmError (List Emitted)
  | [] => .ok []
  | p :: rest => do
    let ws ← lineWords m labels p.form p.operands
    let more ← emitAll m labels rest
    .ok (emitFrom p.location p.text ws ++ more)

/-- Assemble parsed lines, the location counter starting at 0 (R216); two words at one location are refused. -/
def assembleLines (m : OpMap) (lines : List Line) : Except AsmError (List Emitted) := do
  let (placed, labels) ← place 0 [] [] lines
  let out ← emitAll m labels placed
  if (out.map Emitted.location).Nodup then .ok out else .error .overlappingWords

/-- The image that is loaded: (word index, word) pairs, index = location / 4 (R219, R220). -/
def imageOf (out : List Emitted) : List (Nat × Word) := out.map fun e => (e.location / 4, e.word)

/-! ## Output lines (R219) -/

/-- `n` as `width` hexadecimal digits, most significant first. -/
def hexDigits (digits : String) : Nat → Nat → List Char
  | 0, _ => []
  | width + 1, n => hexDigits digits width (n / 16) ++ [digits.toList.getD (n % 16) '?']

/-- The two lines of one assembled word (R219): the comment with the location, then index and word. The source shows a
lower-case location; the word is written in capitals; a `.WORD` line is commented with the directive's own text, as an
instruction is, which N27 leaves open (DESIGN CHOICE, log 36). -/
def outputLines (e : Emitted) : List (List Char) :=
  ["-- @ 0x".toList ++ hexDigits "0123456789abcdef" 8 e.location ++ " : ".toList ++ e.text,
   hexDigits "0123456789abcdef" 8 (e.location / 4) ++ " : ".toList ++ hexDigits "0123456789ABCDEF" 8 e.word.toNat]

end Sys2Proof.Asm
end

