-- ==== Sys2Proof/Machine/AsmText.lean ====
section
/-! DEFINITION. The text of an assembly program (44_assembler_pseudo_ops.md R190-R194): comments, labels, registers,
numbers, operands separated by commas; and the assembler's command line (R218). Decisions: logs 26, 39, 41, 42, 44. -/

namespace Sys2Proof.Asm

/-- Blanks are spaces and tabs. -/
def isBlank (c : Char) : Bool := c == ' ' || c == '\t'

/-- Drop the blanks around a text. -/
def trim (cs : List Char) : List Char := ((cs.dropWhile isBlank).reverse.dropWhile isBlank).reverse

/-- Cut a text at every separator. -/
def splitAt (sep : Char) : List Char → List (List Char)
  | [] => [[]]
  | c :: cs =>
    match splitAt sep cs with
    | [] => [[]]
    | piece :: rest => if c = sep then [] :: piece :: rest else (c :: piece) :: rest

/-- A comment runs from `!` to the end of the line (R193). -/
def withoutComment (cs : List Char) : List Char := cs.takeWhile (· != '!')

/-- The value of a digit, letters in either case. -/
def digitValue (c : Char) : Option Nat :=
  if '0' ≤ c ∧ c ≤ '9' then some (c.toNat - '0'.toNat)
  else if 'a' ≤ c ∧ c ≤ 'f' then some (c.toNat - 'a'.toNat + 10)
  else if 'A' ≤ c ∧ c ≤ 'F' then some (c.toNat - 'A'.toNat + 10)
  else none

/-- The number of a non-empty run of digits of a base, read after the digits already in `acc`. -/
def digitsValue (base : Nat) (acc : Nat) : List Char → Option Nat
  | [] => some acc
  | c :: cs =>
    match digitValue c with
    | some d => if d < base then digitsValue base (acc * base + d) cs else none
    | none => none

/-- A number without a sign: `0x`, `0b` or decimal (R191); `0X` and `0B` are refused (DESIGN CHOICE, log 44). -/
def unsignedNumber : List Char → Option Nat
  | [] => none
  | '0' :: 'x' :: c :: cs => digitsValue 16 0 (c :: cs)
  | '0' :: 'b' :: c :: cs => digitsValue 2 0 (c :: cs)
  | c :: cs => digitsValue 10 0 (c :: cs)

/-- A number, a leading `-` negating it (R191, D27), in any base; a `+` or a blank after the `-` is refused (DESIGN CHOICE,
log 44). -/
def number : List Char → Option Int
  | '-' :: cs => (unsignedNumber cs).map fun n => -(n : Int)
  | cs => (unsignedNumber cs).map fun n => (n : Int)

/-- A label or constant name: a lower-case letter, then lower-case letters, digits or `_` (R190). -/
def isName : List Char → Bool
  | [] => false
  | c :: cs => c.isLower && cs.all fun d => d.isLower || d.isDigit || d == '_'

/-- One operand: `$name` is a register (R192), a digit or `-` begins a number (R191), anything else is a name (R190). -/
def operand : List Char → Except AsmError Operand
  | [] => .error .badOperands
  | '$' :: cs =>
    match regOfName cs with
    | some r => .ok (.reg r)
    | none => .error .badRegister
  | c :: cs =>
    if c = '-' ∨ c.isDigit then
      match number (c :: cs) with
      | some v => .ok (.num v)
      | none => .error .badNumber
    else if isName (c :: cs) then .ok (.name (c :: cs))
    else .error .badLabel

/-- The operand texts after a mnemonic: separated by commas (R194); for `.NAME`, whose syntax line shows no comma (R213),
by blanks, any run of spaces and tabs (DESIGN CHOICE, log 26; N34). -/
def operandTexts (mn : List Char) (cs : List Char) : List (List Char) :=
  if trim cs = [] then []
  else if mn = ['.', 'N', 'A', 'M', 'E'] then (splitAt ' ' (cs.map fun c => if isBlank c then ' ' else c)).filter (· != [])
  else (splitAt ',' cs).map trim

/-- A line's label and the text after it: a label is written `name:` (R194, D27), blanks around the name being dropped and
the first `:` of a line ending it (DESIGN CHOICE, log 44). -/
def splitLabel (cs : List Char) : Option (List Char) × List Char :=
  if ':' ∈ cs then (some (trim (cs.takeWhile (· != ':'))), (cs.dropWhile (· != ':')).drop 1) else (none, cs)

/-- Parse one source line (R190-R194). A blank line, and a line that holds a label alone, are read as lines with no
instruction (DESIGN CHOICE, logs 42, 44). -/
def parseLine (src : List Char) : Except AsmError Line := do
  let (label, rest) := splitLabel (withoutComment src)
  let text := trim rest
  if (label.map isName).getD true = false then .error .badLabel
  else
    let mn := text.takeWhile fun c => !isBlank c
    if mn = [] then .ok ⟨text, label, none⟩
    else
      let ops ← (operandTexts mn (text.drop mn.length)).mapM operand
      .ok ⟨text, label, some (mn, ops)⟩

/-- Assemble source lines under an opcode map (R190-R220). -/
def assemble (m : OpMap) (src : List (List Char)) : Except AsmError (List Emitted) := do
  assembleLines m (← src.mapM parseLine)

/-! ## The command line (R218) -/

/-- `n32-assemble.py <filename> [-o|--output <filename>] [-v|--verbose]` -/
structure Command where
  input : List Char
  output : Option (List Char)
  verbose : Bool
  deriving DecidableEq, Repr

/-- Read the arguments that follow the program's name; `input` is the file name read so far. The syntax line of R218 fixes
no order: options may stand before or after the file name and may be repeated, the last `-o` counting, and the word after
`-o` is a file name whatever it begins with (DESIGN CHOICE, log 39). -/
def parseArgs : List String → Option String → Option String → Bool → Option Command
  | [], input, output, verbose => input.map fun f => ⟨f.toList, output.map String.toList, verbose⟩
  | "-o" :: f :: rest, input, _, verbose => parseArgs rest input (some f) verbose
  | "--output" :: f :: rest, input, _, verbose => parseArgs rest input (some f) verbose
  | "-v" :: rest, input, output, _ => parseArgs rest input output true
  | "--verbose" :: rest, input, output, _ => parseArgs rest input output true
  | f :: rest, none, output, verbose =>
    if f.toList.head? = some '-' then none else parseArgs rest (some f) output verbose
  | _ :: _, some _, _, _ => none

/-- The file name without its extension: what stands after the last `.` of its last part. -/
def stripExtension (name : List Char) : List Char :=
  let ext := name.reverse.takeWhile fun c => c != '.' && c != '/'
  match name.reverse.drop ext.length with
  | '.' :: stem => stem.reverse
  | _ => name

/-- The output file: the one named, or the input's with its extension replaced by `.mif` (R218). -/
def Command.outputFile (c : Command) : List Char :=
  c.output.getD (stripExtension c.input ++ ['.', 'm', 'i', 'f'])

end Sys2Proof.Asm
end

