-- ==== Sys2Proof/Machine/Loader.lean ====
section
/-! DEFINITION. The launch state and the loading of an image (10_state.md R35, 44_assembler_pseudo_ops.md R220,
70_reset_and_hazards.md R251): what the host does before the first fetch. -/

namespace Sys2Proof.Machine

/-- The state after reset under any configuration and any contents of `x[1..31]`, which the spec leaves unspecified
(R35, R251). `State.reset` is one of these. -/
def State.launch (c : Config) (regs : Vector Word 31) : State where
  regs := regs
  pc := c.resetPc
  mem := []
  written := []
  cfg := c

/-- Load one word of an image: the four bytes at `4 * index`, big-endian (R220); no image word lies outside memory. -/
def State.loadWord (s : State) (index : Nat) (w : Word) : Option State :=
  if s.cfg.memSize ≤ 4 * index + 3 then none
  else some { s with mem := s.mem.writeWord (4 * index) w }

/-- Load an image of (word index, word) pairs (R220, R251). No word is marked as written by a store. -/
def State.load (s : State) : List (Nat × Word) → Option State
  | [] => some s
  | (index, w) :: rest => (s.loadWord index w).bind fun t => t.load rest

end Sys2Proof.Machine
end

