-- ==== Sys2Proof/Machine/OpcodeTable.lean ====
section
/-! DEFINITION. The rows of spec/opcode_table.json as they stand there (30_encoding.md R87): mnemonic, match and mask under
the spec's opcode map. The decoder does not use them; they are a second statement of the encoding to hold it against. -/

namespace Sys2Proof

/-- One row: a word `w` is of this row when `w & mask = value` (R86, R87). -/
structure TableRow where
  mnemonic : String
  value : Word
  mask : Word
  deriving DecidableEq, Repr

/-- The escape `ALUI`, which chooses the format and is no instruction (R87). -/
def escapeRow : TableRow := ⟨"ALUI", 0x00000000, 0xF8000000⟩

/-- The 36 instruction rows, in the table's order (R87). -/
def instructionRows : List TableRow :=
  [⟨"ADDI", 0x08000000, 0xF8000000⟩,
   ⟨"MLTI", 0x10000000, 0xF8000000⟩,
   ⟨"DIVI", 0x18000000, 0xF8000000⟩,
   ⟨"ANDI", 0x28000000, 0xF8000000⟩,
   ⟨"ORI", 0x30000000, 0xF8000000⟩,
   ⟨"XORI", 0x38000000, 0xF8000000⟩,
   ⟨"SULI", 0x40000000, 0xF8000000⟩,
   ⟨"SSLI", 0x48000000, 0xF8000000⟩,
   ⟨"SURI", 0x50000000, 0xF8000000⟩,
   ⟨"SSRI", 0x58000000, 0xF8000000⟩,
   ⟨"LW", 0x80000000, 0xF8000000⟩,
   ⟨"LB", 0x88000000, 0xF8000000⟩,
   ⟨"SW", 0x90000000, 0xF8000000⟩,
   ⟨"SB", 0x98000000, 0xF8000000⟩,
   ⟨"LUI", 0xA0000000, 0xFFC00000⟩,
   ⟨"BEQ", 0xC0000000, 0xF8000000⟩,
   ⟨"BNE", 0xC8000000, 0xF8000000⟩,
   ⟨"BLT", 0xD0000000, 0xF8000000⟩,
   ⟨"BLE", 0xD8000000, 0xF8000000⟩,
   ⟨"JAL", 0xE0000000, 0xF801FFFF⟩,
   ⟨"SUB", 0x00000000, 0xF8000FFF⟩,
   ⟨"ADD", 0x00000001, 0xF8000FFF⟩,
   ⟨"MLT", 0x00000002, 0xF8000FFF⟩,
   ⟨"DIV", 0x00000003, 0xF8000FFF⟩,
   ⟨"NOT", 0x00000004, 0xF83E0FFF⟩,
   ⟨"AND", 0x00000005, 0xF8000FFF⟩,
   ⟨"OR", 0x00000006, 0xF8000FFF⟩,
   ⟨"XOR", 0x00000007, 0xF8000FFF⟩,
   ⟨"SUL", 0x00000008, 0xF8000FFF⟩,
   ⟨"SSL", 0x00000009, 0xF8000FFF⟩,
   ⟨"SUR", 0x0000000A, 0xF8000FFF⟩,
   ⟨"SSR", 0x0000000B, 0xF8000FFF⟩,
   ⟨"EQ", 0x00000010, 0xF8000FFF⟩,
   ⟨"NEQ", 0x00000011, 0xF8000FFF⟩,
   ⟨"LT", 0x00000012, 0xF8000FFF⟩,
   ⟨"LEQ", 0x00000013, 0xF8000FFF⟩]

/-- The mnemonic of an instruction, as the table spells it. -/
def Instr.mnemonic (i : Instr) : String :=
  match i with
  | .alui _ _ _ _ => "ALUI"
  | .addi _ _ _ => "ADDI"
  | .mlti _ _ _ => "MLTI"
  | .divi _ _ _ => "DIVI"
  | .andi _ _ _ => "ANDI"
  | .ori _ _ _ => "ORI"
  | .xori _ _ _ => "XORI"
  | .suli _ _ _ => "SULI"
  | .ssli _ _ _ => "SSLI"
  | .suri _ _ _ => "SURI"
  | .ssri _ _ _ => "SSRI"
  | .lw _ _ _ => "LW"
  | .lb _ _ _ => "LB"
  | .sw _ _ _ => "SW"
  | .sb _ _ _ => "SB"
  | .lui _ _ => "LUI"
  | .beq _ _ _ => "BEQ"
  | .bne _ _ _ => "BNE"
  | .blt _ _ _ => "BLT"
  | .ble _ _ _ => "BLE"
  | .jal _ _ => "JAL"
  | .sub _ _ _ => "SUB"
  | .add _ _ _ => "ADD"
  | .mlt _ _ _ => "MLT"
  | .div _ _ _ => "DIV"
  | .not _ _ => "NOT"
  | .and _ _ _ => "AND"
  | .or _ _ _ => "OR"
  | .xor _ _ _ => "XOR"
  | .sul _ _ _ => "SUL"
  | .ssl _ _ _ => "SSL"
  | .sur _ _ _ => "SUR"
  | .ssr _ _ _ => "SSR"
  | .eq _ _ _ => "EQ"
  | .neq _ _ _ => "NEQ"
  | .lt _ _ _ => "LT"
  | .leq _ _ _ => "LEQ"

end Sys2Proof
end

