-- ==== Sys2Proof/Machine/Run.lean ====
section
/-! DEFINITION. Runs (70_reset_and_hazards.md R260): steps with the stopped mark, the condition that ends a run (R256),
and the run from the reset state with an image loaded (R251), which iterates steps until the condition holds or a model
stop is reached. -/

namespace Sys2Proof.Machine

/-! ## Steps with the stopped mark -/

/-- Why a run stopped. -/
inductive Stop where
  | fault (f : Fault)
  | refused (r : Refusal)
  deriving DecidableEq, Repr

/-- A state with the stopped mark of R8 and R36. -/
structure Marked where
  state : State
  stopped : Option Stop
  deriving DecidableEq, Repr

/-- `step` as R260 writes it: a stopped machine stays as it is, and a raise sets the mark and nothing else. -/
def Marked.step (m : Marked) : Marked :=
  match m.stopped with
  | some _ => m
  | none =>
    match Machine.step m.state with
    | .next t => { m with state := t }
    | .fault f => { m with stopped := some (.fault f) }
    | .refused r => { m with stopped := some (.refused r) }

/-- `k` steps, whether or not the run has ended before. -/
def Marked.run : Nat → Marked → Marked
  | 0, m => m
  | k + 1, m => Marked.run k m.step

/-- `k` steps from a state that is not stopped. -/
def runFrom (k : Nat) (s : State) : Marked := Marked.run k ⟨s, none⟩

/-! ## How a run ends (R256) -/

/-- The `HALT` condition after `k` steps (R256; log 22). Under *self-branch* the next step leaves the whole state
unchanged. -/
def haltsAt (h : Halt) (k : Nat) (s : State) : Bool :=
  match h with
  | .selfBranch =>
    match Machine.step s with
    | .next t => t == s
    | .fault _ => false
    | .refused _ => false
  | .stepBound n => k == n
  | .pcSentinel a => s.pc == a

/-- The run from `s` is complete after `k` steps, in the final state `t` (R256): no stop, the condition holds, and it
held at no earlier state of the run. -/
def CompletesAt (k : Nat) (s t : State) : Prop :=
  runFrom k s = ⟨t, none⟩ ∧ haltsAt s.cfg.halt k t = true ∧
    ∀ j, j < k → haltsAt s.cfg.halt j (runFrom j s).state = false

/-- How far a run has come. -/
inductive RunEnd where
  /-- the `HALT` condition held for the first time after `steps` steps, in the state `final` -/
  | complete (steps : Nat) (final : State)
  /-- a raise stopped the model after `steps` whole steps; the stopped run is never complete (R231) -/
  | stopped (steps : Nat) (state : State) (why : Stop)
  /-- neither has happened within the steps that were allowed -/
  | unfinished (state : State)
  deriving DecidableEq, Repr

/-- `run` as R260 writes it, for at most `fuel` more steps after the `k` taken: iterate steps until the `HALT` condition
holds or a raise stops the model. -/
def runUntilEnd : Nat → Nat → State → RunEnd
  | fuel, k, s =>
    if haltsAt s.cfg.halt k s then .complete k s
    else
      match fuel with
      | 0 => .unfinished s
      | fuel + 1 =>
        match Machine.step s with
        | .next t => runUntilEnd fuel (k + 1) t
        | .fault f => .stopped k s (.fault f)
        | .refused r => .stopped k s (.refused r)

/-- The run from the reset state of R251: the launch state of a configuration with any contents of the registers, and an
image loaded (R220); none where the image does not fit in memory. -/
def runImage (c : Config) (regs : Vector Word 31) (image : List (Nat × Word)) (fuel : Nat) : Option RunEnd :=
  ((State.launch c regs).load image).map (runUntilEnd fuel 0)

end Sys2Proof.Machine
end

