-- ==== Sys2Proof/Safety.lean ====
section
/-! DEFINITION. The terms that claims use: what a run without a model stop is, the invariant of the state, and what one
instruction writes and leaves unchanged. -/

namespace Sys2Proof.Machine

/-! ## Safe runs -/

/-- A safe run: no model stop within any number of steps. -/
def Safe (s : State) : Prop := ∀ k, (runFrom k s).stopped = none

/-! ## The invariant -/

/-- What holds of the state at reset and is kept by every step: an admissible configuration (R4), memory in canonical
form and inside `MEM_SIZE` (R33, R44), the written marks a rising list of addresses of words of the memory (R56). -/
structure State.Inv (s : State) : Prop where
  cfg : s.cfg.Wf
  mem : s.mem.wf
  inside : ∀ c ∈ s.mem, c.1 < s.cfg.memSize
  rising : s.written.Pairwise (· < ·)
  words : ∀ a ∈ s.written, a % 4 = 0 ∧ a < s.cfg.memSize

/-! ## What an instruction writes, and its frame -/

/-- Every byte of memory reads as before and no word is marked. -/
structure SameMemory (s t : State) : Prop where
  bytes : ∀ a, t.mem.read a = s.mem.read a
  written : t.written = s.written

/-- From `s` to `t` the value `v` was written to register `d`, register 0 staying 0, and every other register, all of
memory and the configuration are as before; the pc is `pc`. -/
structure WroteReg (s : State) (d : Reg) (v : Word) (pc : Word) (t : State) : Prop where
  regs : ∀ r, t.readReg r = if r = 0 then 0 else if r = d then v else s.readReg r
  pc : t.pc = pc
  memory : SameMemory s t
  cfg : t.cfg = s.cfg

/-- From `s` to `t` only the pc changed, to `pc`. -/
structure Jumped (s : State) (pc : Word) (t : State) : Prop where
  regs : ∀ r, t.readReg r = s.readReg r
  pc : t.pc = pc
  memory : SameMemory s t
  cfg : t.cfg = s.cfg

/-- From `s` to `t` the bytes `bs` were stored from address `a` on by a store in the word at `w`, every other byte of
memory, every register and the configuration are as before, the pc is the next instruction's, and of the written marks
exactly that word's was added. -/
structure Stored (s : State) (a w : Nat) (bs : List Byte) (t : State) : Prop where
  inside : ∀ k, k < bs.length → t.mem.read (a + k) = bs[k]?
  outside : ∀ b, b < a ∨ a + bs.length ≤ b → t.mem.read b = s.mem.read b
  marks : ∀ b, b ∈ t.written ↔ b = w ∨ b ∈ s.written
  regs : ∀ r, t.readReg r = s.readReg r
  pc : t.pc = s.pc + 4
  cfg : t.cfg = s.cfg

/-- The instruction that the next step of `s` executes stores to the byte at address `a` (R122, R123): one of the four
bytes from `SW`'s effective address on, or the byte at `SB`'s (R53). -/
def State.storesTo (s : State) (a : Nat) : Bool :=
  match s.fetch with
  | .error _ => false
  | .ok w =>
    match decode s.cfg.opMap w with
    | .ok (.sw _ b imm) =>
      let ea := eaWord (s.readReg b) (immValue s.cfg.immExt.sw imm)
      decide (ea.toNat ≤ a ∧ a < ea.toNat + 4)
    | .ok (.sb _ b imm) => decide (a = (eaByte (s.readReg b) (immValue s.cfg.immExt.sb imm)).toNat)
    | _ => false

/-! ## Readings of the rules in Lean's own bit-vector operations, to hold the meanings against -/

/-- The 32-bit value of an immediate: sign- or zero-extended (R7, R79). -/
def widened (e : Ext) (imm : Imm) : Word :=
  match e with
  | .sign => imm.signExtend 32
  | .zero => imm.setWidth 32

/-- The result of a shift (R114, R115), the signed left shift read as the unsigned one (D10). -/
def shifted (op : ShiftOp) (a amt : Word) : Word :=
  if amt.toNat ≤ 31 then
    match op with
    | .sul => a <<< amt.toNat
    | .ssl => a <<< amt.toNat
    | .sur => a >>> amt.toNat
    | .ssr => a.sshiftRight amt.toNat
  else Config.shiftOor op a amt

/-- The signed quotient rounded toward zero with its two open corners (R113, D8). -/
def truncatedQuotient (a b : Word) : Word :=
  if b = 0 ∨ (a = 0x80000000 ∧ b = 0xFFFFFFFF) then Config.divCorner a b else BitVec.ofInt 32 (a.toInt.tdiv b.toInt)

/-- The signed quotient rounded toward minus infinity with the same two open corners (R113; log 6). -/
def flooredQuotient (a b : Word) : Word :=
  if b = 0 ∨ (a = 0x80000000 ∧ b = 0xFFFFFFFF) then Config.divCorner a b else BitVec.ofInt 32 (a.toInt.fdiv b.toInt)

/-- A word of the non-immediate format as R72 and 43_alu_register.md write it: `ARG1<<22 | ARG2<<17 | ARGD<<12 | OP2`. -/
def shiftedFields (arg1 arg2 argD : Reg) (op2 : Opcode) : Word :=
  (arg1.setWidth 32 <<< 22) ||| (arg2.setWidth 32 <<< 17) ||| (argD.setWidth 32 <<< 12) ||| op2.setWidth 32

end Sys2Proof.Machine

namespace Sys2Proof

/-- The five instructions that can set the pc to anything but the next address (R146). -/
def Instr.isTransfer (i : Instr) : Bool :=
  match i with
  | .beq _ _ _ | .bne _ _ _ | .blt _ _ _ | .ble _ _ _ | .jal _ _ => true
  | _ => false

/-- The register an instruction writes, if it writes one: `ARGD`, but for `JAL` the link register in `ARG1` (R78, R144). -/
def Instr.destination (i : Instr) : Option Reg :=
  match i with
  | .sw _ _ _ | .sb _ _ _ | .beq _ _ _ | .bne _ _ _ | .blt _ _ _ | .ble _ _ _ => none
  | .jal arg1 _ => some arg1
  | .alui _ _ argD _ | .lui argD _ | .not argD _ => some argD
  | .addi argD _ _ | .mlti argD _ _ | .divi argD _ _ | .andi argD _ _ | .ori argD _ _ | .xori argD _ _ => some argD
  | .suli argD _ _ | .ssli argD _ _ | .suri argD _ _ | .ssri argD _ _ | .lw argD _ _ | .lb argD _ _ => some argD
  | .sub argD _ _ | .add argD _ _ | .mlt argD _ _ | .div argD _ _ | .and argD _ _ | .or argD _ _ => some argD
  | .xor argD _ _ | .sul argD _ _ | .ssl argD _ _ | .sur argD _ _ | .ssr argD _ _ => some argD
  | .eq argD _ _ | .neq argD _ _ | .lt argD _ _ | .leq argD _ _ => some argD

/-- The two stores (R122, R123). -/
def Instr.isStore (i : Instr) : Bool :=
  match i with
  | .sw _ _ _ | .sb _ _ _ => true
  | _ => false

end Sys2Proof
end

