-- ==== Sys2Proof/Certificates/Slice0/Obligations.lean ====
section
/-! DEFINITION. The statements for the provers. Each docstring names the rule of spec/ it formalises, or says that it
rests on a decision or on a choice of the model's and names the log entry. -/

open Sys2Proof Sys2Proof.Machine

/-! ## Encoding -/

/-- R72 and R73: the two formats put every field at the bits the rules list and the fields read back from those bits;
the non-immediate format has `OP1` 00000 and `EMPTY` 0000000. -/
def Obligations.FormatsPlaceFields : Prop :=
  ∀ (op1 op2 : Opcode) (a b d : Reg) (imm : Imm) (w : Word),
    (∀ k, k < 5 →
      (nonImmediateWord a b d op2).getLsbD (27 + k) = false ∧ (nonImmediateWord a b d op2).getLsbD (22 + k) = a.getLsbD k ∧
      (nonImmediateWord a b d op2).getLsbD (17 + k) = b.getLsbD k ∧
      (nonImmediateWord a b d op2).getLsbD (12 + k) = d.getLsbD k ∧ (nonImmediateWord a b d op2).getLsbD k = op2.getLsbD k ∧
      (immediateWord op1 a d imm).getLsbD (27 + k) = op1.getLsbD k ∧
      (immediateWord op1 a d imm).getLsbD (22 + k) = a.getLsbD k ∧ (immediateWord op1 a d imm).getLsbD (17 + k) = d.getLsbD k ∧
      (fieldOp1 w).getLsbD k = w.getLsbD (27 + k) ∧ (fieldArg1 w).getLsbD k = w.getLsbD (22 + k) ∧
      (fieldMid w).getLsbD k = w.getLsbD (17 + k) ∧ (fieldArgD w).getLsbD k = w.getLsbD (12 + k) ∧
      (fieldOp2 w).getLsbD k = w.getLsbD k) ∧
    (∀ k, k < 7 → (nonImmediateWord a b d op2).getLsbD (5 + k) = false ∧ (fieldEmpty w).getLsbD k = w.getLsbD (5 + k)) ∧
    (∀ k, k < 17 → (immediateWord op1 a d imm).getLsbD k = imm.getLsbD k ∧ (fieldImm w).getLsbD k = w.getLsbD k)

/-- R70-R78, R82, R83, R86 with the opcode map of any configuration (log 1) and the field placements D2-D4 (logs 2, 3):
decoding the four bytes of a well-formed instruction gives the instruction it names, which for every constructor but the
escape `ALUI` is the instruction itself, and for `ALUI` the instruction that `OP2` selects (R160). -/
def Obligations.DecodeOfEncodeIsSelected : Prop :=
  ∀ m : OpMap, m.Wf → ∀ i : Instr, i.wf m = true →
    decodeBytes m (encodeBytes m i) = .ok (i.selected m) ∧
      ((∀ a b d o, i ≠ .alui a b d o) → i.selected m = i) ∧
      ∀ a b d op, i = .alui a b d (m.op2 op) → i.selected m = op.instr d a b

/-- R86: a word that decodes is the encoding of what it decodes to, which is well formed and is never the escape. -/
def Obligations.EncodeOfDecodeIsWord : Prop :=
  ∀ (m : OpMap) (w : Word) (i : Instr), decode m w = .ok i →
    encode m i = w ∧ i.wf m = true ∧ ∀ a b d o, i ≠ .alui a b d o

/-- R86 and R87: under the spec's opcode map the decoder gives an instruction exactly for the words that match a row of
spec/opcode_table.json other than `ALUI`, and its mnemonic is that row's. -/
def Obligations.DecoderAgreesWithOpcodeTable : Prop :=
  ∀ w : Word, (decode OpMap.decided w).toOption.map Instr.mnemonic =
    (instructionRows.find? fun r => w &&& r.mask == r.value).map TableRow.mnemonic

/-- R86: some words written out in spec/95_test_vectors.md, V13 and for `LUI` V9, decode as written there, one of each
family. Concrete opcode values are decision D1 (log 1), the three refusals decisions D4 and D5 (log 3). -/
def Obligations.WrittenOutWordsDecode : Prop :=
  decodeTableWord 32 0x080A0005 = some (.addi 5 0 5) ∧
  decodeTableWord 32 0x0044D000 = some (.sub 13 1 2) ∧
  decodeTableWord 32 0x01805004 = some (.not 5 6) ∧
  decodeTableWord 32 0x870C0001 = some (.lw 6 28 1) ∧
  decodeTableWord 32 0x9943FFFF = some (.sb 5 1 0x1FFFF) ∧
  decodeTableWord 32 0xA00BBD5B = some (.lui 5 0x1BD5B) ∧
  decodeTableWord 32 0xD0440040 = some (.blt 1 2 0x40) ∧
  decodeTableWord 32 0xE64A0000 = some (.jal 25 5) ∧
  decodeTableWord 32 0x20000000 = none ∧
  decodeTableWord 32 0x014C7021 = none ∧
  decodeTableWord 32 0x01825004 = none

/-- R76 and R77: "In every assignment consistent with rule R75 exactly 21 of the 32 `OP1` values are assigned and 11 are
unassigned"; of the `OP2` values exactly 16 are assigned, none of them in row `11`. -/
def Obligations.EveryOpcodeMapAssignsTwentyOne : Prop :=
  ∀ m : OpMap, m.Wf →
    (List.range 32).countP (fun n => (m.primaryOf (BitVec.ofNat 5 n)).isSome) = 21 ∧
    (List.range 32).countP (fun n => (m.secondaryOf (BitVec.ofNat 5 n)).isSome) = 16 ∧
    ∀ c : Opcode, 24 ≤ c.toNat → m.secondaryOf c = none

/-- R82, R83 under decisions D4, D5 (log 3): a fetched word with an unassigned opcode, a non-zero `EMPTY` field or a
non-zero unused field stops the model as ReservedEncoding, and no instruction runs. -/
def Obligations.ReservedWordsStop : Prop :=
  ∀ (s : State) (w : Word), s.fetch = .ok w →
    (s.cfg.opMap.primaryOf (fieldOp1 w) = none → step s = .fault .reservedEncoding) ∧
    (fieldOp1 w = 0 → fieldEmpty w ≠ 0 → step s = .fault .reservedEncoding) ∧
    (fieldOp1 w = 0 → s.cfg.opMap.secondaryOf (fieldOp2 w) = none → step s = .fault .reservedEncoding) ∧
    (fieldOp1 w = 0 → fieldOp2 w = 0b00100 → fieldMid w ≠ 0 → step s = .fault .reservedEncoding) ∧
    (s.cfg.opMap.primaryOf (fieldOp1 w) = some .lui → fieldArg1 w ≠ 0 → step s = .fault .reservedEncoding) ∧
    (s.cfg.opMap.primaryOf (fieldOp1 w) = some .jal → fieldImm w ≠ 0 → step s = .fault .reservedEncoding)

/-! ## The step -/

/-- R260: fetch, decode, execute. A step at a state whose pc holds a word that decodes is the execution of that
instruction at that very state. -/
def Obligations.StepRunsDecodedInstruction : Prop :=
  ∀ (s : State) (w : Word) (i : Instr), s.fetch = .ok w → decode s.cfg.opMap w = .ok i → step s = exec i s

/-- R48, with the stop of R56 where the configuration has it (log 24) and the reading of unspecified bytes of log 20: the
fetch answers the big-endian word at an aligned pc inside memory. -/
def Obligations.FetchReadsBigEndianWord : Prop :=
  ∀ (s : State) (b0 b1 b2 b3 : Byte), s.pc.toNat % 4 = 0 → s.pc.toNat + 3 < s.cfg.memSize →
    (s.cfg.fetchStored = .stop → s.pc.toNat ∉ s.written) →
    s.mem.read s.pc.toNat = some b0 → s.mem.read (s.pc.toNat + 1) = some b1 →
    s.mem.read (s.pc.toNat + 2) = some b2 → s.mem.read (s.pc.toNat + 3) = some b3 →
    ∃ w, s.fetch = .ok w ∧ w.toNat = b0.toNat * 2 ^ 24 + b1.toNat * 2 ^ 16 + b2.toNat * 2 ^ 8 + b3.toNat

/-- R48 and R234 under decisions D14, D16, D25 (logs 13, 14, 24): the fetch stops, in this order, on a misaligned pc, a pc
outside memory, a stored-to word, and, which the model places last (logs 20, 34), a byte of unspecified contents. -/
def Obligations.FetchStopsInOrder : Prop :=
  ∀ s : State,
    (s.pc.toNat % 4 ≠ 0 → step s = .fault .misalignedFetch) ∧
    (s.pc.toNat % 4 = 0 → s.cfg.memSize ≤ s.pc.toNat + 3 → step s = .fault .accessOutOfRange) ∧
    (s.pc.toNat % 4 = 0 → s.pc.toNat + 3 < s.cfg.memSize → s.cfg.fetchStored = .stop → s.pc.toNat ∈ s.written →
      step s = .fault .fetchAfterStore) ∧
    (s.pc.toNat % 4 = 0 → s.pc.toNat + 3 < s.cfg.memSize → ¬ (s.cfg.fetchStored = .stop ∧ s.pc.toNat ∈ s.written) →
      (∃ k, k < 4 ∧ s.mem.read (s.pc.toNat + k) = none) → step s = .fault .uninitialisedRead)

/-- The model's interface (log 33): an instruction's word loaded by `State.withFetchWord` at an aligned pc inside memory
is what the next step runs, and the load changes no register, no pc, no configuration and no other byte. -/
def Obligations.LoadedFetchWordRuns : Prop :=
  ∀ (s : State) (i : Instr), s.cfg.opMap.Wf → i.wf s.cfg.opMap = true →
    s.pc.toNat % 4 = 0 → s.pc.toNat + 3 < s.cfg.memSize →
    let t := s.withFetchWord 32 (encode s.cfg.opMap i).toNat
    step t = exec (i.selected s.cfg.opMap) t ∧ t.regs = s.regs ∧ t.pc = s.pc ∧ t.cfg = s.cfg ∧
      ∀ a, a < s.pc.toNat ∨ s.pc.toNat + 4 ≤ a → t.mem.read a = s.mem.read a

/-! ## Register-register instructions -/

/-- R161, R162, R163: `SUB`, `ADD` and `MLT`, their words under every opcode map and their results modulo 2^32, the silent
wrapping being decision D11 (log 10). They
complete in every state, write their destination alone (register 0 staying 0) and move the pc on by 4. -/
def Obligations.SubAddMltWrapModulo : Prop :=
  ∀ (d a b : Reg) (s : State) (m : OpMap),
    (∃ t, exec (.sub d a b) s = .next t ∧ WroteReg s d (s.readReg a - s.readReg b) (s.pc + 4) t) ∧
    (∃ t, exec (.add d a b) s = .next t ∧ WroteReg s d (s.readReg a + s.readReg b) (s.pc + 4) t) ∧
    (∃ t, exec (.mlt d a b) s = .next t ∧ WroteReg s d (s.readReg a * s.readReg b) (s.pc + 4) t) ∧
    encode m (.sub d a b) = shiftedFields a b d 0b00000 ∧
    encode m (.add d a b) = shiftedFields a b d 0b00001 ∧
    encode m (.mlt d a b) = shiftedFields a b d 0b00010

/-- R165 to R168 and R112: `NOT`, `AND`, `OR` and `XOR`, their words under every opcode map and their results bit by
bit. That the word of `NOT` has zeros in `ARG2` is decision D4 (log 3). -/
def Obligations.LogicActsOnEachBit : Prop :=
  ∀ (d a b : Reg) (s : State) (m : OpMap),
    (∃ t v, exec (.not d a) s = .next t ∧ WroteReg s d v (s.pc + 4) t ∧
      ∀ k, k < 32 → v.getLsbD k = !(s.readReg a).getLsbD k) ∧
    (∃ t v, exec (.and d a b) s = .next t ∧ WroteReg s d v (s.pc + 4) t ∧
      ∀ k, k < 32 → v.getLsbD k = ((s.readReg a).getLsbD k && (s.readReg b).getLsbD k)) ∧
    (∃ t v, exec (.or d a b) s = .next t ∧ WroteReg s d v (s.pc + 4) t ∧
      ∀ k, k < 32 → v.getLsbD k = ((s.readReg a).getLsbD k || (s.readReg b).getLsbD k)) ∧
    (∃ t v, exec (.xor d a b) s = .next t ∧ WroteReg s d v (s.pc + 4) t ∧
      ∀ k, k < 32 → v.getLsbD k = ((s.readReg a).getLsbD k ^^ (s.readReg b).getLsbD k)) ∧
    encode m (.not d a) = shiftedFields a 0 d 0b00100 ∧
    encode m (.and d a b) = shiftedFields a b d 0b00101 ∧
    encode m (.or d a b) = shiftedFields a b d 0b00110 ∧
    encode m (.xor d a b) = shiftedFields a b d 0b00111

/-- R113 and R164 under decision D8 (logs 6, 7): `DIV` completes in every state and configuration; read signed it writes
the quotient rounded as the configuration says, read unsigned the floor, and in the open corners the free value
`DIV_CORNER`, of which nothing is said. -/
def Obligations.DivNeverTrapsAndTruncates : Prop :=
  ∀ (d a b : Reg) (s : State),
    ∃ t v, exec (.div d a b) s = .next t ∧ WroteReg s d v (s.pc + 4) t ∧
      (s.cfg.divSigned = true → s.cfg.divRound = .towardZero → v = truncatedQuotient (s.readReg a) (s.readReg b)) ∧
      (s.cfg.divSigned = true → s.cfg.divRound = .towardMinusInf → v = flooredQuotient (s.readReg a) (s.readReg b)) ∧
      (s.cfg.divSigned = false → s.readReg b ≠ 0 → v = s.readReg a / s.readReg b) ∧
      (s.readReg b = 0 → v = Config.divCorner (s.readReg a) 0)

/-- R113 under decision D8 (log 6): outside the corners the signed quotient rounded toward zero fits in 32 bits, and with
the remainder that R102 computes it gives the dividend back, the remainder smaller than the divisor and of the dividend's
sign. -/
def Obligations.TruncatedQuotientFits : Prop :=
  ∀ (c : Config) (a b : Word), c.divSigned = true → c.divRound = .towardZero →
    b ≠ 0 → ¬ (a = 0x80000000 ∧ b = 0xFFFFFFFF) →
    (div32 c a b).toInt = a.toInt.tdiv b.toInt ∧
    a.toInt = (div32 c a b).toInt * b.toInt + (sub32 a (mul32 (div32 c a b) b)).toInt ∧
    (sub32 a (mul32 (div32 c a b) b)).toInt.natAbs < b.toInt.natAbs ∧
    0 ≤ a.toInt * (sub32 a (mul32 (div32 c a b) b)).toInt

/-- R115 and R169 to R172 with R114 (operators: log 9): the register shifts complete in every state. Amounts 0..31 give
the shift of R114, for `SSL` the configuration's reading, which is decision D10's under the default (log 9); every other
amount gives the free value `SHIFT_OOR` under every reading (D9, log 8). -/
def Obligations.RegisterShiftsByWholeAmount : Prop :=
  ∀ (d a b : Reg) (s : State),
    (∃ t, exec (.sul d a b) s = .next t ∧ WroteReg s d (shifted .sul (s.readReg a) (s.readReg b)) (s.pc + 4) t) ∧
    (∃ t, exec (.sur d a b) s = .next t ∧ WroteReg s d (shifted .sur (s.readReg a) (s.readReg b)) (s.pc + 4) t) ∧
    (∃ t, exec (.ssr d a b) s = .next t ∧ WroteReg s d (shifted .ssr (s.readReg a) (s.readReg b)) (s.pc + 4) t) ∧
    ∃ t v, exec (.ssl d a b) s = .next t ∧ WroteReg s d v (s.pc + 4) t ∧
      (s.cfg.sshl = .asUnsigned → v = shifted .ssl (s.readReg a) (s.readReg b)) ∧
      ((s.readReg b).toNat ≤ 31 → v = sshl32 s.cfg (s.readReg a) (s.readReg b).toNat) ∧
      (31 < (s.readReg b).toNat → v = Config.shiftOor .ssl (s.readReg a) (s.readReg b))

/-- R107 and R114 (log 9): whatever reading of the signed left shift a configuration holds, it gives the unsigned shift
when bits 31 down to 31-n are all equal, and the result is then the signed number times 2^n. -/
def Obligations.SignedLeftShiftReadingsAgree : Prop :=
  ∀ (c : Config) (a : Word) (n : Nat), n ≤ 31 → (∀ k, 31 - n ≤ k → k ≤ 31 → a.getLsbD k = a.getLsbD 31) →
    sshl32 c a n = a <<< n ∧ (sshl32 c a n).toInt = a.toInt * 2 ^ n

/-- R109, R114, R171 and R172, the operators read as R114 presumes (log 9): `SSR` by an amount up to 31 is the division by
2^n rounded toward minus infinity, `SUR` the division of the unsigned number, and `SSRI` and `SURI` by an immediate up to
31 likewise, under either widening. -/
def Obligations.RightShiftsDivide : Prop :=
  ∀ (d a b : Reg) (imm : Imm) (s : State),
    ((s.readReg b).toNat ≤ 31 →
      (∃ t v, exec (.ssr d a b) s = .next t ∧ WroteReg s d v (s.pc + 4) t ∧
        v.toInt = (s.readReg a).toInt.fdiv (2 ^ (s.readReg b).toNat)) ∧
      (∃ t v, exec (.sur d a b) s = .next t ∧ WroteReg s d v (s.pc + 4) t ∧
        v.toNat = (s.readReg a).toNat / 2 ^ (s.readReg b).toNat)) ∧
    (imm.toNat ≤ 31 →
      (∃ t v, exec (.ssri d a imm) s = .next t ∧ WroteReg s d v (s.pc + 4) t ∧
        v.toInt = (s.readReg a).toInt.fdiv (2 ^ imm.toNat)) ∧
      (∃ t v, exec (.suri d a imm) s = .next t ∧ WroteReg s d v (s.pc + 4) t ∧
        v.toNat = (s.readReg a).toNat / 2 ^ imm.toNat))

/-- R173, R174 and R116: `EQ` and `NEQ` write 1 or 0. -/
def Obligations.EqNeqWriteTruth : Prop :=
  ∀ (d a b : Reg) (s : State),
    (∃ t, exec (.eq d a b) s = .next t ∧ WroteReg s d (if s.readReg a = s.readReg b then 1 else 0) (s.pc + 4) t) ∧
    (∃ t, exec (.neq d a b) s = .next t ∧ WroteReg s d (if s.readReg a = s.readReg b then 0 else 1) (s.pc + 4) t)

/-- R175, R176 and R116 under decision D7 (log 5): `LT` and `LEQ` complete in every state and write the truth of the order
the configuration reads, signed by default; the two orders agree when bit 31 of the operands is equal. -/
def Obligations.LtLeqWriteOrder : Prop :=
  ∀ (d a b : Reg) (s : State),
    (∃ t v, exec (.lt d a b) s = .next t ∧ WroteReg s d v (s.pc + 4) t ∧
      (s.cfg.cmpSigned = true → v = if (s.readReg a).toInt < (s.readReg b).toInt then 1 else 0) ∧
      (s.cfg.cmpSigned = false ∨ (s.readReg a).getLsbD 31 = (s.readReg b).getLsbD 31 →
        v = if (s.readReg a).toNat < (s.readReg b).toNat then 1 else 0)) ∧
    (∃ t v, exec (.leq d a b) s = .next t ∧ WroteReg s d v (s.pc + 4) t ∧
      (s.cfg.cmpSigned = true → v = if (s.readReg a).toInt ≤ (s.readReg b).toInt then 1 else 0) ∧
      (s.cfg.cmpSigned = false ∨ (s.readReg a).getLsbD 31 = (s.readReg b).getLsbD 31 →
        v = if (s.readReg a).toNat ≤ (s.readReg b).toNat then 1 else 0))

/-- R160 (log 32): under a well-formed opcode map `ALUI` with the value of a secondary opcode completes and does what that
instruction does; the eight certain values of row 00 need no map. It stops as ReservedEncoding where `OP2` selects nothing
(R83, log 3) and where it selects `NOT` and `ARG2` is not zero (R82, decision D4, log 3). -/
def Obligations.AluiExecutesSelectedInstruction : Prop :=
  ∀ (s : State) (a b d : Reg),
    (s.cfg.opMap.Wf → ∀ op : Secondary, (op = .not → b = 0) →
      ∃ t, exec (.alui a b d (s.cfg.opMap.op2 op)) s = .next t ∧ exec (op.instr d a b) s = .next t) ∧
    (∃ t, exec (.alui a b d 0b00000) s = .next t ∧ WroteReg s d (s.readReg a - s.readReg b) (s.pc + 4) t) ∧
    (∃ t, exec (.alui a b d 0b00001) s = .next t ∧ WroteReg s d (s.readReg a + s.readReg b) (s.pc + 4) t) ∧
    (∃ t, exec (.alui a b d 0b00010) s = .next t ∧ WroteReg s d (s.readReg a * s.readReg b) (s.pc + 4) t) ∧
    (∃ t, exec (.alui a b d 0b00011) s = .next t ∧ exec (.div d a b) s = .next t) ∧
    (∃ t, exec (.alui a 0 d 0b00100) s = .next t ∧ WroteReg s d (~~~s.readReg a) (s.pc + 4) t) ∧
    (∃ t, exec (.alui a b d 0b00101) s = .next t ∧ WroteReg s d (s.readReg a &&& s.readReg b) (s.pc + 4) t) ∧
    (∃ t, exec (.alui a b d 0b00110) s = .next t ∧ WroteReg s d (s.readReg a ||| s.readReg b) (s.pc + 4) t) ∧
    (∃ t, exec (.alui a b d 0b00111) s = .next t ∧ WroteReg s d (s.readReg a ^^^ s.readReg b) (s.pc + 4) t) ∧
    (b ≠ 0 → exec (.alui a b d 0b00100) s = .fault .reservedEncoding) ∧
    (∀ o, s.cfg.opMap.secondaryOf o = none → exec (.alui a b d o) s = .fault .reservedEncoding)

/-! ## Immediate instructions -/

/-- R100 with the derivation of R79 from `SUBI` (no configuration enters): `ADDI` adds the sign-extended immediate modulo
2^32, the wrapping being decision D11 (log 10). -/
def Obligations.AddiAddsSignExtended : Prop :=
  ∀ (d a : Reg) (imm : Imm) (s : State),
    ∃ t, exec (.addi d a imm) s = .next t ∧ WroteReg s d (s.readReg a + imm.signExtend 32) (s.pc + 4) t

/-- R101, R103, R104, R105 with C1, C2, C3 (log 38), under whatever widening the configuration gives each (D6, log 4);
that `MLTI` keeps the low 32 bits of the product is decision D11 (R111, log 10). -/
def Obligations.ImmediateAluResults : Prop :=
  ∀ (d a : Reg) (imm : Imm) (s : State),
    (∃ t, exec (.mlti d a imm) s = .next t ∧
      WroteReg s d (s.readReg a * widened s.cfg.immExt.mlti imm) (s.pc + 4) t) ∧
    (∃ t, exec (.andi d a imm) s = .next t ∧
      WroteReg s d (s.readReg a &&& widened s.cfg.immExt.andi imm) (s.pc + 4) t) ∧
    (∃ t, exec (.ori d a imm) s = .next t ∧
      WroteReg s d (s.readReg a ||| widened s.cfg.immExt.ori imm) (s.pc + 4) t) ∧
    (∃ t, exec (.xori d a imm) s = .next t ∧
      WroteReg s d (s.readReg a ^^^ widened s.cfg.immExt.xori imm) (s.pc + 4) t)

/-- R102 and R113 under decisions D6, D8 (logs 4, 6, 7): `DIVI` completes in every state and configuration, and its result
is `DIV`'s with the widened immediate as divisor. -/
def Obligations.DiviNeverTrapsAndTruncates : Prop :=
  ∀ (d a : Reg) (imm : Imm) (s : State),
    ∃ t v, exec (.divi d a imm) s = .next t ∧ WroteReg s d v (s.pc + 4) t ∧
      (s.cfg.divSigned = true → s.cfg.divRound = .towardZero →
        v = truncatedQuotient (s.readReg a) (widened s.cfg.immExt.divi imm)) ∧
      (s.cfg.divSigned = true → s.cfg.divRound = .towardMinusInf →
        v = flooredQuotient (s.readReg a) (widened s.cfg.immExt.divi imm)) ∧
      (s.cfg.divSigned = false → imm ≠ 0 → v = s.readReg a / widened s.cfg.immExt.divi imm) ∧
      (imm = 0 → v = Config.divCorner (s.readReg a) 0)

/-- R106 to R109 and R115 under decisions D6, D9, D10 (logs 4, 8, 9): the immediate shifts complete in every state; an
immediate 0..31 is the amount under either widening, and any other immediate gives the free value, `SSLI` under every
reading of the signed left shift. -/
def Obligations.ImmediateShiftsByImmediate : Prop :=
  ∀ (d a : Reg) (imm : Imm) (s : State),
    (∃ t, exec (.suli d a imm) s = .next t ∧
      WroteReg s d (shifted .sul (s.readReg a) (widened s.cfg.immExt.suli imm)) (s.pc + 4) t) ∧
    (∃ t, exec (.suri d a imm) s = .next t ∧
      WroteReg s d (shifted .sur (s.readReg a) (widened s.cfg.immExt.suri imm)) (s.pc + 4) t) ∧
    (∃ t, exec (.ssri d a imm) s = .next t ∧
      WroteReg s d (shifted .ssr (s.readReg a) (widened s.cfg.immExt.ssri imm)) (s.pc + 4) t) ∧
    (∃ t v, exec (.ssli d a imm) s = .next t ∧ WroteReg s d v (s.pc + 4) t ∧
      (s.cfg.sshl = .asUnsigned → v = shifted .ssl (s.readReg a) (widened s.cfg.immExt.ssli imm)) ∧
      (imm.toNat ≤ 31 → v = sshl32 s.cfg (s.readReg a) imm.toNat) ∧
      (31 < imm.toNat → v = Config.shiftOor .ssl (s.readReg a) (widened s.cfg.immExt.ssli imm))) ∧
    (∀ e : Ext, (widened e imm).toNat ≤ 31 ↔ imm.toNat ≤ 31)

/-! ## Loads, stores and LUI -/

/-- R42: the word at an aligned address is its four bytes joined, the lowest address most significant; a byte access to
`A+k` sees `W[31-8k : 24-8k]`; a fetch sees the same word as a load; a stored word is laid out the same way. It holds in
every state of every configuration, so nothing switches the order. -/
def Obligations.ByteOrderIsBigEndian : Prop :=
  ∀ (s : State) (a w : Word),
    (s.memRead4 a = .ok w →
      (∃ b0 b1 b2 b3 : Byte, s.mem.read a.toNat = some b0 ∧ s.mem.read (a.toNat + 1) = some b1 ∧
        s.mem.read (a.toNat + 2) = some b2 ∧ s.mem.read (a.toNat + 3) = some b3 ∧ w = b0 ++ b1 ++ b2 ++ b3) ∧
      (∀ k, k < 4 → s.memRead1 (a + BitVec.ofNat 32 k) = .ok (w.extractLsb' (24 - 8 * k) 8)) ∧
      (s.pc = a → ∀ v, s.fetch = .ok v → v = w)) ∧
    (∀ t, s.memWrite4 a w = .ok t → t.memRead4 a = .ok w ∧
      ∀ k, k < 4 → t.memRead1 (a + BitVec.ofNat 32 k) = .ok (w.extractLsb' (24 - 8 * k) 8))

/-- R120 with R42, R53 and decisions D6, D17 (logs 4, 15): `LW` at an aligned address inside memory whose bytes are known
writes the big-endian word and changes nothing else. -/
def Obligations.LwLoadsBigEndianWord : Prop :=
  ∀ (d a : Reg) (imm : Imm) (s : State) (b0 b1 b2 b3 : Byte),
    let ea := eaWord (s.readReg a) (immValue s.cfg.immExt.lw imm)
    ea.toNat % 4 = 0 → ea.toNat + 3 < s.cfg.memSize →
    s.mem.read ea.toNat = some b0 → s.mem.read (ea.toNat + 1) = some b1 →
    s.mem.read (ea.toNat + 2) = some b2 → s.mem.read (ea.toNat + 3) = some b3 →
    ∃ t w, exec (.lw d a imm) s = .next t ∧ WroteReg s d w (s.pc + 4) t ∧
      w.toNat = b0.toNat * 2 ^ 24 + b1.toNat * 2 ^ 16 + b2.toNat * 2 ^ 8 + b3.toNat

/-- R121 and decisions D6, D17 (logs 4, 15): `LB` at any address inside memory whose byte is known writes the byte
sign-extended to 32 bits and changes nothing else. -/
def Obligations.LbLoadsSignExtendedByte : Prop :=
  ∀ (d a : Reg) (imm : Imm) (s : State) (b : Byte),
    let ea := eaByte (s.readReg a) (immValue s.cfg.immExt.lb imm)
    ea.toNat < s.cfg.memSize → s.mem.read ea.toNat = some b →
    ∃ t, exec (.lb d a imm) s = .next t ∧ WroteReg s d (b.signExtend 32) (s.pc + 4) t

/-- R44, R46, R234 under decisions D14, D15 and the treatment of unspecified memory (logs 13, 14, 20): where a load stops,
misaligned before out of range, bytes of unspecified contents last (log 34); and the converse, that a load which does not
complete stops with one of these names and where it is stated. -/
def Obligations.LoadsStopOnlyWhereStated : Prop :=
  ∀ (d a : Reg) (imm : Imm) (s : State),
    (let ea := eaWord (s.readReg a) (immValue s.cfg.immExt.lw imm)
     (ea.toNat % 4 ≠ 0 → exec (.lw d a imm) s = .fault .misalignedAccess) ∧
     (ea.toNat % 4 = 0 → s.cfg.memSize ≤ ea.toNat + 3 → exec (.lw d a imm) s = .fault .accessOutOfRange) ∧
     (ea.toNat % 4 = 0 → ea.toNat + 3 < s.cfg.memSize → (∃ k, k < 4 ∧ s.mem.read (ea.toNat + k) = none) →
       exec (.lw d a imm) s = .fault .uninitialisedRead) ∧
     ((∃ t, exec (.lw d a imm) s = .next t) ∨
       (exec (.lw d a imm) s = .fault .misalignedAccess ∧ ea.toNat % 4 ≠ 0) ∨
       (exec (.lw d a imm) s = .fault .accessOutOfRange ∧ ea.toNat % 4 = 0 ∧ s.cfg.memSize ≤ ea.toNat + 3) ∨
       (exec (.lw d a imm) s = .fault .uninitialisedRead ∧ ea.toNat % 4 = 0 ∧ ea.toNat + 3 < s.cfg.memSize ∧
         ∃ k, k < 4 ∧ s.mem.read (ea.toNat + k) = none))) ∧
    (let ea := eaByte (s.readReg a) (immValue s.cfg.immExt.lb imm)
     (s.cfg.memSize ≤ ea.toNat → exec (.lb d a imm) s = .fault .accessOutOfRange) ∧
     (ea.toNat < s.cfg.memSize → s.mem.read ea.toNat = none → exec (.lb d a imm) s = .fault .uninitialisedRead) ∧
     ((∃ t, exec (.lb d a imm) s = .next t) ∨
       (exec (.lb d a imm) s = .fault .accessOutOfRange ∧ s.cfg.memSize ≤ ea.toNat) ∨
       (exec (.lb d a imm) s = .fault .uninitialisedRead ∧ ea.toNat < s.cfg.memSize ∧ s.mem.read ea.toNat = none)))

/-- R122 with R42, R53 and decisions D2, D6, D17 (logs 2, 4, 15): `SW` at an aligned address inside memory stores its four
bytes big-endian there, marks the word (R56) and changes no other byte and no register. -/
def Obligations.SwStoresBigEndianWord : Prop :=
  ∀ (r b : Reg) (imm : Imm) (s : State),
    let ea := eaWord (s.readReg b) (immValue s.cfg.immExt.sw imm)
    ea.toNat % 4 = 0 → ea.toNat + 3 < s.cfg.memSize →
    ∃ t, exec (.sw r b imm) s = .next t ∧
      Stored s ea.toNat ea.toNat
        [(s.readReg r).extractLsb' 24 8, (s.readReg r).extractLsb' 16 8, (s.readReg r).extractLsb' 8 8,
          (s.readReg r).extractLsb' 0 8] t

/-- R123 with decisions D2, D6, D17, D18 (logs 2, 4, 15, 16): `SB` of a value in -128 .. 255 at any address inside memory
stores its low byte there, marks the word the byte lies in (R56) and changes no other byte and no register. -/
def Obligations.SbStoresLowByte : Prop :=
  ∀ (r b : Reg) (imm : Imm) (s : State),
    let ea := eaByte (s.readReg b) (immValue s.cfg.immExt.sb imm)
    ea.toNat < s.cfg.memSize → -128 ≤ (s.readReg r).toInt → (s.readReg r).toInt ≤ 255 →
    ∃ t, exec (.sb r b imm) s = .next t ∧
      Stored s ea.toNat (ea.toNat - ea.toNat % 4) [(s.readReg r).extractLsb' 0 8] t

/-- R44, R46, R123, R234 under decisions D14, D15, D18 (logs 13, 14, 16): where a store stops, the value of `SB` before its
address and misaligned before out of range; and the converse, that a store which does not complete stops with one of these
names and where it is stated. A stop has no next state, so nothing is changed. -/
def Obligations.StoresStopOnlyWhereStated : Prop :=
  ∀ (r b : Reg) (imm : Imm) (s : State),
    (let ea := eaWord (s.readReg b) (immValue s.cfg.immExt.sw imm)
     (ea.toNat % 4 ≠ 0 → exec (.sw r b imm) s = .fault .misalignedAccess) ∧
     (ea.toNat % 4 = 0 → s.cfg.memSize ≤ ea.toNat + 3 → exec (.sw r b imm) s = .fault .accessOutOfRange) ∧
     ((∃ t, exec (.sw r b imm) s = .next t) ∨
       (exec (.sw r b imm) s = .fault .misalignedAccess ∧ ea.toNat % 4 ≠ 0) ∨
       (exec (.sw r b imm) s = .fault .accessOutOfRange ∧ ea.toNat % 4 = 0 ∧ s.cfg.memSize ≤ ea.toNat + 3))) ∧
    (let ea := eaByte (s.readReg b) (immValue s.cfg.immExt.sb imm)
     ((s.readReg r).toInt < -128 ∨ 255 < (s.readReg r).toInt → exec (.sb r b imm) s = .fault .sbValueRange) ∧
     (-128 ≤ (s.readReg r).toInt → (s.readReg r).toInt ≤ 255 → s.cfg.memSize ≤ ea.toNat →
       exec (.sb r b imm) s = .fault .accessOutOfRange) ∧
     ((∃ t, exec (.sb r b imm) s = .next t) ∨
       (exec (.sb r b imm) s = .fault .sbValueRange ∧ ((s.readReg r).toInt < -128 ∨ 255 < (s.readReg r).toInt)) ∨
       (exec (.sb r b imm) s = .fault .accessOutOfRange ∧ -128 ≤ (s.readReg r).toInt ∧ (s.readReg r).toInt ≤ 255 ∧
         s.cfg.memSize ≤ ea.toNat)))

/-- R54 with R120 to R123 (logs 4, 15, 23): a load gives what the most recent store put there. After `SW`, and after any
run from there whose steps do not store to the word, `LW` through the same address gives the word, and `LB` of its `k`-th
byte gives `W[31-8k : 24-8k]` sign-extended (R42). After `SB`, and any run whose steps do not store to that byte, `LB` of it
gives the low byte stored, sign-extended. A run of no steps is the load directly after the store. -/
def Obligations.LoadSeesStore : Prop :=
  ∀ (r b d c : Reg) (immS immL : Imm) (n : Nat) (s t u : State), runFrom n t = ⟨u, none⟩ →
    (exec (.sw r b immS) s = .next t →
      let ea := eaWord (s.readReg b) (immValue s.cfg.immExt.sw immS)
      (∀ j, j < n → ∀ k, k < 4 → (runFrom j t).state.storesTo (ea.toNat + k) = false) →
      (eaWord (u.readReg c) (immValue u.cfg.immExt.lw immL) = ea →
        ∃ v, exec (.lw d c immL) u = .next v ∧ WroteReg u d (s.readReg r) (u.pc + 4) v) ∧
      (∀ k, k < 4 → (eaByte (u.readReg c) (immValue u.cfg.immExt.lb immL)).toNat = ea.toNat + k →
        ∃ v, exec (.lb d c immL) u = .next v ∧
          WroteReg u d (((s.readReg r).extractLsb' (24 - 8 * k) 8).signExtend 32) (u.pc + 4) v)) ∧
    (exec (.sb r b immS) s = .next t →
      let ea := eaByte (s.readReg b) (immValue s.cfg.immExt.sb immS)
      (∀ j, j < n → (runFrom j t).state.storesTo ea.toNat = false) →
      eaByte (u.readReg c) (immValue u.cfg.immExt.lb immL) = ea →
      ∃ v, exec (.lb d c immL) u = .next v ∧
        WroteReg u d (((s.readReg r).extractLsb' 0 8).signExtend 32) (u.pc + 4) v)

/-- R123 under decision D18 (log 16): "In particular a value produced by `LB` always fits, so `LB` then `SB` copies a byte." The loaded register is
not the base of the store and is not `$zero`. -/
def Obligations.LbThenSbCopiesByte : Prop :=
  ∀ (d c b : Reg) (immL immS : Imm) (s t : State), d ≠ 0 → d ≠ b → exec (.lb d c immL) s = .next t →
    let src := eaByte (s.readReg c) (immValue s.cfg.immExt.lb immL)
    let dst := eaByte (s.readReg b) (immValue s.cfg.immExt.sb immS)
    dst.toNat < s.cfg.memSize →
    ∃ u, exec (.sb d b immS) t = .next u ∧ u.mem.read dst.toNat = s.mem.read src.toNat ∧
      ∀ a, a ≠ dst.toNat → u.mem.read a = s.mem.read a

/-- R124 under decision D12 (log 11): `LUI` puts its 17 bits in bits 31-15 and zeros below. -/
def Obligations.LuiPlacesUpperBits : Prop :=
  ∀ (d : Reg) (imm : Imm) (s : State),
    ∃ t, exec (.lui d imm) s = .next t ∧ WroteReg s d (imm.setWidth 32 <<< 15) (s.pc + 4) t

/-- R126 (and R203, R204) with decision D12 (log 11): `LUI` then `ORI` builds any 32-bit constant, whichever way `ORI` widens its immediate. -/
def Obligations.LuiThenOriBuildsConstant : Prop :=
  ∀ (d : Reg) (k : Word) (s : State),
    ∃ t, execAll (loadConstant d k) s = .next t ∧ WroteReg s d k (s.pc + 8) t

/-! ## Control transfer -/

/-- R140, R141 with R145 and R116, the target under decisions D6, D29 (logs 4, 28): `BEQ` and `BNE` complete in every
state; taken they go to the absolute target, otherwise to the next instruction, and they change the pc alone. -/
def Obligations.BeqBneBranchAbsolutely : Prop :=
  ∀ (a b : Reg) (imm : Imm) (s : State),
    (∃ t, exec (.beq a b imm) s = .next t ∧
      Jumped s (if s.readReg a = s.readReg b then widened s.cfg.immExt.beq imm <<< 2 else s.pc + 4) t) ∧
    (∃ t, exec (.bne a b imm) s = .next t ∧
      Jumped s (if s.readReg a = s.readReg b then s.pc + 4 else widened s.cfg.immExt.bne imm <<< 2) t)

/-- R142, R143 with R145 and R116 under decisions D6, D7, D29 (logs 4, 5, 28): `BLT` and `BLE`. -/
def Obligations.BltBleBranchAbsolutely : Prop :=
  ∀ (a b : Reg) (imm : Imm) (s : State),
    (∃ t p, exec (.blt a b imm) s = .next t ∧ Jumped s p t ∧
      (s.cfg.cmpSigned = true → p = if (s.readReg a).toInt < (s.readReg b).toInt
        then widened s.cfg.immExt.blt imm <<< 2 else s.pc + 4) ∧
      (s.cfg.cmpSigned = false → p = if (s.readReg a).toNat < (s.readReg b).toNat
        then widened s.cfg.immExt.blt imm <<< 2 else s.pc + 4)) ∧
    (∃ t p, exec (.ble a b imm) s = .next t ∧ Jumped s p t ∧
      (s.cfg.cmpSigned = true → p = if (s.readReg a).toInt ≤ (s.readReg b).toInt
        then widened s.cfg.immExt.ble imm <<< 2 else s.pc + 4) ∧
      (s.cfg.cmpSigned = false → p = if (s.readReg a).toNat ≤ (s.readReg b).toNat
        then widened s.cfg.immExt.ble imm <<< 2 else s.pc + 4))

/-- R145 and R147 (logs 4, 28): a branch target is a multiple of 4, and which target each `IMM` reaches under each
widening, in the two ranges that R145 lists. -/
def Obligations.BranchTargetsAlignedAndInReach : Prop :=
  ∀ imm : Imm,
    (∀ e, (branchTarget (immValue e imm)).toNat % 4 = 0) ∧
    (imm.toNat < 0x10000 → ∀ e, (branchTarget (immValue e imm)).toNat = 4 * imm.toNat ∧ 4 * imm.toNat ≤ 0x0003FFFC) ∧
    (0x10000 ≤ imm.toNat →
      (branchTarget (immValue .sign imm)).toNat = 0xFFFC0000 + 4 * (imm.toNat - 0x10000) ∧
      (branchTarget (immValue .zero imm)).toNat = 4 * imm.toNat ∧
      0x00040000 ≤ 4 * imm.toNat ∧ 4 * imm.toNat ≤ 0x0007FFFC)

/-- R144 under decisions D3, D19 (logs 2, 17): `JAL` completes in every state, writes the address of the next instruction
to its link register and goes to the old value of its target register, the same register or not. -/
def Obligations.JalLinksAndJumpsToOldTarget : Prop :=
  ∀ (l r : Reg) (s : State), ∃ t, exec (.jal l r) s = .next t ∧ WroteReg s l (s.pc + 4) (s.readReg r) t

/-- R146: "These five are the only instructions that can set the pc to anything but `pc + 4`" (42_branch_jump.md), and
R27. -/
def Obligations.OnlyTransfersLeaveSequence : Prop :=
  ∀ (i : Instr) (s t : State), exec i s = .next t → i.isTransfer = false → t.pc = s.pc + 4

/-- R28 and R147 under decision D16 (log 14): from an aligned pc only `JAL` can reach a misaligned one. -/
def Obligations.OnlyJalMisalignsPc : Prop :=
  ∀ (s t : State), s.pc.toNat % 4 = 0 → step s = .next t → t.pc.toNat % 4 ≠ 0 →
    ∃ w l r, s.fetch = .ok w ∧ decode s.cfg.opMap w = .ok (.jal l r) ∧ t.pc = s.readReg r

/-! ## Whole-machine rules -/

/-- R30: no instruction writes any state as a side effect other than its destination register, memory (stores) and the pc.
A step changes no register but the executed instruction's destination and no memory but by a store: `SW` the four bytes at
its effective address, `SB` the one at its, each marking the word the address lies in (R43, R56). The configuration never
changes (log 31). -/
def Obligations.StepWritesOneThing : Prop :=
  ∀ (s t : State) (w : Word) (i : Instr), s.fetch = .ok w → decode s.cfg.opMap w = .ok i → step s = .next t →
    t.cfg = s.cfg ∧ (∀ r, i.destination ≠ some r → t.readReg r = s.readReg r) ∧
    (∀ r b imm, i = .sw r b imm →
      let ea := eaWord (s.readReg b) (immValue s.cfg.immExt.sw imm)
      (∀ a, a < ea.toNat ∨ ea.toNat + 4 ≤ a → t.mem.read a = s.mem.read a) ∧
      ∀ a, a ∈ t.written ↔ a = wordAddress ea ∨ a ∈ s.written) ∧
    (∀ r b imm, i = .sb r b imm →
      let ea := eaByte (s.readReg b) (immValue s.cfg.immExt.sb imm)
      (∀ a, a ≠ ea.toNat → t.mem.read a = s.mem.read a) ∧
      ∀ a, a ∈ t.written ↔ a = wordAddress ea ∨ a ∈ s.written) ∧
    (i.isStore = false → SameMemory s t)

/-- R117, R30: only the two stores change memory or mark a word. -/
def Obligations.OnlyStoresWriteMemory : Prop :=
  ∀ (i : Instr) (s t : State), exec i s = .next t → i.isStore = false → SameMemory s t

/-- The invariant of the state (R4, R33, R44, R56; the canonical form of memory is the model's, log 20) is kept by every
step. -/
def Obligations.StepKeepsInvariant : Prop :=
  ∀ s t : State, s.Inv → step s = .next t → t.Inv

/-- The invariant holds at reset, and at every launch state of an admissible configuration (R251). -/
def Obligations.LaunchHasInvariant : Prop :=
  State.reset.Inv ∧ ∀ (c : Config) (regs : Vector Word 31), c.Wf → (State.launch c regs).Inv

/-- R35, R250, R251 under decisions D20, D21: at every launch the pc is `RESET_PC`, `$zero` is 0, nothing is marked as
stored to, and memory holds nothing known but what the image loads; `State.reset` is the launch at the spec's defaults with
the pc 0 and the register values that log 19 names. -/
def Obligations.LaunchStateIsAsStated : Prop :=
  (∀ (c : Config) (regs : Vector Word 31),
    (State.launch c regs).pc = c.resetPc ∧ (State.launch c regs).readReg 0 = 0 ∧
    (State.launch c regs).written = [] ∧ (State.launch c regs).mem = [] ∧
    ∀ k (h : k < 31), (State.launch c regs).readReg (BitVec.ofNat 5 (k + 1)) = regs[k]) ∧
  State.reset = State.launch Config.decided resetRegs ∧ State.reset.pc = 0

/-- R220 and R251 (log 33): after an image with distinct indices is loaded, every word of it reads back big-endian at four times its
index, bytes outside it are as before, and no word is marked. -/
def Obligations.LoadedImageReadsBack : Prop :=
  ∀ (image : List (Nat × Word)) (s t : State), (image.map Prod.fst).Nodup → s.load image = some t →
    (∀ e ∈ image, t.wordAt (4 * e.1) = .ok e.2 ∧ 4 * e.1 + 3 < s.cfg.memSize) ∧
    (∀ a, (∀ e ∈ image, a / 4 ≠ e.1) → t.mem.read a = s.mem.read a) ∧
    t.regs = s.regs ∧ t.pc = s.pc ∧ t.written = s.written ∧ t.cfg = s.cfg

/-- R56 under decision D25 (log 24): along a run from any state, every word that has not been marked still reads as at the
start; so, where the configuration stops a fetch after a store, every instruction that runs is the one the start state
holds at its address. -/
def Obligations.ExecutedCodeIsNeverModified : Prop :=
  ∀ (k : Nat) (s t : State), runFrom k s = ⟨t, none⟩ →
    (∀ a, a / 4 * 4 ∉ t.written → t.mem.read a = s.mem.read a) ∧
    (s.cfg.fetchStored = .stop → ∀ w, t.fetch = .ok w → s.wordAt t.pc.toNat = .ok w)

/-- R56 under decision D25 (log 24): once a store has written a word, a run that comes to fetch from it stops there,
however many steps later. -/
def Obligations.FetchAfterStoreStops : Prop :=
  ∀ (k : Nat) (s t : State) (a : Nat), a ∈ s.written → runFrom k s = ⟨t, none⟩ → t.pc.toNat = a →
    s.cfg.fetchStored = .stop → a % 4 = 0 → a + 3 < s.cfg.memSize →
    runFrom (k + 1) s = ⟨t, some (.fault .fetchAfterStore)⟩

/-! ## Runs -/

/-- R260 and R8: "A `raise` leaves `s` unchanged except for the stopped mark", and a stopped machine stays as it is. -/
def Obligations.StopKeepsState : Prop :=
  ∀ (k : Nat) (m : Marked),
    (m.stopped ≠ none → Marked.run k m = m) ∧
    (∀ f, m.stopped = none → step m.state = .fault f → Marked.run (k + 1) m = ⟨m.state, some (.fault f)⟩)

/-- R260, R231 and R256 (logs 21, 22): the run iterates steps until the `HALT` condition holds or a raise stops the model.
It reports completion exactly where the run is complete and a stop exactly where a raise came first; a run that reaches a
model stop is never complete, under any setting of `HALT`; and a run is complete at one point at most. -/
def Obligations.StoppedRunNeverCompletes : Prop :=
  ∀ (k j : Nat) (s t u : State),
    ((runFrom k s).stopped ≠ none → k ≤ j → ¬ CompletesAt j s t) ∧
    (CompletesAt k s t → CompletesAt j s u → k = j ∧ t = u) ∧
    (runUntilEnd j 0 s = .complete k t ↔ k ≤ j ∧ CompletesAt k s t) ∧
    (∀ w, runUntilEnd j 0 s = .stopped k t w ↔
      k < j ∧ runFrom k s = ⟨t, none⟩ ∧ (runFrom (k + 1) s).stopped = some w ∧
        ∀ i, i ≤ k → haltsAt s.cfg.halt i (runFrom i s).state = false)

/-- R256 (log 22): under the self-branch setting a completed run stays in its final state for ever, so it is safe from
there on. -/
def Obligations.CompletedRunStays : Prop :=
  ∀ (k j : Nat) (s t : State), s.cfg.halt = .selfBranch → CompletesAt k s t → k ≤ j → runFrom j s = ⟨t, none⟩

/-- R256, R145 (logs 22, 28): the halt idiom. A fetched `BEQ` of a register with itself to its own address leaves the whole state unchanged,
so the self-branch condition holds. -/
def Obligations.SelfBranchHalts : Prop :=
  ∀ (s : State) (w : Word) (a : Reg) (imm : Imm) (k : Nat), s.fetch = .ok w →
    decode s.cfg.opMap w = .ok (.beq a a imm) → branchTarget (immValue s.cfg.immExt.beq imm) = s.pc →
    step s = .next s ∧ haltsAt .selfBranch k s = true

/-- R84: the all-zero word is a no-operation under every opcode map: its step changes the pc alone. -/
def Obligations.ZeroWordIsNoOperation : Prop :=
  ∀ s : State, s.fetch = .ok 0 → ∃ t, step s = .next t ∧ Jumped s (s.pc + 4) t

/-! ## The assembler -/

/-- R197 to R202, R205 under decision D26 (log 25): the register pseudo-ops reach the end state of the source's pseudocode
line, whatever registers coincide, `GT` and `GEQ` in the order the configuration reads (D7, log 5). -/
def Obligations.RegisterPseudoOpsMeetPseudocode : Prop :=
  ∀ (d a b : Reg) (s : State),
    (∃ is t, (Pseudo.nand d a b).expand = some is ∧ execAll is s = .next t ∧
      WroteReg s d (~~~(s.readReg a &&& s.readReg b)) (s.pc + 8) t) ∧
    (∃ is t, (Pseudo.nor d a b).expand = some is ∧ execAll is s = .next t ∧
      WroteReg s d (~~~(s.readReg a ||| s.readReg b)) (s.pc + 8) t) ∧
    (∃ is t, (Pseudo.nxor d a b).expand = some is ∧ execAll is s = .next t ∧
      WroteReg s d (~~~(s.readReg a ^^^ s.readReg b)) (s.pc + 8) t) ∧
    (∃ is t, (Pseudo.cpy d a).expand = some is ∧ execAll is s = .next t ∧ WroteReg s d (s.readReg a) (s.pc + 4) t) ∧
    (∃ is t, (Pseudo.clr d).expand = some is ∧ execAll is s = .next t ∧ WroteReg s d 0 (s.pc + 4) t) ∧
    (s.cfg.cmpSigned = true →
      (∃ is t, (Pseudo.gt d a b).expand = some is ∧ execAll is s = .next t ∧
        WroteReg s d (if (s.readReg a).toInt > (s.readReg b).toInt then 1 else 0) (s.pc + 4) t) ∧
      (∃ is t, (Pseudo.geq d a b).expand = some is ∧ execAll is s = .next t ∧
        WroteReg s d (if (s.readReg a).toInt ≥ (s.readReg b).toInt then 1 else 0) (s.pc + 4) t)) ∧
    (s.cfg.cmpSigned = false →
      (∃ is t, (Pseudo.gt d a b).expand = some is ∧ execAll is s = .next t ∧
        WroteReg s d (if (s.readReg a).toNat > (s.readReg b).toNat then 1 else 0) (s.pc + 4) t) ∧
      (∃ is t, (Pseudo.geq d a b).expand = some is ∧ execAll is s = .next t ∧
        WroteReg s d (if (s.readReg a).toNat ≥ (s.readReg b).toNat then 1 else 0) (s.pc + 4) t))

/-- R196: `SUBI` subtracts its number wherever the negated number fits, and has no expansion elsewhere. That 65536 is
accepted and -65536 refused, which R196 leaves open, is the model's choice (log 43); beyond them R81 refuses (log 35). -/
def Obligations.SubiSubtractsNumber : Prop :=
  ∀ (d a : Reg) (v : Int) (s : State),
    (-65535 ≤ v ∧ v ≤ 65536 →
      ∃ is t, (Pseudo.subi d a v).expand = some is ∧ execAll is s = .next t ∧
        WroteReg s d (s.readReg a - BitVec.ofInt 32 v) (s.pc + 4) t) ∧
    (¬ (-65535 ≤ v ∧ v ≤ 65536) → (Pseudo.subi d a v).expand = none)

/-- R206 to R210 under decision D26 (log 25): the transfer pseudo-ops, with the absolute target of D29 (log 28) and its
widening of D6 (log 4), `BGT` and `BGE` in the order the configuration reads (D7, log 5), and `JMP` through `$ra` going to
the old value (D19, log 17). -/
def Obligations.TransferPseudoOpsMeetPseudocode : Prop :=
  ∀ (a b : Reg) (imm : Imm) (s : State),
    (∃ is t, (Pseudo.goto imm).expand = some is ∧ execAll is s = .next t ∧
      Jumped s (widened s.cfg.immExt.beq imm <<< 2) t) ∧
    (∃ is t, (Pseudo.jmp a).expand = some is ∧ execAll is s = .next t ∧
      WroteReg s regRa (s.pc + 4) (s.readReg a) t) ∧
    (∃ is t, Pseudo.ret.expand = some is ∧ execAll is s = .next t ∧ Jumped s (s.readReg regRa) t) ∧
    (s.cfg.cmpSigned = true →
      (∃ is t, (Pseudo.bgt a b imm).expand = some is ∧ execAll is s = .next t ∧
        Jumped s (if (s.readReg a).toInt > (s.readReg b).toInt
          then widened s.cfg.immExt.blt imm <<< 2 else s.pc + 4) t) ∧
      (∃ is t, (Pseudo.bge a b imm).expand = some is ∧ execAll is s = .next t ∧
        Jumped s (if (s.readReg a).toInt ≥ (s.readReg b).toInt
          then widened s.cfg.immExt.ble imm <<< 2 else s.pc + 4) t)) ∧
    (s.cfg.cmpSigned = false →
      (∃ is t, (Pseudo.bgt a b imm).expand = some is ∧ execAll is s = .next t ∧
        Jumped s (if (s.readReg a).toNat > (s.readReg b).toNat
          then widened s.cfg.immExt.blt imm <<< 2 else s.pc + 4) t) ∧
      (∃ is t, (Pseudo.bge a b imm).expand = some is ∧ execAll is s = .next t ∧
        Jumped s (if (s.readReg a).toNat ≥ (s.readReg b).toNat
          then widened s.cfg.immExt.ble imm <<< 2 else s.pc + 4) t))

/-- R211, R212 under decision D26 (log 25): "`PUSH $r` followed by `POP $r` restores both `$r` and `$sp`", through the word
at the old stack pointer. -/
def Obligations.PushPopRestores : Prop :=
  ∀ (r : Reg) (s : State), (s.readReg regSp).toNat % 4 = 0 → (s.readReg regSp).toNat + 3 < s.cfg.memSize →
    ∃ push pop t u, (Pseudo.push r).expand = some push ∧ (Pseudo.pop r).expand = some pop ∧
      execAll push s = .next t ∧ t.readReg regSp = s.readReg regSp - 4 ∧
      t.wordAt (s.readReg regSp).toNat = .ok (s.readReg r) ∧
      execAll pop t = .next u ∧ (∀ q, u.readReg q = s.readReg q) ∧ u.pc = s.pc + 16

/-- R214 to R216, R219 with decisions D26, D27, D30 (logs 25, 26, 27, 35): whatever the assembler emits lies at distinct
locations that are multiples of 4 inside the 32-bit address space, so the image's indices are distinct. That two words at
one location and a location out of range are refused is the model's choice (log 37). -/
def Obligations.AssembledWordsLieApart : Prop :=
  ∀ (m : OpMap) (src : List (List Char)) (out : List Asm.Emitted), Asm.assemble m src = .ok out →
    (∀ e ∈ out, e.location % 4 = 0 ∧ e.location + 4 ≤ 2 ^ 32) ∧ ((Asm.imageOf out).map Prod.fst).Nodup
end

