-- ==== Sys2Proof/Laws/Memory.lean ====
section
/-! SUPPORT. The memory's cells: what a read gives after a write, that every write keeps the canonical form, the byte
order of a word (20_memory.md R42), and the list of written marks (R56). -/

namespace Sys2Proof.Machine

/-! ## Reading after a write -/

theorem read_insert (m : Memory) (a : Nat) (b : Byte) (x : Nat) :
    (m.insert a b).read x = if x = a then some b else m.read x := by
  induction m with
  | nil => simp [Memory.insert, Memory.read]
  | cons c m ih =>
    obtain ⟨k, v⟩ := c
    by_cases h1 : a < k
    · simp [Memory.insert, h1, Memory.read]
    · by_cases h2 : a = k
      · subst h2
        by_cases hx : x = a <;> simp [Memory.insert, Memory.read, hx]
      · simp only [Memory.insert, h1, h2, if_false, Memory.read, ih]
        by_cases hx : x = k
        · subst hx; simp [Ne.symm h2]
        · simp [hx]

theorem read_erase (m : Memory) (a x : Nat) :
    Memory.read (m.filter fun c => c.1 != a) x = if x = a then Memory.unlisted a else m.read x := by
  induction m with
  | nil => by_cases hx : x = a <;> simp [Memory.read, hx]
  | cons c m ih =>
    obtain ⟨k, v⟩ := c
    by_cases hk : k = a
    · subst hk
      simp only [List.filter, bne_self_eq_false, Memory.read, ih]
      by_cases hx : x = k <;> simp [hx]
    · simp only [List.filter, bne_iff_ne.mpr hk, Memory.read, ih]
      by_cases hx : x = k
      · subst hx; simp [hk]
      · simp [hx]

/-- A write gives its address the value and leaves every other byte alone. -/
theorem read_write (m : Memory) (a : Nat) (b : Byte) (x : Nat) :
    (m.write a b).read x = if x = a then some b else m.read x := by
  unfold Memory.write
  split
  · next h => rw [read_erase, h]
  · exact read_insert m a b x

/-- What a byte reads after a word was written. -/
theorem read_writeWord (m : Memory) (a : Nat) (w : Word) (x : Nat) :
    (m.writeWord a w).read x =
      if x = a then some (byteOfWord w 0) else if x = a + 1 then some (byteOfWord w 1)
      else if x = a + 2 then some (byteOfWord w 2) else if x = a + 3 then some (byteOfWord w 3) else m.read x := by
  simp only [Memory.writeWord, read_write]
  split_ifs <;> first | rfl | omega

/-! ## The canonical form -/

theorem mem_insert {m : Memory} {a : Nat} {b : Byte} {c : Host.Cell} (h : c ∈ m.insert a b) : c = (a, b) ∨ c ∈ m := by
  induction m with
  | nil => simpa [Memory.insert] using h
  | cons d m ih =>
    obtain ⟨k, v⟩ := d
    simp only [Memory.insert] at h
    split_ifs at h with h1 h2
    · simpa using h
    · simp only [List.mem_cons] at h ⊢
      tauto
    · simp only [List.mem_cons] at h ⊢
      rcases h with h | h
      · exact .inr (.inl h)
      · rcases ih h with h | h
        · exact .inl h
        · exact .inr (.inr h)

theorem insert_rising {m : Memory} (h : (m.map Prod.fst).Pairwise (· < ·)) (a : Nat) (b : Byte) :
    ((m.insert a b).map Prod.fst).Pairwise (· < ·) := by
  induction m with
  | nil => simp [Memory.insert]
  | cons c m ih =>
    obtain ⟨k, v⟩ := c
    simp only [List.map_cons, List.pairwise_cons] at h
    simp only [Memory.insert]
    split_ifs with h1 h2
    · simp only [List.map_cons, List.pairwise_cons]
      refine ⟨?_, h⟩
      intro x hx
      rcases List.mem_cons.mp hx with rfl | hx
      · exact h1
      · exact lt_trans h1 (h.1 x hx)
    · subst h2
      simpa only [List.map_cons, List.pairwise_cons] using h
    · simp only [List.map_cons, List.pairwise_cons]
      refine ⟨?_, ih h.2⟩
      intro x hx
      obtain ⟨c, hc, rfl⟩ := List.mem_map.mp hx
      rcases mem_insert hc with rfl | hc
      · show k < a; omega
      · exact h.1 _ (List.mem_map.mpr ⟨c, hc, rfl⟩)

/-- Every cell after a write is the one written or was there before. -/
theorem mem_write {m : Memory} {a : Nat} {b : Byte} {c : Host.Cell} (h : c ∈ m.write a b) : c = (a, b) ∨ c ∈ m := by
  unfold Memory.write at h
  split at h
  · exact .inr (List.mem_filter.mp h).1
  · exact mem_insert h

/-- A write keeps the canonical form. -/
theorem write_wf {m : Memory} (h : m.wf) (a : Nat) (b : Byte) : (m.write a b).wf := by
  refine ⟨?_, ?_⟩
  · unfold Memory.write
    split
    · exact List.Pairwise.sublist (List.Sublist.map _ List.filter_sublist) h.1
    · exact insert_rising h.1 a b
  · intro c hc
    unfold Memory.write at hc
    split at hc
    · exact h.2 c (List.mem_filter.mp hc).1
    · next hb =>
      rcases mem_insert hc with rfl | hc
      · exact hb
      · exact h.2 c hc

/-- A word's write keeps the canonical form. -/
theorem writeWord_wf {m : Memory} (h : m.wf) (a : Nat) (w : Word) : (m.writeWord a w).wf :=
  write_wf (write_wf (write_wf (write_wf h _ _) _ _) _ _) _ _

/-- Every cell after a word's write lies in the word or was there before. -/
theorem mem_writeWord {m : Memory} {a : Nat} {w : Word} {c : Host.Cell} (h : c ∈ m.writeWord a w) :
    (a ≤ c.1 ∧ c.1 ≤ a + 3) ∨ c ∈ m := by
  rcases mem_write h with rfl | h
  · left; simp
  rcases mem_write h with rfl | h
  · left; simp
  rcases mem_write h with rfl | h
  · left; simp
  rcases mem_write h with rfl | h
  · left; simp
  · exact .inr h

/-- Reset's memory has the canonical form. -/
theorem reset_mem_wf : State.reset.mem.wf := by decide

/-! ## Byte order -/

/-- The bytes of a word, joined in the order of their addresses, are the word (R42). -/
theorem wordOfBytes_bytesOfWord (w : Word) :
    wordOfBytes (byteOfWord w 0) (byteOfWord w 1) (byteOfWord w 2) (byteOfWord w 3) = w := by
  apply BitVec.eq_of_getLsbD_eq
  intro i hi
  simp only [wordOfBytes, byteOfWord, BitVec.getLsbD_append, BitVec.getLsbD_extractLsb']
  rcases Nat.lt_or_ge i 8 with h | h
  · simp [h]
  rcases Nat.lt_or_ge i 16 with h' | h'
  · simp [show ¬ i < 8 by omega, show i - 8 < 8 by omega, show 8 + (i - 8) = i by omega]
  rcases Nat.lt_or_ge i 24 with h'' | h''
  · simp [show ¬ i < 8 by omega, show ¬ i - 8 < 8 by omega, show i - 8 - 8 < 8 by omega,
      show 16 + (i - 8 - 8) = i by omega]
  · simp [show ¬ i < 8 by omega, show ¬ i - 8 < 8 by omega, show ¬ i - 8 - 8 < 8 by omega,
      show i - 8 - 8 - 8 < 8 by omega, show 24 + (i - 8 - 8 - 8) = i by omega]

/-! ## Written marks -/

theorem mem_markWritten (ws : List Nat) (a x : Nat) : x ∈ markWritten ws a ↔ x = a ∨ x ∈ ws := by
  induction ws with
  | nil => simp [markWritten]
  | cons k ws ih =>
    simp only [markWritten]
    split_ifs with h1 h2
    · simp
    · subst h2; simp
    · simp only [List.mem_cons, ih]; tauto

theorem markWritten_rising {ws : List Nat} (h : ws.Pairwise (· < ·)) (a : Nat) : (markWritten ws a).Pairwise (· < ·) := by
  induction ws with
  | nil => simp [markWritten]
  | cons k ws ih =>
    simp only [List.pairwise_cons] at h
    simp only [markWritten]
    split_ifs with h1 h2
    · simp only [List.pairwise_cons, List.mem_cons]
      exact ⟨fun x hx => hx.elim (fun e => e ▸ h1) (fun hx => lt_trans h1 (h.1 x hx)), h⟩
    · exact List.pairwise_cons.mpr h
    · refine List.pairwise_cons.mpr ⟨fun x hx => ?_, ih h.2⟩
      rcases (mem_markWritten ws a x).mp hx with rfl | hx
      · omega
      · exact h.1 x hx

/-- A mark that is there already is not added again (R56: a set). -/
theorem markWritten_of_mem {ws : List Nat} (h : ws.Pairwise (· < ·)) {a : Nat} (ha : a ∈ ws) : markWritten ws a = ws := by
  induction ws with
  | nil => simp at ha
  | cons k ws ih =>
    simp only [List.pairwise_cons] at h
    simp only [markWritten]
    rcases List.mem_cons.mp ha with rfl | ha
    · simp
    · have := h.1 a ha
      rw [if_neg (by omega), if_neg (by omega), ih h.2 ha]

theorem wordAddress_mod (a : Word) : wordAddress a % 4 = 0 := by unfold wordAddress; omega
theorem wordAddress_le (a : Word) : wordAddress a ≤ a.toNat := by unfold wordAddress; omega
theorem wordAddress_aligned {a : Word} (h : a.toNat % 4 = 0) : wordAddress a = a.toNat := by unfold wordAddress; omega

end Sys2Proof.Machine
end

