-- ==== Sys2Proof/Laws/State.lean ====
section
/-! SUPPORT. One lemma per field per update of the state, and the register file: what a read gives after a write
(10_state.md R22, R27). -/

namespace Sys2Proof.Machine

@[simp] theorem setPc_regs (s : State) (t : Word) : (s.setPc t).regs = s.regs := rfl
@[simp] theorem setPc_pc (s : State) (t : Word) : (s.setPc t).pc = t := rfl
@[simp] theorem setPc_mem (s : State) (t : Word) : (s.setPc t).mem = s.mem := rfl
@[simp] theorem setPc_written (s : State) (t : Word) : (s.setPc t).written = s.written := rfl
@[simp] theorem setPc_cfg (s : State) (t : Word) : (s.setPc t).cfg = s.cfg := rfl
@[simp] theorem setPc_setPc (s : State) (t u : Word) : (s.setPc t).setPc u = s.setPc u := rfl
@[simp] theorem setPc_nextPc (s : State) (t : Word) : (s.setPc t).nextPc = BitVec.ofNat 32 (t.toNat + 4) := rfl

/-- `(pc + 4) mod 2^32` is the sum of bit vectors (R27). -/
theorem nextPc_eq (s : State) : s.nextPc = s.pc + 4 := by
  apply BitVec.eq_of_toNat_eq
  simp [State.nextPc, BitVec.toNat_add]

@[simp] theorem advance_regs (s : State) : s.advance.regs = s.regs := rfl
@[simp] theorem advance_pc (s : State) : s.advance.pc = s.pc + 4 := nextPc_eq s
@[simp] theorem advance_mem (s : State) : s.advance.mem = s.mem := rfl
@[simp] theorem advance_written (s : State) : s.advance.written = s.written := rfl
@[simp] theorem advance_cfg (s : State) : s.advance.cfg = s.cfg := rfl

@[simp] theorem writeReg_pc (s : State) (d : Reg) (v : Word) : (s.writeReg d v).pc = s.pc := by
  unfold State.writeReg; split <;> rfl
@[simp] theorem writeReg_mem (s : State) (d : Reg) (v : Word) : (s.writeReg d v).mem = s.mem := by
  unfold State.writeReg; split <;> rfl
@[simp] theorem writeReg_written (s : State) (d : Reg) (v : Word) : (s.writeReg d v).written = s.written := by
  unfold State.writeReg; split <;> rfl
@[simp] theorem writeReg_cfg (s : State) (d : Reg) (v : Word) : (s.writeReg d v).cfg = s.cfg := by
  unfold State.writeReg; split <;> rfl
@[simp] theorem writeReg_nextPc (s : State) (d : Reg) (v : Word) : (s.writeReg d v).nextPc = s.nextPc := by
  simp [State.nextPc]

/-- A write of `$zero` is discarded (R22). -/
@[simp] theorem writeReg_zero (s : State) (v : Word) : s.writeReg 0#5 v = s := by simp [State.writeReg]

/-- `$zero` reads 0 (R22). -/
@[simp] theorem readReg_zero (s : State) : s.readReg 0#5 = 0#32 := by simp [State.readReg]

@[simp] theorem readReg_setPc (s : State) (t : Word) (r : Reg) : (s.setPc t).readReg r = s.readReg r := rfl
@[simp] theorem readReg_advance (s : State) (r : Reg) : s.advance.readReg r = s.readReg r := rfl

/-- A register reads only the register file. -/
theorem readReg_congr {s t : State} (h : t.regs = s.regs) (r : Reg) : t.readReg r = s.readReg r := by
  simp [State.readReg, h]

/-- What a register reads after a write: register 0 stays 0, the written register has the value, every other is as
before (R22). -/
theorem readReg_writeReg (s : State) (d r : Reg) (v : Word) :
    (s.writeReg d v).readReg r = if r = 0 then 0 else if r = d then v else s.readReg r := by
  unfold State.readReg State.writeReg
  have hd := d.isLt
  have hr := r.isLt
  by_cases h0 : r = 0
  · simp [h0]
  · by_cases hd0 : d = 0
    · have h0' : ¬ r = 0#5 := h0
      subst hd0
      simp [h0']
    · simp only [h0, hd0, dite_false, if_false, Vector.getElem_set]
      have hrn : r.toNat ≠ 0 := fun h => h0 (BitVec.eq_of_toNat_eq (by simpa using h))
      have hdn : d.toNat ≠ 0 := fun h => hd0 (BitVec.eq_of_toNat_eq (by simpa using h))
      by_cases he : r = d
      · subst he; simp
      · have hne : d.toNat - 1 ≠ r.toNat - 1 := fun h => he (BitVec.eq_of_toNat_eq (by omega))
        simp [he, hne]

end Sys2Proof.Machine
end

