-- ==== Sys2Proof/Laws/Access.lean ====
section
/-! SUPPORT. What each access primitive can answer (20_memory.md R43, R48): one lemma per primitive and outcome. -/

namespace Sys2Proof.Machine

/-- `MemRead(addr, 4)` answers a word exactly when the address is aligned and inside memory and the bytes are known. -/
theorem memRead4_eq_ok {s : State} {a w : Word} :
    s.memRead4 a = .ok w ↔ a.toNat % 4 = 0 ∧ a.toNat + 3 < s.cfg.memSize ∧ s.wordAt a.toNat = .ok w := by
  unfold State.memRead4
  split_ifs with h1 h2
  · simp [h1]
  · simp; omega
  · exact ⟨fun h => ⟨by omega, by omega, h⟩, fun h => h.2.2⟩

/-- `MemRead(addr, 1)` answers a byte exactly when the address is inside memory and the byte is known. -/
theorem memRead1_eq_ok {s : State} {a : Word} {b : Byte} :
    s.memRead1 a = .ok b ↔ a.toNat < s.cfg.memSize ∧ s.mem.read a.toNat = some b := by
  unfold State.memRead1
  split_ifs with h1
  · simp; omega
  · have h1' : a.toNat < s.cfg.memSize := by omega
    cases hb : s.mem.read a.toNat <;> simp [h1']

/-- `MemWrite(addr, 4, v)` answers a state exactly when the address is aligned and inside memory, and which. -/
theorem memWrite4_eq_ok {s t : State} {a v : Word} :
    s.memWrite4 a v = .ok t ↔ a.toNat % 4 = 0 ∧ a.toNat + 3 < s.cfg.memSize ∧
      t = { s with mem := s.mem.writeWord a.toNat v, written := markWritten s.written (wordAddress a) } := by
  unfold State.memWrite4
  split_ifs with h1 h2
  · simp [h1]
  · simp; omega
  · constructor
    · intro h; injection h with h; exact ⟨by omega, by omega, h.symm⟩
    · rintro ⟨-, -, rfl⟩; rfl

/-- `MemWrite(addr, 1, v)` answers a state exactly when the address is inside memory, and which. -/
theorem memWrite1_eq_ok {s t : State} {a : Word} {v : Byte} :
    s.memWrite1 a v = .ok t ↔ a.toNat < s.cfg.memSize ∧
      t = { s with mem := s.mem.write a.toNat v, written := markWritten s.written (wordAddress a) } := by
  unfold State.memWrite1
  split_ifs with h1
  · simp; omega
  · constructor
    · intro h; injection h with h; exact ⟨by omega, h.symm⟩
    · rintro ⟨-, rfl⟩; rfl

/-- A word reads as its four bytes, when they are known. -/
theorem wordAt_eq_ok {s : State} {a : Nat} {w : Word} :
    s.wordAt a = .ok w ↔ ∃ b0 b1 b2 b3, s.mem.read a = some b0 ∧ s.mem.read (a + 1) = some b1 ∧
      s.mem.read (a + 2) = some b2 ∧ s.mem.read (a + 3) = some b3 ∧ w = wordOfBytes b0 b1 b2 b3 := by
  unfold State.wordAt
  split
  · next b0 b1 b2 b3 h0 h1 h2 h3 =>
    simp only [h0, h1, h2, h3, Option.some.injEq]
    constructor
    · intro h; injection h with h; exact ⟨b0, b1, b2, b3, rfl, rfl, rfl, rfl, h.symm⟩
    · rintro ⟨_, _, _, _, rfl, rfl, rfl, rfl, rfl⟩; rfl
  · next hn =>
    constructor
    · intro h; cases h
    · rintro ⟨b0, b1, b2, b3, h0, h1, h2, h3, -⟩
      exact absurd h3 (fun h3 => hn b0 b1 b2 b3 h0 h1 h2 h3)

/-- The fetch answers a word exactly when the pc is aligned and inside memory, the word is not one that stops the fetch
(R56), and its bytes are known (R48). -/
theorem fetch_eq_ok {s : State} {w : Word} :
    s.fetch = .ok w ↔ s.pc.toNat % 4 = 0 ∧ s.pc.toNat + 3 < s.cfg.memSize ∧
      ¬ (s.cfg.fetchStored = .stop ∧ s.pc.toNat ∈ s.written) ∧ s.wordAt s.pc.toNat = .ok w := by
  unfold State.fetch
  split_ifs with h1 h2 h3
  · simp [h1]
  · simp; omega
  · simp [h3]
  · simp only [h3, not_false_eq_true, true_and]
    constructor
    · intro h; exact ⟨by omega, by omega, h⟩
    · exact fun h => h.2.2

/-- A word just written reads back. -/
theorem wordAt_writeWord (s : State) (a : Nat) (w : Word) (ws : List Nat) :
    State.wordAt { s with mem := s.mem.writeWord a w, written := ws } a = .ok w := by
  rw [wordAt_eq_ok]
  refine ⟨_, _, _, _, ?_, ?_, ?_, ?_, (wordOfBytes_bytesOfWord w).symm⟩ <;> simp [read_writeWord]

end Sys2Proof.Machine
end

