-- ==== Sys2Proof/Laws/Arith.lean ====
section
/-! SUPPORT. The arithmetic of 40_alu_immediate.md R110-R115 and the operand forms (30_encoding.md R79, 20_memory.md R53,
42_branch_jump.md R145), once each in Lean's own bit-vector operations, so that no proof unfolds them. -/

namespace Sys2Proof.Machine

/-- `add32` is the sum of bit vectors (R110). -/
theorem add32_eq (a b : Word) : add32 a b = a + b := by
  apply BitVec.eq_of_toNat_eq; simp [add32, BitVec.toNat_add]

/-- `sub32` is the difference of bit vectors (R110). -/
theorem sub32_eq (a b : Word) : sub32 a b = a - b := by
  apply BitVec.eq_of_toInt_eq
  simp [sub32, BitVec.toInt_sub]
  rw [BitVec.toInt_eq_toNat_bmod, BitVec.toInt_eq_toNat_bmod]
  simp

/-- `mul32` is the product of bit vectors (R111). -/
theorem mul32_eq (a b : Word) : mul32 a b = a * b := by
  apply BitVec.eq_of_toNat_eq; simp [mul32, BitVec.toNat_mul]

/-- `not32` complements every bit (R112). -/
theorem not32_eq (a : Word) : not32 a = ~~~a := by
  unfold not32; rw [show (0xFFFFFFFF : Word) = BitVec.allOnes 32 from rfl, BitVec.xor_allOnes]

/-- `shl32` is the left shift of bit vectors (R114). -/
theorem shl32_eq (a : Word) (n : Nat) : shl32 a n = a <<< n := by
  apply BitVec.eq_of_toNat_eq; simp [shl32, BitVec.toNat_shiftLeft, Nat.shiftLeft_eq]

/-- `shrl32` is the logical right shift of bit vectors (R114). -/
theorem shrl32_eq (a : Word) (n : Nat) : shrl32 a n = a >>> n := by
  apply BitVec.eq_of_toNat_eq
  simp [shrl32, Nat.shiftRight_eq_div_pow]
  exact lt_of_le_of_lt (Nat.div_le_self _ _) a.isLt

/-- `shra32` is the arithmetic right shift of bit vectors (R114). -/
theorem shra32_eq (a : Word) (n : Nat) : shra32 a n = a.sshiftRight n := by
  apply BitVec.eq_of_toInt_eq
  simp only [shra32, BitVec.toInt_sshiftRight, BitVec.toInt_ofInt, Int.shiftRight_eq_div_pow]
  have h1 := BitVec.toInt_lt (x := a); have h2 := BitVec.le_toInt (x := a)
  have e : ((2:Int)^n) = (((2^n : Nat)) : Int) := by push_cast; rfl
  have hp : (0:Int) < ((2^n : Nat) : Int) := by positivity
  have hp1 : (1:Int) ≤ ((2^n : Nat) : Int) := hp
  rw [e]
  generalize ((2^n : Nat) : Int) = p at *
  apply Int.bmod_eq_of_le
  · norm_num at *
    rw [Int.le_ediv_iff_mul_le hp]; nlinarith
  · norm_num at *
    rw [Int.ediv_lt_iff_lt_mul hp]; nlinarith

/-- A shift is the one `shifted` says, `SSL` under the reading of D10 (R114, R115). -/
theorem shift_eq_shifted (c : Config) (op : ShiftOp) (a b : Word) (h : op = .ssl → c.sshl = .asUnsigned) :
    shift c op a b = shifted op a b := by
  unfold shift shifted
  split
  · cases op <;> simp [shl32_eq, shrl32_eq, shra32_eq]
    simp [sshl32, h rfl, shl32_eq]
  · rfl

/-- `div32` read signed and rounded toward zero (R113, D8). -/
theorem div32_eq_truncatedQuotient (c : Config) (a b : Word) (h1 : c.divSigned = true) (h2 : c.divRound = .towardZero) :
    div32 c a b = truncatedQuotient a b := by
  have e1 : b.toInt = 0 ↔ b = 0 := by rw [← BitVec.toInt_inj]; rfl
  have e2 : a.toInt = -2^31 ↔ a = 0x80000000 := by rw [← BitVec.toInt_inj]; rfl
  have e3 : b.toInt = -1 ↔ b = 0xFFFFFFFF := by rw [← BitVec.toInt_inj]; rfl
  unfold div32 truncatedQuotient
  simp only [h1, h2, if_true, e1, e2, e3, roundedQuotient]
  by_cases hb : b = 0
  · simp [hb]
  · simp only [hb, if_false, false_or]

/-- `div32` read unsigned, the divisor not zero (R113). -/
theorem div32_unsigned (c : Config) (a b : Word) (h1 : c.divSigned = false) (h : b ≠ 0) : div32 c a b = a / b := by
  have hb : b.toNat ≠ 0 := fun hh => h (BitVec.eq_of_toNat_eq (by simpa using hh))
  simp only [div32, h1, hb, if_false, Bool.false_eq_true]
  apply BitVec.eq_of_toNat_eq
  simp
  exact lt_of_le_of_lt (Nat.div_le_self _ _) a.isLt

/-- `div32` by zero, whatever the reading (R113). -/
theorem div32_zero (c : Config) (a : Word) : div32 c a 0 = Config.divCorner a 0 := by
  simp [div32]

/-- The widened immediate in bit-vector operations (R79). -/
theorem immValue_eq (e : Ext) (i : Imm) : immValue e i = widened e i := by
  cases e
  · apply BitVec.eq_of_toInt_eq
    rw [immValue, sextImm, widened, BitVec.toInt_signExtend_of_le (by omega), BitVec.toInt_ofInt]
    have h1 := BitVec.toInt_lt (x := i); have h2 := BitVec.le_toInt (x := i)
    apply Int.bmod_eq_of_le <;> norm_num at * <;> omega
  · apply BitVec.eq_of_toNat_eq; simp [immValue, zextImm, widened]

/-- The sign-extended immediate in bit-vector operations (R79). -/
theorem sextImm_eq (i : Imm) : sextImm i = i.signExtend 32 := immValue_eq .sign i

/-- The sign-extended byte in bit-vector operations (R121). -/
theorem sextByte_eq (b : Byte) : sextByte b = b.signExtend 32 := by
    apply BitVec.eq_of_toInt_eq
    rw [sextByte, BitVec.toInt_signExtend_of_le (by omega), BitVec.toInt_ofInt]
    have h1 := BitVec.toInt_lt (x := b); have h2 := BitVec.le_toInt (x := b)
    apply Int.bmod_eq_of_le <;> norm_num at * <;> omega

/-- `ea_byte` is a sum of bit vectors (R53). -/
theorem eaByte_eq (a i : Word) : eaByte a i = a + i := by
  apply BitVec.eq_of_toInt_eq
  simp only [eaByte, BitVec.toInt_ofInt, BitVec.toInt_add]
  rw [BitVec.toInt_eq_toNat_bmod a]; simp

/-- `ea_word` is a sum of bit vectors (R53). -/
theorem eaWord_eq (a i : Word) : eaWord a i = a + i * 4 := by
  apply BitVec.eq_of_toInt_eq
  simp only [eaWord, BitVec.toInt_ofInt, BitVec.toInt_add, BitVec.toInt_mul]
  rw [BitVec.toInt_eq_toNat_bmod a]; simp [mul_comm]

/-- The branch target is the immediate shifted left by 2 (R145). -/
theorem branchTarget_eq (i : Word) : branchTarget i = i <<< 2 := by
  apply BitVec.eq_of_toInt_eq
  rw [BitVec.shiftLeft_eq_mul_twoPow, branchTarget, BitVec.toInt_mul, BitVec.toInt_ofInt]
  rfl

/-- The constant of `LUI` is the field shifted left by 15 (R124). -/
theorem luiValue_eq (i : Imm) : luiValue i = i.setWidth 32 <<< 15 := by
  apply BitVec.eq_of_getLsbD_eq
  intro k hk
  simp only [luiValue, BitVec.getLsbD_append]
  interval_cases k <;> simp

/-- A value fits `SB` exactly when it lies in -128 .. 255 (R123, D18). -/
theorem sbFits_iff (v : Word) : sbFits v = true ↔ -128 ≤ v.toInt ∧ v.toInt ≤ 255 := by
  unfold sbFits
  simp only [Bool.or_eq_true, beq_iff_eq, ← BitVec.toNat_inj]
  have := v.isLt
  simp [Nat.shiftRight_eq_div_pow, BitVec.toInt_eq_toNat_cond]
  omega

/-- The big-endian value of four bytes (R42). -/
theorem wordOfBytes_toNat (b0 b1 b2 b3 : Byte) : (wordOfBytes b0 b1 b2 b3).toNat =
    b0.toNat * 2 ^ 24 + b1.toNat * 2 ^ 16 + b2.toNat * 2 ^ 8 + b3.toNat := by
  have := b0.isLt; have := b1.isLt; have := b2.isLt; have := b3.isLt
  unfold wordOfBytes
  rw [BitVec.toNat_append, BitVec.toNat_append, BitVec.toNat_append]
  rw [← Nat.shiftLeft_add_eq_or_of_lt (by omega), ← Nat.shiftLeft_add_eq_or_of_lt (by omega), ← Nat.shiftLeft_add_eq_or_of_lt (by omega)]
  simp only [Nat.shiftLeft_eq]
  omega

end Sys2Proof.Machine
end

