-- ==== Sys2Proof/Laws/Encoding.lean ====
section
/-! SUPPORT. The two instruction formats read back field by field (30_encoding.md R72, R73), and the lookup of an opcode
value under a well-formed opcode map (R75). -/

namespace Sys2Proof

/-! ## Fields of the immediate format -/

section
variable (op1 : Opcode) (arg1 mid : Reg) (imm : Imm)

@[simp] theorem fieldOp1_immediateWord : fieldOp1 (immediateWord op1 arg1 mid imm) = op1 := by
  apply BitVec.eq_of_getLsbD_eq
  intro i hi
  simp only [fieldOp1, immediateWord, BitVec.getLsbD_extractLsb', BitVec.getLsbD_append]
  interval_cases i <;> simp

@[simp] theorem fieldArg1_immediateWord : fieldArg1 (immediateWord op1 arg1 mid imm) = arg1 := by
  apply BitVec.eq_of_getLsbD_eq
  intro i hi
  simp only [fieldArg1, immediateWord, BitVec.getLsbD_extractLsb', BitVec.getLsbD_append]
  interval_cases i <;> simp

@[simp] theorem fieldMid_immediateWord : fieldMid (immediateWord op1 arg1 mid imm) = mid := by
  apply BitVec.eq_of_getLsbD_eq
  intro i hi
  simp only [fieldMid, immediateWord, BitVec.getLsbD_extractLsb', BitVec.getLsbD_append]
  interval_cases i <;> simp

@[simp] theorem fieldImm_immediateWord : fieldImm (immediateWord op1 arg1 mid imm) = imm := by
  apply BitVec.eq_of_getLsbD_eq
  intro i hi
  simp only [fieldImm, immediateWord, BitVec.getLsbD_extractLsb', BitVec.getLsbD_append]
  simp [hi]

end

/-! ## Fields of the non-immediate format -/

section
variable (arg1 arg2 argD : Reg) (op2 : Opcode)

@[simp] theorem fieldOp1_nonImmediateWord : fieldOp1 (nonImmediateWord arg1 arg2 argD op2) = 0#5 := by
  apply BitVec.eq_of_getLsbD_eq
  intro i hi
  simp only [fieldOp1, nonImmediateWord, BitVec.getLsbD_extractLsb', BitVec.getLsbD_append]
  interval_cases i <;> simp

@[simp] theorem fieldArg1_nonImmediateWord : fieldArg1 (nonImmediateWord arg1 arg2 argD op2) = arg1 := by
  apply BitVec.eq_of_getLsbD_eq
  intro i hi
  simp only [fieldArg1, nonImmediateWord, BitVec.getLsbD_extractLsb', BitVec.getLsbD_append]
  interval_cases i <;> simp

@[simp] theorem fieldMid_nonImmediateWord : fieldMid (nonImmediateWord arg1 arg2 argD op2) = arg2 := by
  apply BitVec.eq_of_getLsbD_eq
  intro i hi
  simp only [fieldMid, nonImmediateWord, BitVec.getLsbD_extractLsb', BitVec.getLsbD_append]
  interval_cases i <;> simp

@[simp] theorem fieldArgD_nonImmediateWord : fieldArgD (nonImmediateWord arg1 arg2 argD op2) = argD := by
  apply BitVec.eq_of_getLsbD_eq
  intro i hi
  simp only [fieldArgD, nonImmediateWord, BitVec.getLsbD_extractLsb', BitVec.getLsbD_append]
  interval_cases i <;> simp

@[simp] theorem fieldEmpty_nonImmediateWord : fieldEmpty (nonImmediateWord arg1 arg2 argD op2) = 0#7 := by
  apply BitVec.eq_of_getLsbD_eq
  intro i hi
  simp only [fieldEmpty, nonImmediateWord, BitVec.getLsbD_extractLsb', BitVec.getLsbD_append]
  interval_cases i <;> simp

@[simp] theorem fieldOp2_nonImmediateWord : fieldOp2 (nonImmediateWord arg1 arg2 argD op2) = op2 := by
  apply BitVec.eq_of_getLsbD_eq
  intro i hi
  simp only [fieldOp2, nonImmediateWord, BitVec.getLsbD_extractLsb', BitVec.getLsbD_append]
  simp [hi]

end

/-! ## Opcode lookup -/

/-- In a list whose values rise strictly, looking a member's value up finds the member. -/
theorem find?_of_rising {α : Type} {n : Nat} (f : α → BitVec n) {l : List α} (h : (l.map f).Pairwise (· < ·)) {p : α}
    (hp : p ∈ l) : l.find? (fun q => f q == f p) = some p := by
  induction l with
  | nil => cases hp
  | cons q l ih =>
    simp only [List.map_cons, List.pairwise_cons] at h
    rcases List.mem_cons.mp hp with rfl | hp
    · simp
    · have hlt : f q < f p := h.1 _ (List.mem_map.mpr ⟨p, hp, rfl⟩)
      have hne : (f q == f p) = false := by
        rw [beq_eq_false_iff_ne]
        rintro he
        rw [he, BitVec.lt_def] at hlt
        omega
      simp [List.find?, hne, ih h.2 hp]

theorem Primary.mem_all (p : Primary) : p ∈ Primary.all := by cases p <;> decide
theorem Secondary.mem_all (p : Secondary) : p ∈ Secondary.all := by cases p <;> decide

/-- A primary opcode's value is assigned to it (R75, R76). -/
theorem primaryOf_op1 {m : OpMap} (h : m.Wf) (p : Primary) : m.primaryOf (m.op1 p) = some p :=
  find?_of_rising m.op1 h.1 p.mem_all

/-- A secondary opcode's value is assigned to it (R75, R77). -/
theorem secondaryOf_op2 {m : OpMap} (h : m.Wf) (p : Secondary) : m.secondaryOf (m.op2 p) = some p :=
  find?_of_rising m.op2 h.2 p.mem_all

/-- An assigned value of `OP1` is that opcode's value. -/
theorem op1_of_primaryOf {m : OpMap} {c : Opcode} {p : Primary} (h : m.primaryOf c = some p) : m.op1 p = c := by
  simpa using List.find?_some h

/-- An assigned value of `OP2` is that opcode's value. -/
theorem op2_of_secondaryOf {m : OpMap} {c : Opcode} {p : Secondary} (h : m.secondaryOf c = some p) : m.op2 p = c := by
  simpa using List.find?_some h

/-- `OP1 = 00000` is the escape under every opcode map (R74, R75 (d)). -/
@[simp] theorem primaryOf_zero (m : OpMap) : m.primaryOf 0#5 = some .alui := by
  simp [OpMap.primaryOf, Primary.all, OpMap.op1]

/-- The spec's opcode map keeps the constraints of R75. -/
theorem decided_wf : OpMap.decided.Wf := by decide

/-- The spec's opcode map gives the two shift rows the same columns (R77). -/
theorem decided_shiftRowsTied : OpMap.decided.ShiftRowsTied := by decide

end Sys2Proof
end

