-- ==== Sys2Proof/Laws/PerInstr.lean ====
section
/-! SUPPORT. Statements about every instruction as syntax, one lemma per constructor. Family `OpcodeField`: the encoder
puts the opcode that the map gives the instruction's row where the formats have it (30_encoding.md R72-R74). -/

namespace Sys2Proof.Laws.OpcodeField

/-- The row of the primary table an instruction belongs to (R76); the secondary instructions belong to `ALUI` (R74). -/
def row (i : Instr) : Primary :=
  match i with
  | .alui _ _ _ _ => .alui
  | .addi _ _ _ => .addi
  | .mlti _ _ _ => .mlti
  | .divi _ _ _ => .divi
  | .andi _ _ _ => .andi
  | .ori _ _ _ => .ori
  | .xori _ _ _ => .xori
  | .suli _ _ _ => .suli
  | .ssli _ _ _ => .ssli
  | .suri _ _ _ => .suri
  | .ssri _ _ _ => .ssri
  | .lw _ _ _ => .lw
  | .lb _ _ _ => .lb
  | .sw _ _ _ => .sw
  | .sb _ _ _ => .sb
  | .lui _ _ => .lui
  | .beq _ _ _ => .beq
  | .bne _ _ _ => .bne
  | .blt _ _ _ => .blt
  | .ble _ _ _ => .ble
  | .jal _ _ => .jal
  | .sub _ _ _ => .alui
  | .add _ _ _ => .alui
  | .mlt _ _ _ => .alui
  | .div _ _ _ => .alui
  | .not _ _ => .alui
  | .and _ _ _ => .alui
  | .or _ _ _ => .alui
  | .xor _ _ _ => .alui
  | .sul _ _ _ => .alui
  | .ssl _ _ _ => .alui
  | .sur _ _ _ => .alui
  | .ssr _ _ _ => .alui
  | .eq _ _ _ => .alui
  | .neq _ _ _ => .alui
  | .lt _ _ _ => .alui
  | .leq _ _ _ => .alui

/-- `OP1` of the word is the value of the instruction's row, and the four bytes in memory join to the word. -/
def Statement (i : Instr) : Prop :=
  ∀ m : OpMap, fieldOp1 (encode m i) = m.op1 (row i) ∧ (encodeBytes m i).length = 4

theorem alui (arg1 : Reg) (arg2 : Reg) (argD : Reg) (op2 : Opcode) : Statement (.alui arg1 arg2 argD op2) :=
  fun _ => ⟨fieldOp1_nonImmediateWord _ _ _ _, rfl⟩
theorem addi (argD : Reg) (arg1 : Reg) (imm : Imm) : Statement (.addi argD arg1 imm) :=
  fun _ => ⟨fieldOp1_immediateWord _ _ _ _, rfl⟩
theorem mlti (argD : Reg) (arg1 : Reg) (imm : Imm) : Statement (.mlti argD arg1 imm) :=
  fun _ => ⟨fieldOp1_immediateWord _ _ _ _, rfl⟩
theorem divi (argD : Reg) (arg1 : Reg) (imm : Imm) : Statement (.divi argD arg1 imm) :=
  fun _ => ⟨fieldOp1_immediateWord _ _ _ _, rfl⟩
theorem andi (argD : Reg) (arg1 : Reg) (imm : Imm) : Statement (.andi argD arg1 imm) :=
  fun _ => ⟨fieldOp1_immediateWord _ _ _ _, rfl⟩
theorem ori (argD : Reg) (arg1 : Reg) (imm : Imm) : Statement (.ori argD arg1 imm) :=
  fun _ => ⟨fieldOp1_immediateWord _ _ _ _, rfl⟩
theorem xori (argD : Reg) (arg1 : Reg) (imm : Imm) : Statement (.xori argD arg1 imm) :=
  fun _ => ⟨fieldOp1_immediateWord _ _ _ _, rfl⟩
theorem suli (argD : Reg) (arg1 : Reg) (imm : Imm) : Statement (.suli argD arg1 imm) :=
  fun _ => ⟨fieldOp1_immediateWord _ _ _ _, rfl⟩
theorem ssli (argD : Reg) (arg1 : Reg) (imm : Imm) : Statement (.ssli argD arg1 imm) :=
  fun _ => ⟨fieldOp1_immediateWord _ _ _ _, rfl⟩
theorem suri (argD : Reg) (arg1 : Reg) (imm : Imm) : Statement (.suri argD arg1 imm) :=
  fun _ => ⟨fieldOp1_immediateWord _ _ _ _, rfl⟩
theorem ssri (argD : Reg) (arg1 : Reg) (imm : Imm) : Statement (.ssri argD arg1 imm) :=
  fun _ => ⟨fieldOp1_immediateWord _ _ _ _, rfl⟩
theorem lw (argD : Reg) (arg1 : Reg) (imm : Imm) : Statement (.lw argD arg1 imm) :=
  fun _ => ⟨fieldOp1_immediateWord _ _ _ _, rfl⟩
theorem lb (argD : Reg) (arg1 : Reg) (imm : Imm) : Statement (.lb argD arg1 imm) :=
  fun _ => ⟨fieldOp1_immediateWord _ _ _ _, rfl⟩
theorem sw (arg1 : Reg) (arg2 : Reg) (imm : Imm) : Statement (.sw arg1 arg2 imm) :=
  fun _ => ⟨fieldOp1_immediateWord _ _ _ _, rfl⟩
theorem sb (arg1 : Reg) (arg2 : Reg) (imm : Imm) : Statement (.sb arg1 arg2 imm) :=
  fun _ => ⟨fieldOp1_immediateWord _ _ _ _, rfl⟩
theorem lui (argD : Reg) (imm : Imm) : Statement (.lui argD imm) :=
  fun _ => ⟨fieldOp1_immediateWord _ _ _ _, rfl⟩
theorem beq (arg1 : Reg) (arg2 : Reg) (imm : Imm) : Statement (.beq arg1 arg2 imm) :=
  fun _ => ⟨fieldOp1_immediateWord _ _ _ _, rfl⟩
theorem bne (arg1 : Reg) (arg2 : Reg) (imm : Imm) : Statement (.bne arg1 arg2 imm) :=
  fun _ => ⟨fieldOp1_immediateWord _ _ _ _, rfl⟩
theorem blt (arg1 : Reg) (arg2 : Reg) (imm : Imm) : Statement (.blt arg1 arg2 imm) :=
  fun _ => ⟨fieldOp1_immediateWord _ _ _ _, rfl⟩
theorem ble (arg1 : Reg) (arg2 : Reg) (imm : Imm) : Statement (.ble arg1 arg2 imm) :=
  fun _ => ⟨fieldOp1_immediateWord _ _ _ _, rfl⟩
theorem jal (arg1 : Reg) (argD : Reg) : Statement (.jal arg1 argD) :=
  fun _ => ⟨fieldOp1_immediateWord _ _ _ _, rfl⟩
theorem sub (argD : Reg) (arg1 : Reg) (arg2 : Reg) : Statement (.sub argD arg1 arg2) :=
  fun _ => ⟨fieldOp1_nonImmediateWord _ _ _ _, rfl⟩
theorem add (argD : Reg) (arg1 : Reg) (arg2 : Reg) : Statement (.add argD arg1 arg2) :=
  fun _ => ⟨fieldOp1_nonImmediateWord _ _ _ _, rfl⟩
theorem mlt (argD : Reg) (arg1 : Reg) (arg2 : Reg) : Statement (.mlt argD arg1 arg2) :=
  fun _ => ⟨fieldOp1_nonImmediateWord _ _ _ _, rfl⟩
theorem div (argD : Reg) (arg1 : Reg) (arg2 : Reg) : Statement (.div argD arg1 arg2) :=
  fun _ => ⟨fieldOp1_nonImmediateWord _ _ _ _, rfl⟩
theorem not (argD : Reg) (arg1 : Reg) : Statement (.not argD arg1) :=
  fun _ => ⟨fieldOp1_nonImmediateWord _ _ _ _, rfl⟩
theorem and (argD : Reg) (arg1 : Reg) (arg2 : Reg) : Statement (.and argD arg1 arg2) :=
  fun _ => ⟨fieldOp1_nonImmediateWord _ _ _ _, rfl⟩
theorem or (argD : Reg) (arg1 : Reg) (arg2 : Reg) : Statement (.or argD arg1 arg2) :=
  fun _ => ⟨fieldOp1_nonImmediateWord _ _ _ _, rfl⟩
theorem xor (argD : Reg) (arg1 : Reg) (arg2 : Reg) : Statement (.xor argD arg1 arg2) :=
  fun _ => ⟨fieldOp1_nonImmediateWord _ _ _ _, rfl⟩
theorem sul (argD : Reg) (arg1 : Reg) (arg2 : Reg) : Statement (.sul argD arg1 arg2) :=
  fun _ => ⟨fieldOp1_nonImmediateWord _ _ _ _, rfl⟩
theorem ssl (argD : Reg) (arg1 : Reg) (arg2 : Reg) : Statement (.ssl argD arg1 arg2) :=
  fun _ => ⟨fieldOp1_nonImmediateWord _ _ _ _, rfl⟩
theorem sur (argD : Reg) (arg1 : Reg) (arg2 : Reg) : Statement (.sur argD arg1 arg2) :=
  fun _ => ⟨fieldOp1_nonImmediateWord _ _ _ _, rfl⟩
theorem ssr (argD : Reg) (arg1 : Reg) (arg2 : Reg) : Statement (.ssr argD arg1 arg2) :=
  fun _ => ⟨fieldOp1_nonImmediateWord _ _ _ _, rfl⟩
theorem eq (argD : Reg) (arg1 : Reg) (arg2 : Reg) : Statement (.eq argD arg1 arg2) :=
  fun _ => ⟨fieldOp1_nonImmediateWord _ _ _ _, rfl⟩
theorem neq (argD : Reg) (arg1 : Reg) (arg2 : Reg) : Statement (.neq argD arg1 arg2) :=
  fun _ => ⟨fieldOp1_nonImmediateWord _ _ _ _, rfl⟩
theorem lt (argD : Reg) (arg1 : Reg) (arg2 : Reg) : Statement (.lt argD arg1 arg2) :=
  fun _ => ⟨fieldOp1_nonImmediateWord _ _ _ _, rfl⟩
theorem leq (argD : Reg) (arg1 : Reg) (arg2 : Reg) : Statement (.leq argD arg1 arg2) :=
  fun _ => ⟨fieldOp1_nonImmediateWord _ _ _ _, rfl⟩

end Sys2Proof.Laws.OpcodeField
end

