-- ==== Sys2Proof/Laws/Results.lean ====
section
/-! SUPPORT. What the common ends of the instructions can answer: a register result, a load, a store, a branch
(40_alu_immediate.md R117, 41_load_store_lui.md R120-R123, 42_branch_jump.md R145). -/

namespace Sys2Proof.Machine

/-- A register result always completes, and this is all it does (R117). -/
theorem writeResult_wrote (s : State) (d : Reg) (v : Word) :
    ∃ t, writeResult d v s = .next t ∧ WroteReg s d v (s.pc + 4) t :=
  ⟨_, rfl, ⟨fun r => by simpa using readReg_writeReg s d r v, by simp, ⟨by simp, by simp⟩, by simp⟩⟩

/-- A load completes exactly when its read does, and then ends as a register result (R120, R121). -/
theorem loadResult_next {d : Reg} {r : Except Fault Word} {s t : State} :
    loadResult d r s = .next t ↔ ∃ v, r = .ok v ∧ writeResult d v s = .next t := by
  cases r with
  | error f => simp [loadResult, raiseUndefined]
  | ok v => simp [loadResult]

/-- A store completes exactly when its write does, and then only the pc moves on (R122, R123). -/
theorem storeResult_next {r : Except Fault State} {t : State} :
    storeResult r = .next t ↔ ∃ u, r = .ok u ∧ t = u.advance := by
  cases r with
  | error f => simp [storeResult, raiseUndefined]
  | ok v => simp [storeResult, eq_comm]

/-- A branch always completes, and this is all it does (R145). -/
theorem branchTo_jumped (c : Bool) (i : Word) (s : State) :
    ∃ t, branchTo c i s = .next t ∧ Jumped s (if c then branchTarget i else s.pc + 4) t := by
  cases c
  · exact ⟨_, rfl, ⟨fun r => by simp, by simp, ⟨by simp, by simp⟩, by simp⟩⟩
  · exact ⟨_, rfl, ⟨fun r => by simp, by simp, ⟨by simp, by simp⟩, by simp⟩⟩

end Sys2Proof.Machine
end

