-- ==== Sys2Proof/Laws/Run.lean ====
section
/-! SUPPORT. What a run can do, said once (70_reset_and_hazards.md R260): runs join, a run begins or ends with one step,
and each of the ways in which `runUntilEnd` goes on or ends. -/

namespace Sys2Proof.Machine

/-- `j + k` steps are `j` steps and then `k`. -/
theorem Marked.run_add (j k : Nat) (m : Marked) : Marked.run (j + k) m = Marked.run k (Marked.run j m) := by
  induction j generalizing m with
  | zero => rw [Nat.zero_add]; rfl
  | succ j ih => rw [Nat.succ_add, Marked.run, ih, Marked.run]

/-- A marked step ends without the mark exactly when it began without it and the step answered a next state. -/
theorem Marked.step_eq_running {m : Marked} {t : State} :
    m.step = ⟨t, none⟩ ↔ m.stopped = none ∧ Machine.step m.state = .next t := by
  obtain ⟨s, mark⟩ := m
  cases mark with
  | some w => simp [Marked.step]
  | none => cases h : Machine.step s <;> simp [Marked.step, h]

/-- A run of no steps is where it began. -/
@[simp] theorem runFrom_zero (s : State) : runFrom 0 s = ⟨s, none⟩ := rfl

/-- The last step of a run. -/
theorem runFrom_succ (k : Nat) (s : State) : runFrom (k + 1) s = (runFrom k s).step := Marked.run_add k 1 _

/-- The first step of a run, when it answers a next state. -/
theorem runFrom_of_next {s u : State} (h : step s = .next u) (k : Nat) : runFrom (k + 1) s = runFrom k u := by
  unfold runFrom
  rw [Marked.run, Marked.step_eq_running.mpr ⟨rfl, h⟩]

/-- A run that has not stopped after `k + 1` steps had not after `k`, and its last step answered its last state. -/
theorem runFrom_succ_running {k : Nat} {s t : State} :
    runFrom (k + 1) s = ⟨t, none⟩ ↔ ∃ u, runFrom k s = ⟨u, none⟩ ∧ step u = .next t := by
  rw [runFrom_succ, Marked.step_eq_running]
  constructor
  · rintro ⟨h, hs⟩
    exact ⟨(runFrom k s).state, by rw [← h], hs⟩
  · rintro ⟨u, h, hs⟩
    rw [h]
    exact ⟨rfl, hs⟩

/-- A run whose condition holds is complete there (R256). -/
theorem runUntilEnd_of_halts {k : Nat} {s : State} (h : haltsAt s.cfg.halt k s = true) (fuel : Nat) :
    runUntilEnd fuel k s = .complete k s := by
  cases fuel <;> simp [runUntilEnd, h]

/-- A run whose condition does not hold takes its next step, if it is allowed one (R260). -/
theorem runUntilEnd_of_next {k : Nat} {s t : State} (h : haltsAt s.cfg.halt k s = false) (hs : step s = .next t)
    (fuel : Nat) : runUntilEnd (fuel + 1) k s = runUntilEnd fuel (k + 1) t := by
  rw [runUntilEnd, if_neg (by simp [h])]
  simp only [hs]

/-- A run whose condition does not hold stops where its step raises (R231, R260). -/
theorem runUntilEnd_of_fault {k : Nat} {s : State} {f : Fault} (h : haltsAt s.cfg.halt k s = false)
    (hs : step s = .fault f) (fuel : Nat) : runUntilEnd (fuel + 1) k s = .stopped k s (.fault f) := by
  rw [runUntilEnd, if_neg (by simp [h])]
  simp only [hs]

end Sys2Proof.Machine
end

