-- ==== Sys2Proof/Laws/Step.lean ====
section
/-! SUPPORT. What one step can do, said once: every next state of an instruction is a register write with a new pc, or a
store followed by the advance of the pc (10_state.md R30), and every next state of a step is an instruction's. -/

namespace Sys2Proof.Machine

/-- The shapes of a next state (R30): register `d` and the pc; one byte stored; one word stored. -/
inductive NextShape (s : State) : State → Prop where
  | reg (d : Reg) (v pc : Word) : NextShape s ((s.writeReg d v).setPc pc)
  | byte (a : Word) (v : Byte) (t : State) : s.memWrite1 a v = .ok t → NextShape s t.advance
  | word (a v : Word) (t : State) : s.memWrite4 a v = .ok t → NextShape s t.advance

theorem writeResult_shape {d : Reg} {v : Word} {s t : State} (h : writeResult d v s = .next t) : NextShape s t := by
  injection h with h
  subst h
  exact .reg d v _

theorem loadResult_shape {d : Reg} {r : Except Fault Word} {s t : State} (h : loadResult d r s = .next t) :
    NextShape s t := by
  unfold loadResult at h
  split at h
  · exact writeResult_shape h
  · cases h

theorem branchTo_shape {c : Bool} {imm32 : Word} {s t : State} (h : branchTo c imm32 s = .next t) : NextShape s t := by
  injection h with h
  subst h
  have key : ∀ p, NextShape s (s.setPc p) := fun p => by simpa using NextShape.reg (s := s) 0 0 p
  split <;> exact key _

theorem execSw_shape {r b : Reg} {imm : Imm} {s t : State} (h : execSw r b imm s = .next t) : NextShape s t := by
  unfold execSw storeResult at h
  split at h
  · next u hu => injection h with h; subst h; exact .word _ _ u hu
  · cases h

theorem execSb_shape {r b : Reg} {imm : Imm} {s t : State} (h : execSb r b imm s = .next t) : NextShape s t := by
  unfold execSb storeResult at h
  split at h
  · split at h
    · next u hu => injection h with h; subst h; exact .byte _ _ u hu
    · cases h
  · cases h

/-- A step that answers a next state has executed the instruction that the fetched word decodes to (R260). -/
theorem step_next {s t : State} (h : step s = .next t) :
    ∃ w i, s.fetch = .ok w ∧ decode s.cfg.opMap w = .ok i ∧ exec i s = .next t := by
  unfold step at h
  split at h
  · cases h
  · next w hw =>
    split at h
    · cases h
    · next i hi => exact ⟨w, i, hw, hi, h⟩

/-- A step executes the instruction that the fetched word decodes to (R260). -/
theorem step_of_decode {s : State} {w : Word} {i : Instr} (hw : s.fetch = .ok w)
    (hi : decode s.cfg.opMap w = .ok i) : step s = exec i s := by
  simp [step, hw, hi]

/-- Whatever an instruction answers as a next state has one of the shapes (R30). -/
theorem exec_shape {i : Instr} {s t : State} (h : exec i s = .next t) : NextShape s t := by
  cases i with
  | alui a b d op =>
    simp only [exec, execAlui] at h
    split at h
    case h_1 => cases h
    case h_6 =>
      split at h
      · cases h
      · exact writeResult_shape h
    all_goals exact writeResult_shape h
  | lw d a imm => exact loadResult_shape h
  | lb d a imm => exact loadResult_shape h
  | sw r b imm => exact execSw_shape h
  | sb r b imm => exact execSb_shape h
  | beq a b imm => exact branchTo_shape h
  | bne a b imm => exact branchTo_shape h
  | blt a b imm => exact branchTo_shape h
  | ble a b imm => exact branchTo_shape h
  | jal l d => injection h with h; subst h; exact .reg l _ _
  | _ => exact writeResult_shape h

/-- Every next state of a step has one of the shapes. -/
theorem step_shape {s t : State} (h : step s = .next t) : NextShape s t := by
  obtain ⟨_, _, _, _, h⟩ := step_next h
  exact exec_shape h

end Sys2Proof.Machine
end

