-- ==== Sys2Proof/Tests/Slice0.lean ====
section
/-! SUPPORT. Tests. Every expected result is the spec's: the table of spec/95_test_vectors.md that a section names, or the
rule in the theorem's docstring. The witnesses at the end meet the hypotheses of the statements of the same name. -/

namespace Sys2Proof.Tests

open Sys2Proof.Machine

/-! ## Well-formedness: one ill-formed term for each check -/

/-- `OP2` 01100 is unassigned (R83). -/
theorem test_wf_refuses_unassigned_op2 : Instr.wf OpMap.decided (.alui 5 6 7 0b01100) = false := by decide
/-- The unused `ARG2` of `NOT` must be zero (R82). -/
theorem test_wf_refuses_not_arg2 : Instr.wf OpMap.decided (.alui 6 1 5 0b00100) = false := by decide
theorem test_wf_accepts_not : Instr.wf OpMap.decided (.alui 6 0 5 0b00100) = true := by decide
theorem test_config_wf_decided : Config.decided.Wf := by decide
/-- `MEM_SIZE` is a multiple of 4, at least 4, at most 2^32 (R44). -/
theorem test_config_refuses_odd_size : ¬ { Config.decided with memSize := 6 }.Wf := by decide
theorem test_config_refuses_no_memory : ¬ { Config.decided with memSize := 0 }.Wf := by decide
theorem test_config_refuses_too_much_memory : ¬ { Config.decided with memSize := 0x100000004 }.Wf := by decide
/-- `RESET_PC` is a multiple of 4 (R28). -/
theorem test_config_refuses_misaligned_reset : ¬ { Config.decided with resetPc := 2 }.Wf := by decide
/-- Columns rise within a row (R75): `ADDI` and `MLTI` exchanged; two opcodes on one value; the secondary map likewise. -/
theorem test_config_refuses_map_order :
    ¬ { Config.decided with opMap := { OpMap.decided with addi := 2, mlti := 1 } }.Wf := by decide
theorem test_config_refuses_map_clash :
    ¬ { Config.decided with opMap := { OpMap.decided with lb := 0 } }.Wf := by decide
theorem test_config_refuses_secondary_order :
    ¬ { Config.decided with opMap := { OpMap.decided with eq := 1, neq := 0 } }.Wf := by decide
/-- Memory in canonical form: addresses rise (no address twice). -/
theorem test_memory_wf_refuses_disorder : ¬ Memory.wf [(4, 1), (4, 2)] := by decide

/-! ## Decoding (V5-V11, V13): the word of each constructor -/

theorem test_decode_addi : decodeTableWord 32 0x080A0005 = some (.addi 5 0 5) := by decide
theorem test_decode_mlti : decodeTableWord 32 0x114DFFFD = some (.mlti 6 5 0x1FFFD) := by decide
theorem test_decode_divi : decodeTableWord 32 0x194C0002 = some (.divi 6 5 2) := by decide
theorem test_decode_andi : decodeTableWord 32 0x294CFFFF = some (.andi 6 5 0xFFFF) := by decide
theorem test_decode_ori : decodeTableWord 32 0x314C3EEF = some (.ori 6 5 0x3EEF) := by decide
theorem test_decode_xori : decodeTableWord 32 0x394C00FF = some (.xori 6 5 0xFF) := by decide
theorem test_decode_suli : decodeTableWord 32 0x414C001F = some (.suli 6 5 31) := by decide
theorem test_decode_ssli : decodeTableWord 32 0x494C0001 = some (.ssli 6 5 1) := by decide
theorem test_decode_suri : decodeTableWord 32 0x514C0004 = some (.suri 6 5 4) := by decide
theorem test_decode_ssri : decodeTableWord 32 0x594C0004 = some (.ssri 6 5 4) := by decide
theorem test_decode_lw : decodeTableWord 32 0x870C0001 = some (.lw 6 28 1) := by decide
theorem test_decode_lb : decodeTableWord 32 0x884C0003 = some (.lb 6 1 3) := by decide
theorem test_decode_sw : decodeTableWord 32 0x9143FFFF = some (.sw 5 1 0x1FFFF) := by decide
theorem test_decode_sb : decodeTableWord 32 0x9943FFFF = some (.sb 5 1 0x1FFFF) := by decide
theorem test_decode_lui : decodeTableWord 32 0xA00BBD5B = some (.lui 5 0x1BD5B) := by decide
theorem test_decode_beq : decodeTableWord 32 0xC1400006 = some (.beq 5 0 6) := by decide
theorem test_decode_bne : decodeTableWord 32 0xC94C0040 = some (.bne 5 6 0x40) := by decide
theorem test_decode_blt : decodeTableWord 32 0xD0440040 = some (.blt 1 2 0x40) := by decide
theorem test_decode_ble : decodeTableWord 32 0xD954000E = some (.ble 5 10 14) := by decide
theorem test_decode_jal : decodeTableWord 32 0xE64A0000 = some (.jal 25 5) := by decide
theorem test_decode_sub : decodeTableWord 32 0x0044D000 = some (.sub 13 1 2) := by decide
theorem test_decode_add : decodeTableWord 32 0x018A6001 = some (.add 6 6 5) := by decide
theorem test_decode_mlt : decodeTableWord 32 0x00455002 = some (.mlt 21 1 2) := by decide
theorem test_decode_div : decodeTableWord 32 0x00455003 = some (.div 21 1 2) := by decide
theorem test_decode_not : decodeTableWord 32 0x01805004 = some (.not 5 6) := by decide
theorem test_decode_and : decodeTableWord 32 0x014C7005 = some (.and 7 5 6) := by decide
theorem test_decode_or : decodeTableWord 32 0x014C7006 = some (.or 7 5 6) := by decide
theorem test_decode_xor : decodeTableWord 32 0x014C7007 = some (.xor 7 5 6) := by decide
theorem test_decode_sul : decodeTableWord 32 0x014C7008 = some (.sul 7 5 6) := by decide
theorem test_decode_ssl : decodeTableWord 32 0x014C7009 = some (.ssl 7 5 6) := by decide
theorem test_decode_sur : decodeTableWord 32 0x014C700A = some (.sur 7 5 6) := by decide
theorem test_decode_ssr : decodeTableWord 32 0x014C700B = some (.ssr 7 5 6) := by decide
theorem test_decode_eq : decodeTableWord 32 0x014C7010 = some (.eq 7 5 6) := by decide
theorem test_decode_neq : decodeTableWord 32 0x014C7011 = some (.neq 7 5 6) := by decide
theorem test_decode_lt : decodeTableWord 32 0x01409012 = some (.lt 9 5 0) := by decide
theorem test_decode_leq : decodeTableWord 32 0x018A7013 = some (.leq 7 6 5) := by decide
/-- `ALUI`'s word is the selected instruction's (R160): the escape encodes to the word that decodes to `ADD`. -/
theorem test_encode_alui : encode OpMap.decided (.alui 6 5 6 0b00001) = 0x018A6001 := by decide

/-! The same words bit by bit, one of each family, as V13 and the rules' examples write their fields. -/

theorem test_bits_addi : decodeTableWord 32 0b00001000000010100000000000000101 = some (.addi 5 0 5) := by decide
theorem test_bits_sub : decodeTableWord 32 0b00000000010001001101000000000000 = some (.sub 13 1 2) := by decide
theorem test_bits_not : decodeTableWord 32 0b00000001100000000101000000000100 = some (.not 5 6) := by decide
theorem test_bits_lw : decodeTableWord 32 0b10000111000011000000000000000001 = some (.lw 6 28 1) := by decide
theorem test_bits_sb : decodeTableWord 32 0b10011001010000111111111111111111 = some (.sb 5 1 0x1FFFF) := by decide
theorem test_bits_blt : decodeTableWord 32 0b11010000010001000000000001000000 = some (.blt 1 2 0x40) := by decide
theorem test_bits_jal : decodeTableWord 32 0b11100110010010100000000000000000 = some (.jal 25 5) := by decide
theorem test_bits_eq : decodeTableWord 32 0b00000001010011000111000000010000 = some (.eq 7 5 6) := by decide

/-! Reserved encodings (V13) -/

theorem test_reserved_20000000 : decode OpMap.decided 0x20000000 = .error .unassignedOp1 := by decide
theorem test_reserved_60000000 : decode OpMap.decided 0x60000000 = .error .unassignedOp1 := by decide
theorem test_reserved_a8000000 : decode OpMap.decided 0xA8000000 = .error .unassignedOp1 := by decide
theorem test_reserved_ffffffff : decode OpMap.decided 0xFFFFFFFF = .error .unassignedOp1 := by decide
theorem test_reserved_0000000c : decode OpMap.decided 0x0000000C = .error .unassignedOp2 := by decide
theorem test_reserved_00000018 : decode OpMap.decided 0x00000018 = .error .unassignedOp2 := by decide
theorem test_reserved_014c7021 : decode OpMap.decided 0x014C7021 = .error .emptyNotZero := by decide
theorem test_reserved_01825004 : decode OpMap.decided 0x01825004 = .error .notArg2NotZero := by decide
theorem test_reserved_a04bbd5b : decode OpMap.decided 0xA04BBD5B = .error .luiArg1NotZero := by decide
theorem test_reserved_e64a0001 : decode OpMap.decided 0xE64A0001 = .error .jalImmNotZero := by decide
theorem test_three_bytes_are_no_word : decodeBytes OpMap.decided [0x08, 0x0A, 0x00] = .error .notOneWord := by decide

/-! ## One step (V5-V11) -/

/-- Write some registers. -/
def withRegs (rs : List (Reg × Word)) (s : State) : State := rs.foldl (fun t e => t.writeReg e.1 e.2) s

/-- `State.reset` with a pc, registers and the eight bytes from 0x100 on. -/
def machine (pc : Word) (rs : List (Reg × Word)) (w0 w1 : Word) : State :=
  withRegs rs { State.reset with pc := pc, mem := Memory.writeWord (Memory.writeWord [] 0x100 w0) 0x104 w1 }

/-- One step over a word placed at the pc. -/
def runWord (w : Nat) (s : State) : Outcome := step (s.withFetchWord 32 w)

/-- What holds of the next state, if there is one. -/
def ofNext {α : Type} (f : State → α) (o : Outcome) : Option α :=
  match o with
  | .next t => some (f t)
  | .fault _ => none
  | .refused _ => none

/-- The fault of an outcome, if it is one. -/
def faultOf (o : Outcome) : Option Fault :=
  match o with
  | .next _ => none
  | .fault f => some f
  | .refused _ => none

/-- A register after one step at pc 0 with `$t0`, `$t1` given. -/
def aluReg (r : Reg) (w : Nat) (t0 t1 : Word) : Option Word :=
  ofNext (fun t => t.readReg r) (runWord w (machine 0 [(5, t0), (6, t1)] 0 0))

/-- The pc after one step at pc 0x10 with `$t0`, `$t1` given. -/
def branchPc (w : Nat) (t0 t1 : Word) : Option Word :=
  ofNext (fun t => t.pc) (runWord w (machine 0x10 [(5, t0), (6, t1)] 0 0))

/-- The words at 0x100 and 0x104 after one step with `$t0`, `$a0` given (V8). -/
def storedWords (w : Nat) (t0 a0 : Word) : Option (Option Word × Option Word) :=
  ofNext (fun t => ((t.wordAt 0x100).toOption, (t.wordAt 0x104).toOption))
    (runWord w (machine 0 [(5, t0), (1, a0)] 0x11223344 0x55667788))

theorem test_addi_wraps : aluReg 6 0x094CFFFF 0xFFFFFFFF 0 = some 0x0000FFFE := by decide
theorem test_addi_zero_dest : aluReg 0 0x09400005 1 0 = some 0 := by decide
theorem test_mlti_negative : aluReg 6 0x114DFFFD 0xFFFFFFF8 0 = some 0x00000018 := by decide
theorem test_mlti_low_half : aluReg 6 0x114C0004 0x40000000 0 = some 0 := by decide
theorem test_divi_toward_zero : aluReg 6 0x194DFFFE 7 0 = some 0xFFFFFFFD := by decide
theorem test_andi_sign_extends : aluReg 6 0x294DFFFF 0xDEADBEEF 0 = some 0xDEADBEEF := by decide
theorem test_andi_low : aluReg 6 0x294CFFFF 0xDEADBEEF 0 = some 0x0000BEEF := by decide
theorem test_ori : aluReg 6 0x314C3EEF 0xDEAD8000 0 = some 0xDEADBEEF := by decide
theorem test_xori : aluReg 6 0x394DFFFF 0x0F0F0F0F 0 = some 0xF0F0F0F0 := by decide
theorem test_suli : aluReg 6 0x414C001F 1 0 = some 0x80000000 := by decide
theorem test_ssli : aluReg 6 0x494C0001 0xC0000001 0 = some 0x80000002 := by decide
theorem test_suri : aluReg 6 0x514C0004 0xFFFFFFF0 0 = some 0x0FFFFFFF := by decide
theorem test_ssri : aluReg 6 0x594C0004 0xFFFFFF00 0 = some 0xFFFFFFF0 := by decide
theorem test_sub_order : aluReg 7 0x014C7000 5 7 = some 0xFFFFFFFE := by decide
theorem test_sub_same_register : aluReg 5 0x014A5000 0x1234 0 = some 0 := by decide
theorem test_add_wraps : aluReg 7 0x014C7001 0xFFFFFFFF 1 = some 0 := by decide
theorem test_mlt : aluReg 7 0x014C7002 0x12345678 0x9ABCDEF0 = some 0x242D2080 := by decide
theorem test_div_negative : aluReg 7 0x014C7003 0xFFFFFF9C 7 = some 0xFFFFFFF2 := by decide
theorem test_div_min : aluReg 7 0x014C7003 0x80000000 2 = some 0xC0000000 := by decide
theorem test_not : aluReg 7 0x01407004 0xDEADBEEF 0 = some 0x21524110 := by decide
theorem test_and : aluReg 7 0x014C7005 0xFF00FF00 0x0FF00FF0 = some 0x0F000F00 := by decide
theorem test_or : aluReg 7 0x014C7006 0xFF00FF00 0x0FF00FF0 = some 0xFFF0FFF0 := by decide
theorem test_xor : aluReg 7 0x014C7007 0xFF00FF00 0x0FF00FF0 = some 0xF0F0F0F0 := by decide
theorem test_sul : aluReg 7 0x014C7008 1 31 = some 0x80000000 := by decide
theorem test_ssl : aluReg 7 0x014C7009 0xFFFFFFFE 4 = some 0xFFFFFFE0 := by decide
theorem test_sur : aluReg 7 0x014C700A 0x80000000 1 = some 0x40000000 := by decide
theorem test_ssr : aluReg 7 0x014C700B 0x80000000 1 = some 0xC0000000 := by decide
theorem test_ssr_zero : aluReg 7 0x014C700B 0x80000000 0 = some 0x80000000 := by decide
theorem test_eq_true : aluReg 7 0x014C7010 5 5 = some 1 := by decide
theorem test_eq_false : aluReg 7 0x014C7010 5 6 = some 0 := by decide
theorem test_neq_true : aluReg 7 0x014C7011 5 6 = some 1 := by decide
theorem test_lt_signed : aluReg 7 0x014C7012 0x80000000 0x7FFFFFFF = some 1 := by decide
theorem test_lt_equal : aluReg 7 0x014C7012 5 5 = some 0 := by decide
theorem test_leq_equal : aluReg 7 0x014C7013 5 5 = some 1 := by decide
theorem test_leq_false : aluReg 7 0x014C7013 6 5 = some 0 := by decide
theorem test_lui : aluReg 5 0xA00BBD5B 0 0 = some 0xDEAD8000 := by decide
/-- `DIV_CORNER` and `SHIFT_OOR` are the values where the spec leaves them open (V5, V6). -/
theorem test_div_by_zero : div32 Config.decided 1 0 = Config.divCorner 1 0 := rfl
theorem test_div_min_by_minus_one :
    div32 Config.decided 0x80000000 0xFFFFFFFF = Config.divCorner 0x80000000 0xFFFFFFFF := rfl
theorem test_shift_by_32 : shift Config.decided .sul 1 32 = Config.shiftOor .sul 1 32 := rfl
theorem test_alui_executes_add :
    ofNext (fun t => t.readReg 7) (exec (.alui 5 6 7 0b00001) (machine 0 [(5, 10), (6, 5)] 0 0)) = some 15 := by decide
theorem test_alui_unassigned : faultOf (exec (.alui 5 6 7 0b01100) State.reset) = some .reservedEncoding := by decide

theorem test_lw_wraps :
    ofNext (fun t => t.readReg 6) (runWord 0x804C0041 (machine 0 [(1, 0xFFFFFFFC)] 0xDEADBEEF 0x7F000080)) = some 0xDEADBEEF := by decide
theorem test_lb_sign_extends :
    ofNext (fun t => t.readReg 6) (runWord 0x884C0003 (machine 0 [(1, 0x100)] 0xDEADBEEF 0x7F000080)) = some 0xFFFFFFEF := by decide
theorem test_lw_misaligned : faultOf (runWord 0x804C0000 (machine 0 [(1, 0x102)] 0 0)) = some .misalignedAccess := by decide
theorem test_lb_unknown_byte : faultOf (runWord 0x884C0000 (machine 0 [(1, 0x108)] 0 0)) = some .uninitialisedRead := by decide
theorem test_sw_word_offset : storedWords 0x91420001 0xDEADBEEF 0x100 = some (some 0x11223344, some 0xDEADBEEF) := by decide
theorem test_sb_middle_byte : storedWords 0x9943FFFF 0xFFFFFF80 0x106 = some (some 0x11223344, some 0x55807788) := by decide
theorem test_sw_misaligned_before_range :
    faultOf (runWord 0x91420000 (machine 0 [(5, 1), (1, 0x1FFFE)] 0 0)) = some .misalignedAccess := by decide
theorem test_sb_range : faultOf (runWord 0x99420000 (machine 0 [(5, 0xFFFFFF7F), (1, 0x100)] 0 0)) = some .sbValueRange := by decide

theorem test_beq_taken : branchPc 0xC14C0040 5 5 = some 0x100 := by decide
theorem test_beq_negative_target : branchPc 0xC001FFFF 0 0 = some 0xFFFFFFFC := by decide
theorem test_bne_taken : branchPc 0xC94C0040 5 6 = some 0x100 := by decide
theorem test_bne_not_taken : branchPc 0xC94C0040 5 5 = some 0x14 := by decide
theorem test_blt_signed : branchPc 0xD14C0040 0xFFFFFFFF 0 = some 0x100 := by decide
theorem test_blt_equal : branchPc 0xD14C0040 5 5 = some 0x14 := by decide
theorem test_ble_equal : branchPc 0xD94C0040 5 5 = some 0x100 := by decide
theorem test_ble_greater : branchPc 0xD94C0040 6 5 = some 0x14 := by decide
theorem test_jal_target : branchPc 0xE64A0000 0x42 0 = some 0x42 := by decide
/-- `JAL $t0, $t0` (V11): the old value is the target, the register ends with the return address. -/
theorem test_jal_same_register :
    ofNext (fun t => (t.readReg 5, t.pc)) (runWord 0xE14A0000 (machine 0x10 [(5, 0x40)] 0 0)) = some (0x14, 0x40) := by decide

/-! ## Fetch and reset -/

/-- Nothing is loaded at reset, so the first fetch reads a byte of unspecified contents (R251; log 33). -/
theorem test_reset_fetches_nothing : faultOf (step State.reset) = some .uninitialisedRead := by decide
theorem test_fetch_misaligned : faultOf (step (machine 0x42 [] 0 0)) = some .misalignedFetch := by decide
theorem test_fetch_after_store :
    (ofNext (fun t => faultOf (step t)) (runWord 0x91420000 (machine 0 [(5, 0), (1, 4)] 0 0))) =
      some (some .fetchAfterStore) := by decide
theorem test_core_reset : Sys2Proof.core.reset = State.reset := rfl

/-! ## The assembler (V2, V3, V12, V18) -/

/-- The words a pseudo-op becomes. -/
def pseudoEncoded (p : Pseudo) : Option (List Word) := p.expand.map fun is => is.map (encode OpMap.decided)

theorem test_expand_subi : pseudoEncoded (.subi 5 5 1) = some [0x094BFFFF] := by decide
theorem test_expand_gt : pseudoEncoded (.gt 7 5 6) = some [0x018A7012] := by decide
theorem test_expand_geq : pseudoEncoded (.geq 7 5 6) = some [0x018A7013] := by decide
theorem test_expand_nand : pseudoEncoded (.nand 7 5 6) = some [0x014C7005, 0x01C07004] := by decide
theorem test_expand_nor : pseudoEncoded (.nor 7 5 6) = some [0x014C7006, 0x01C07004] := by decide
theorem test_expand_nxor : pseudoEncoded (.nxor 7 5 6) = some [0x014C7007, 0x01C07004] := by decide
theorem test_expand_cpy : pseudoEncoded (.cpy 6 5) = some [0x01406001] := by decide
theorem test_expand_la : pseudoEncoded (.la 5 0x12344) = some [0xA00A0002, 0x314A2344] := by decide
theorem test_expand_lv : pseudoEncoded (.lv 5 0xDEADBEEF) = some [0xA00BBD5B, 0x314A3EEF] := by decide
theorem test_expand_clr : pseudoEncoded (.clr 6) = some [0x00006001] := by decide
theorem test_expand_bgt : pseudoEncoded (.bgt 5 6 8) = some [0xD18A0008] := by decide
theorem test_expand_bge : pseudoEncoded (.bge 5 6 8) = some [0xD98A0008] := by decide
theorem test_expand_goto : pseudoEncoded (.goto 6) = some [0xC0000006] := by decide
theorem test_expand_jmp : pseudoEncoded (.jmp 5) = some [0xE64A0000] := by decide
theorem test_expand_ret : pseudoEncoded (.ret) = some [0xE0320000] := by decide
theorem test_expand_push : pseudoEncoded (.push 5) = some [0x91780000, 0x0F39FFFC] := by decide
theorem test_expand_pop : pseudoEncoded (.pop 5) = some [0x0F380004, 0x870A0000] := by decide

/-- A label at `.ORIG`, a constant, and a word of data (V3, V18): locations and words. -/
def smallProgram : List (List Char) :=
  [".NAME ten 10".toList, "MLTI $t2, $t1, ten ! a comment".toList, ".ORIG 0x40".toList, "here: GOTO here".toList]

theorem test_assemble_small :
    (Asm.assemble OpMap.decided smallProgram).toOption.map (fun out => out.map fun e => (e.location, e.word)) =
      some [(0, 0x118E000A), (0x40, 0xC0000010)] := by decide
/-- A tab is a blank between the operands of `.NAME` (log 26). -/
theorem test_name_with_tab :
    (Asm.assemble OpMap.decided [".NAME ten\t10".toList, "ADDI $t0, $zero, ten".toList]).toOption.map
      (fun out => out.map Asm.Emitted.word) = some [0x080A000A] := by decide
/-- The model's choices: a lower-case mnemonic (log 41), a label before `.ORIG` (log 42), the corners of `SUBI` (log 43). -/
theorem test_assemble_choices :
    (match Asm.formOf "add".toList with
      | .error e => e == .unknownMnemonic
      | .ok _ => false) = true ∧
    (Asm.assemble OpMap.decided ["here: .ORIG 0x40".toList, "GOTO here".toList]).toOption.map
      (fun out => out.map fun e => (e.location, e.word)) = some [(0x40, 0xC0000000)] ∧
    pseudoEncoded (.subi 5 5 65536) = some [0x094B0000] ∧ pseudoEncoded (.subi 5 5 (-65536)) = none := by decide
theorem test_assemble_refuses_alui :
    (match Asm.formOf "ALUI".toList with
      | .error e => e == .aluiWritten
      | .ok _ => false) = true := by decide

/-! ## Witnesses: the hypotheses of each statement met together, each clause at a boundary value -/

/-- An outcome is a next state with a property. -/
def nextWith (p : State → Bool) (o : Outcome) : Bool := (ofNext p o).getD false

/-- The state in which the word `w` is fetched at pc 0. -/
def fetching (w : Word) : State := State.reset.withFetchWord 32 w.toNat

theorem test_witness_FormatsPlaceFields : 4 < 5 ∧ 6 < 7 ∧ 16 < 17 := by decide
theorem test_witness_LogicActsOnEachBit : 31 < 32 := by decide
theorem test_witness_LaunchStateIsAsStated : 30 < 31 := by decide
theorem test_witness_DecodeOfEncodeIsSelected :
    OpMap.decided.Wf ∧ Instr.wf OpMap.decided (.alui 6 0 5 (OpMap.decided.op2 .not)) = true ∧
      Instr.wf OpMap.decided (.addi 31 31 0x1FFFF) = true ∧ (∀ a b d o, Instr.addi 31 31 0x1FFFF ≠ .alui a b d o) :=
  ⟨by decide, by decide, by decide, by simp⟩
theorem test_witness_EncodeOfDecodeIsWord : decode OpMap.decided 0xE0320000 = .ok (.jal 0 25) := by decide
/-- Two maps: the spec's, and one with the last columns of a row (R75). -/
theorem test_witness_EveryOpcodeMapAssignsTwentyOne :
    OpMap.decided.Wf ∧ { OpMap.decided with lw := 3, lb := 4, sw := 5, sb := 6, lui := 7 }.Wf ∧ (24#5).toNat = 24 := by decide
theorem test_witness_ReservedWordsStop_op1 :
    (fetching 0x20000000).fetch = .ok 0x20000000 ∧ OpMap.decided.primaryOf (fieldOp1 0x20000000) = none := by decide
theorem test_witness_ReservedWordsStop_empty :
    (fetching 0x00000FE1).fetch = .ok 0x00000FE1 ∧ fieldOp1 0x00000FE1 = 0 ∧ fieldEmpty 0x00000FE1 ≠ 0 := by decide
theorem test_witness_ReservedWordsStop_op2 :
    (fetching 0x0000001F).fetch = .ok 0x0000001F ∧ fieldOp1 0x0000001F = 0 ∧
      OpMap.decided.secondaryOf (fieldOp2 0x0000001F) = none := by decide
theorem test_witness_ReservedWordsStop_not :
    (fetching 0x003E0004).fetch = .ok 0x003E0004 ∧ fieldOp1 0x003E0004 = 0 ∧ fieldOp2 0x003E0004 = 0b00100 ∧
      fieldMid 0x003E0004 ≠ 0 := by decide
theorem test_witness_ReservedWordsStop_lui :
    (fetching 0xA0400000).fetch = .ok 0xA0400000 ∧ OpMap.decided.primaryOf (fieldOp1 0xA0400000) = some .lui ∧
      fieldArg1 0xA0400000 ≠ 0 := by decide
theorem test_witness_ReservedWordsStop_jal :
    (fetching 0xE0010000).fetch = .ok 0xE0010000 ∧ OpMap.decided.primaryOf (fieldOp1 0xE0010000) = some .jal ∧
      fieldImm 0xE0010000 ≠ 0 := by decide
theorem test_witness_StepRunsDecodedInstruction :
    (fetching 0x080A0005).fetch = .ok 0x080A0005 ∧ decode (fetching 0x080A0005).cfg.opMap 0x080A0005 = .ok (.addi 5 0 5) := by
  decide

/-- The last word of memory, 00 01 02 03, at the pc (log 12). -/
def atTop : State :=
  { State.reset with pc := 0x1FFFC, mem := [(0x1FFFC, 0), (0x1FFFD, 1), (0x1FFFE, 2), (0x1FFFF, 3)] }

theorem test_witness_FetchReadsBigEndianWord :
    atTop.pc.toNat % 4 = 0 ∧ atTop.pc.toNat + 3 < atTop.cfg.memSize ∧
      (atTop.cfg.fetchStored = .stop → atTop.pc.toNat ∉ atTop.written) ∧ atTop.mem.read atTop.pc.toNat = some 0 ∧
      atTop.mem.read (atTop.pc.toNat + 1) = some 1 ∧ atTop.mem.read (atTop.pc.toNat + 2) = some 2 ∧
      atTop.mem.read (atTop.pc.toNat + 3) = some 3 := by decide
theorem test_witness_FetchStopsInOrder_misaligned : (machine 0x1FFFF [] 0 0).pc.toNat % 4 ≠ 0 := by decide
theorem test_witness_FetchStopsInOrder_range :
    (machine 0x20000 [] 0 0).pc.toNat % 4 = 0 ∧
      (machine 0x20000 [] 0 0).cfg.memSize ≤ (machine 0x20000 [] 0 0).pc.toNat + 3 := by decide
theorem test_witness_FetchStopsInOrder_stored :
    let s := { atTop with written := [0x1FFFC] }
    s.pc.toNat % 4 = 0 ∧ s.pc.toNat + 3 < s.cfg.memSize ∧ s.cfg.fetchStored = .stop ∧ s.pc.toNat ∈ s.written := by decide
/-- The last word of memory with its last byte alone unknown. -/
theorem test_witness_FetchStopsInOrder_unknown :
    let s := { atTop with mem := [(0x1FFFC, 0), (0x1FFFD, 1), (0x1FFFE, 2)] }
    s.pc.toNat % 4 = 0 ∧ s.pc.toNat + 3 < s.cfg.memSize ∧ ¬ (s.cfg.fetchStored = .stop ∧ s.pc.toNat ∈ s.written) ∧
      ∃ k, k < 4 ∧ s.mem.read (s.pc.toNat + k) = none :=
  ⟨by decide, by decide, by decide, 3, by decide, by decide⟩
theorem test_witness_LoadedFetchWordRuns :
    atTop.cfg.opMap.Wf ∧ Instr.wf atTop.cfg.opMap (.sb 31 0 0x10000) = true ∧ atTop.pc.toNat % 4 = 0 ∧
      atTop.pc.toNat + 3 < atTop.cfg.memSize ∧ 0x1FFFB < atTop.pc.toNat ∧ atTop.pc.toNat + 4 ≤ 0x20000 := by decide

/-- A reset state under the readings that differ from the spec's defaults. -/
def otherReadings : State :=
  { State.reset with cfg := { Config.decided with cmpSigned := false, divSigned := false, sshl := .openReading } }

/-- A reset state whose quotients are rounded down (log 6). -/
def roundingDown : State := { State.reset with cfg := { Config.decided with divRound := .towardMinusInf } }

/-- -7 / 2 toward minus infinity is -4 (R113 writes the two roundings). -/
theorem test_div_rounding_down : div32 roundingDown.cfg 0xFFFFFFF9 2 = 0xFFFFFFFC := by decide

theorem test_witness_DivNeverTrapsAndTruncates :
    (State.reset.cfg.divSigned = true ∧ State.reset.cfg.divRound = .towardZero) ∧
      (roundingDown.cfg.divSigned = true ∧ roundingDown.cfg.divRound = .towardMinusInf) ∧
      (otherReadings.cfg.divSigned = false ∧ (withRegs [(6, 1)] otherReadings).readReg 6 ≠ 0) ∧
      State.reset.readReg 6 = 0 := by decide
/-- The smallest number over 1, and over -1 the next one. -/
theorem test_witness_TruncatedQuotientFits :
    (Config.decided.divSigned = true ∧ Config.decided.divRound = .towardZero) ∧
      ((1 : Word) ≠ 0 ∧ ¬ ((0x80000000 : Word) = 0x80000000 ∧ (1 : Word) = 0xFFFFFFFF)) ∧
      ((0xFFFFFFFF : Word) ≠ 0 ∧ ¬ ((0x80000001 : Word) = 0x80000000 ∧ (0xFFFFFFFF : Word) = 0xFFFFFFFF)) := by decide
/-- The amounts on either side of the limit, and a reading that is not the default. -/
theorem test_witness_RegisterShiftsByWholeAmount :
    State.reset.cfg.sshl = .asUnsigned ∧ otherReadings.cfg.sshl = .openReading ∧
      ((withRegs [(6, 31)] otherReadings).readReg 6).toNat ≤ 31 ∧
      31 < ((withRegs [(6, 32)] otherReadings).readReg 6).toNat := by decide
/-- Amounts 0, 1 and 31. -/
theorem test_witness_SignedLeftShiftReadingsAgree :
    (∀ k : Nat, 31 - 0 ≤ k → k ≤ 31 → (0x80000000#32).getLsbD k = (0x80000000#32).getLsbD 31) ∧
      (∀ k : Nat, 31 - 1 ≤ k → k ≤ 31 → (0xC0000001#32).getLsbD k = (0xC0000001#32).getLsbD 31) ∧
      (∀ k : Nat, 31 - 31 ≤ k → k ≤ 31 → (0xFFFFFFFF#32).getLsbD k = (0xFFFFFFFF#32).getLsbD 31) := by
  refine ⟨fun k h1 h2 => ?_, fun k h1 h2 => ?_, fun k h1 h2 => ?_⟩
  · obtain rfl : k = 31 := by omega
    rfl
  · interval_cases k <;> rfl
  · interval_cases k <;> rfl
theorem test_witness_RightShiftsDivide :
    ((withRegs [(6, 31)] State.reset).readReg 6).toNat ≤ 31 ∧ (State.reset.readReg 6).toNat ≤ 31 ∧ (31 : Imm).toNat ≤ 31 := by
  decide
theorem test_witness_LtLeqWriteOrder :
    State.reset.cfg.cmpSigned = true ∧ otherReadings.cfg.cmpSigned = false ∧
      (State.reset.readReg 5).getLsbD 31 = (State.reset.readReg 6).getLsbD 31 := by decide
theorem test_witness_AluiExecutesSelectedInstruction :
    State.reset.cfg.opMap.Wf ∧ (1 : Reg) ≠ 0 ∧ (Secondary.not = .not → (0 : Reg) = 0) ∧ (Secondary.leq = .not → (31 : Reg) = 0) ∧
      State.reset.cfg.opMap.secondaryOf 0b01100 = none ∧ State.reset.cfg.opMap.secondaryOf 0b11111 = none := by decide
theorem test_witness_DiviNeverTrapsAndTruncates :
    (State.reset.cfg.divSigned = true ∧ State.reset.cfg.divRound = .towardZero) ∧
      (roundingDown.cfg.divSigned = true ∧ roundingDown.cfg.divRound = .towardMinusInf) ∧
      (otherReadings.cfg.divSigned = false ∧ (0x1FFFF : Imm) ≠ 0) ∧ (0x00000#17 : Imm) = 0 := by decide
theorem test_witness_ImmediateShiftsByImmediate :
    State.reset.cfg.sshl = .asUnsigned ∧ otherReadings.cfg.sshl = .openReading ∧ (31 : Imm).toNat ≤ 31 ∧
      31 < (32 : Imm).toNat := by decide

/-- The last word of memory under the pc and `$a0`. -/
def topBase : State := withRegs [(1, 0x1FFFC), (5, 0xDEADBEEF)] atTop

theorem test_witness_ByteOrderIsBigEndian :
    topBase.memRead4 0x1FFFC = .ok 0x00010203 ∧ topBase.pc = 0x1FFFC ∧ topBase.fetch = .ok 0x00010203 ∧
      (match topBase.memWrite4 0x1FFFC 0xDEADBEEF with
        | .ok _ => true
        | .error _ => false) = true := by decide
theorem test_witness_LwLoadsBigEndianWord :
    let ea := eaWord (topBase.readReg 1) (immValue topBase.cfg.immExt.lw 0)
    ea.toNat % 4 = 0 ∧ ea.toNat + 3 < topBase.cfg.memSize ∧ topBase.mem.read ea.toNat = some 0 ∧
      topBase.mem.read (ea.toNat + 1) = some 1 ∧ topBase.mem.read (ea.toNat + 2) = some 2 ∧
      topBase.mem.read (ea.toNat + 3) = some 3 := by decide
theorem test_witness_LbLoadsSignExtendedByte :
    let ea := eaByte (topBase.readReg 1) (immValue topBase.cfg.immExt.lb 3)
    ea.toNat < topBase.cfg.memSize ∧ topBase.mem.read ea.toNat = some 3 := by decide
theorem test_witness_LoadsStopOnlyWhereStated_lw :
    (eaWord ((machine 0 [(1, 0x1FFFD)] 0 0).readReg 1) 0).toNat % 4 ≠ 0 ∧
      ((eaWord (topBase.readReg 1) (immValue .sign 1)).toNat % 4 = 0 ∧
        topBase.cfg.memSize ≤ (eaWord (topBase.readReg 1) (immValue .sign 1)).toNat + 3) ∧
      ((eaWord (State.reset.readReg 1) 0).toNat % 4 = 0 ∧ (eaWord (State.reset.readReg 1) 0).toNat + 3 < 0x20000 ∧
        (∃ k, k < 4 ∧ State.reset.mem.read ((eaWord (State.reset.readReg 1) 0).toNat + k) = none)) :=
  ⟨by decide, by decide, by decide, by decide, 3, by decide, by decide⟩
theorem test_witness_LoadsStopOnlyWhereStated_lb :
    topBase.cfg.memSize ≤ (eaByte (topBase.readReg 1) (immValue topBase.cfg.immExt.lb 4)).toNat ∧
      (eaByte (topBase.readReg 1) (immValue topBase.cfg.immExt.lb 0x1FFFF)).toNat < topBase.cfg.memSize ∧
      topBase.mem.read (eaByte (topBase.readReg 1) (immValue topBase.cfg.immExt.lb 0x1FFFF)).toNat = none := by decide
theorem test_witness_SwStoresBigEndianWord :
    let ea := eaWord (topBase.readReg 1) (immValue topBase.cfg.immExt.sw 0)
    ea.toNat % 4 = 0 ∧ ea.toNat + 3 < topBase.cfg.memSize := by decide
/-- The two ends of the range of values, at the last byte of memory. -/
theorem test_witness_SbStoresLowByte :
    let s := withRegs [(5, 0xFFFFFF80), (6, 255)] topBase
    (eaByte (s.readReg 1) (immValue s.cfg.immExt.sb 3)).toNat < s.cfg.memSize ∧
      (s.readReg 5).toInt = -128 ∧ (s.readReg 6).toInt = 255 := by decide
theorem test_witness_StoresStopOnlyWhereStated :
    let s := withRegs [(5, 0xFFFFFF7F), (6, 256), (7, 255)] topBase
    (eaWord (s.readReg 5) 0).toNat % 4 ≠ 0 ∧
      ((eaWord (s.readReg 1) (immValue s.cfg.immExt.sw 1)).toNat % 4 = 0 ∧
        s.cfg.memSize ≤ (eaWord (s.readReg 1) (immValue s.cfg.immExt.sw 1)).toNat + 3) ∧
      ((s.readReg 5).toInt = -129 ∧ 255 < (s.readReg 6).toInt) ∧
      ((s.readReg 7).toInt = 255 ∧ s.cfg.memSize ≤ (eaByte (s.readReg 1) (immValue s.cfg.immExt.sb 4)).toNat) := by decide
/-- A load directly after a store, by word and by byte; a store of a byte. -/
theorem test_witness_LoadSeesStore_atOnce :
    nextWith (fun t => runFrom 0 t == ⟨t, none⟩ &&
      decide (eaWord (t.readReg 1) (immValue t.cfg.immExt.lw 0) =
        eaWord (topBase.readReg 1) (immValue topBase.cfg.immExt.sw 0)) &&
      decide ((eaByte (t.readReg 1) (immValue t.cfg.immExt.lb 3)).toNat =
        (eaWord (topBase.readReg 1) (immValue topBase.cfg.immExt.sw 0)).toNat + 3)) (exec (.sw 5 1 0) topBase) = true ∧
    nextWith (fun t => decide (eaByte (t.readReg 1) (immValue t.cfg.immExt.lb 0) =
      eaByte (topBase.readReg 1) (immValue topBase.cfg.immExt.sb 0))) (exec (.sb 3 1 0) topBase) = true := by decide

/-- The bytes from 4 on hold `ADD $zero, $zero, $zero`, to run after a store at 0x100 from pc 0. -/
def storing : State := withRegs [(1, 0x100), (5, 0x41)] { State.reset with mem := Memory.writeWord [] 4 1 }

/-- One instruction between the store and the load, which stores nothing (R54). -/
theorem test_witness_LoadSeesStore_later :
    nextWith (fun t => runFrom 1 t == ⟨{ t with pc := 8 }, none⟩ &&
      (List.range 4).all (fun k => !(runFrom 0 t).state.storesTo (0x100 + k)) &&
      decide ((eaWord (t.readReg 1) 0).toNat = 0x100)) (exec (.sw 5 1 0) storing) = true ∧
    nextWith (fun t => runFrom 1 t == ⟨{ t with pc := 8 }, none⟩ && !(runFrom 0 t).state.storesTo 0x100 &&
      decide ((eaByte (t.readReg 1) 0).toNat = 0x100)) (exec (.sb 5 1 0) storing) = true := by decide
/-- `storesTo` names the four bytes of `SW` and the one of `SB`, and no byte beside them (R43, R122, R123). -/
theorem test_storesTo :
    ([0xFF, 0x100, 0x103, 0x104].map ((machine 0 [(1, 0x100)] 0 0).withFetchWord 32 0x91420000).storesTo) =
      [false, true, true, false] ∧
    ([0x100, 0x101, 0x102].map ((machine 0 [(1, 0x101)] 0 0).withFetchWord 32 0x99420000).storesTo) =
      [false, true, false] := by decide
theorem test_witness_LbThenSbCopiesByte :
    nextWith (fun _ => true) (exec (.lb 5 1 3) topBase) = true ∧ (5 : Reg) ≠ 0 ∧ (5 : Reg) ≠ 1 ∧
      (eaByte (topBase.readReg 1) (immValue topBase.cfg.immExt.sb 3)).toNat < topBase.cfg.memSize := by decide
theorem test_witness_BltBleBranchAbsolutely :
    State.reset.cfg.cmpSigned = true ∧ otherReadings.cfg.cmpSigned = false := by decide
/-- The last immediate of one range and the first of the other. -/
theorem test_witness_BranchTargetsAlignedAndInReach :
    (0xFFFF : Imm).toNat < 0x10000 ∧ 0x10000 ≤ (0x10000 : Imm).toNat ∧ 0x10000 ≤ (0x1FFFF : Imm).toNat := by decide
theorem test_witness_OnlyTransfersLeaveSequence :
    nextWith (fun _ => true) (exec (.lui 5 1) State.reset) = true ∧ Instr.isTransfer (.lui 5 1) = false := by decide
theorem test_witness_OnlyJalMisalignsPc :
    nextWith (fun t => t.pc.toNat % 4 != 0) (runWord 0xE64A0000 (machine 0x10 [(5, 0x42)] 0 0)) = true ∧
      (machine 0x10 [(5, 0x42)] 0 0).pc.toNat % 4 = 0 := by decide
/-- A store of a byte, a store of a word, and an instruction that stores nothing and writes one register. -/
theorem test_witness_StepWritesOneThing :
    ([(0x99420000, .sb 5 1 0), (0x91420000, .sw 5 1 0), (0x080A0005, .addi 5 0 5)] : List (Nat × Instr)).all (fun e =>
      let s := (machine 0 [(5, 0x41), (1, 0x100)] 0 0).withFetchWord 32 e.1
      s.fetch == .ok (BitVec.ofNat 32 e.1) && decode s.cfg.opMap (BitVec.ofNat 32 e.1) == .ok e.2 &&
        nextWith (fun _ => true) (step s)) = true ∧
    Instr.isStore (.addi 5 0 5) = false ∧ Instr.destination (.addi 5 0 5) ≠ some 6 := by decide
theorem test_witness_OnlyStoresWriteMemory :
    nextWith (fun _ => true) (exec (.jal 25 5) State.reset) = true ∧ Instr.isStore (.jal 25 5) = false := by decide
/-- The state of `test_sw_word_offset` without its registers: a store into listed memory. -/
theorem test_witness_StepKeepsInvariant :
    (fetching 0x90020040).Inv ∧ nextWith (fun t => t.written == [0x100]) (step (fetching 0x90020040)) = true :=
  ⟨⟨by decide, by decide, by decide, by decide, by decide⟩, by decide⟩
theorem test_witness_LaunchHasInvariant : { Config.decided with memSize := 0x100000000 }.Wf ∧
    { Config.decided with memSize := 4 }.Wf := by decide
theorem test_witness_LoadedImageReadsBack :
    ([(0, 0x080A0005), (0x7FFF, 0xFFCCBBAA)] : List (Nat × Word)).map Prod.fst = [0, 0x7FFF] ∧ [0, 0x7FFF].Nodup ∧
      (State.reset.load [(0, 0x080A0005), (0x7FFF, 0xFFCCBBAA)]).isSome = true := by decide

/-- A store of a word to the address of the next instruction. -/
def selfModifying : State := (machine 0 [(1, 4)] 0 0).withFetchWord 32 0x91420000

theorem test_witness_ExecutedCodeIsNeverModified :
    (runFrom 1 selfModifying).stopped = none ∧ 0 / 4 * 4 ∉ (runFrom 1 selfModifying).state.written ∧
      selfModifying.cfg.fetchStored = .stop ∧ (runFrom 0 selfModifying).state.fetch = .ok 0x91420000 := by decide
theorem test_witness_FetchAfterStoreStops :
    let s := { atTop with written := [0x1FFFC] }
    0x1FFFC ∈ s.written ∧ runFrom 0 s = ⟨s, none⟩ ∧ s.pc.toNat = 0x1FFFC ∧ s.cfg.fetchStored = .stop ∧
      0x1FFFC % 4 = 0 ∧ 0x1FFFC + 3 < s.cfg.memSize := by decide
theorem test_witness_StopKeepsState :
    (Marked.mk State.reset (some (.fault .misalignedFetch))).stopped ≠ none ∧
      (Marked.mk State.reset none).stopped = none ∧ step State.reset = .fault .uninitialisedRead := ⟨by decide, rfl, rfl⟩
/-- `GOTO` to itself at address 0 (V10). -/
theorem test_witness_CompletedRunStays :
    (fetching 0xC0000000).cfg.halt = .selfBranch ∧ CompletesAt 0 (fetching 0xC0000000) (fetching 0xC0000000) ∧ 0 ≤ 1 :=
  ⟨by decide, ⟨rfl, by decide, fun j h => absurd h (Nat.not_lt_zero j)⟩, by decide⟩
/-- A run that stops (nothing is loaded), one that completes, and the same run under another `HALT`. -/
theorem test_witness_StoppedRunNeverCompletes :
    ((runFrom 1 State.reset).stopped ≠ none ∧ 1 ≤ 1) ∧ CompletesAt 0 (fetching 0xC0000000) (fetching 0xC0000000) ∧
      runUntilEnd 1 0 State.reset = .stopped 0 State.reset (.fault .uninitialisedRead) ∧
      runUntilEnd 0 0 State.reset = .unfinished State.reset ∧
      runUntilEnd 5 0 (fetching 0xC0000000) = .complete 0 (fetching 0xC0000000) :=
  ⟨by decide, ⟨rfl, by decide, fun j h => absurd h (Nat.not_lt_zero j)⟩, by decide, by decide, by decide⟩
/-- Under a pc sentinel the run is over at the first visit, though the pc comes back there (R256, R260). -/
theorem test_pc_sentinel_first_visit :
    let s := { fetching 0xC0000000 with cfg := { Config.decided with halt := .pcSentinel 0 } }
    runUntilEnd 3 0 s = .complete 0 s ∧ haltsAt s.cfg.halt 1 (runFrom 1 s).state = true := by decide
/-- The run from the reset state with an image (R251, R260): `ADDI $t0, $zero, 5`, then `GOTO` to itself (V10). -/
theorem test_runImage :
    (runImage Config.decided resetRegs [(0, 0x080A0005), (1, 0xC0000001)] 5).map (fun r =>
      match r with
      | .complete k t => some (k, t.readReg 5, t.pc)
      | _ => none) = some (some (1, 5, 4)) := by decide
theorem test_witness_SelfBranchHalts :
    (fetching 0xC0000000).fetch = .ok 0xC0000000 ∧
      decode (fetching 0xC0000000).cfg.opMap 0xC0000000 = .ok (.beq 0 0 0) ∧
      branchTarget (immValue (fetching 0xC0000000).cfg.immExt.beq 0) = (fetching 0xC0000000).pc := by decide
theorem test_witness_ZeroWordIsNoOperation : (fetching 0).fetch = .ok 0 := by decide
theorem test_witness_RegisterPseudoOpsMeetPseudocode :
    State.reset.cfg.cmpSigned = true ∧ otherReadings.cfg.cmpSigned = false := by decide
/-- Both ends of the range, and one beyond each. -/
theorem test_witness_SubiSubtractsNumber :
    (-65535 ≤ (-65535 : Int) ∧ (-65535 : Int) ≤ 65536) ∧ (-65535 ≤ (65536 : Int) ∧ (65536 : Int) ≤ 65536) ∧
      ¬ (-65535 ≤ (-65536 : Int) ∧ (-65536 : Int) ≤ 65536) ∧ ¬ (-65535 ≤ (65537 : Int) ∧ (65537 : Int) ≤ 65536) := by decide
theorem test_witness_TransferPseudoOpsMeetPseudocode :
    State.reset.cfg.cmpSigned = true ∧ otherReadings.cfg.cmpSigned = false := by decide
/-- `PUSH` and `POP` at the last word of memory. -/
theorem test_witness_PushPopRestores :
    ((withRegs [(28, 0x1FFFC)] State.reset).readReg regSp).toNat % 4 = 0 ∧
      ((withRegs [(28, 0x1FFFC)] State.reset).readReg regSp).toNat + 3 < State.reset.cfg.memSize := by decide
theorem test_witness_AssembledWordsLieApart :
    (Asm.assemble OpMap.decided ["ADDI $t0, $zero, 5".toList]).toOption.map (fun out => out.flatMap Asm.outputLines) =
      some ["-- @ 0x00000000 : ADDI $t0, $zero, 5".toList, "00000000 : 080A0005".toList] := by decide

end Sys2Proof.Tests
end

section
/-! PROOFS. The invariant of the state (00_scope.md R4, 10_state.md R33, 20_memory.md R44, R56): what keeps it, first for a
change of registers and pc, then for the two memory writes, then for a whole step. -/

namespace Sys2Proof.Machine

/-- The invariant speaks of the configuration, memory and the written marks alone. -/
theorem State.Inv.congr {s t : State} (hs : s.Inv) (hcfg : t.cfg = s.cfg) (hmem : t.mem = s.mem)
    (hwritten : t.written = s.written) : t.Inv where
  cfg := by rw [hcfg]; exact hs.cfg
  mem := by rw [hmem]; exact hs.mem
  inside := by rw [hmem, hcfg]; exact hs.inside
  rising := by rw [hwritten]; exact hs.rising
  words := by rw [hwritten, hcfg]; exact hs.words

/-- The end of an instruction that only moves the pc on keeps the invariant (R27). -/
theorem State.Inv.advance {s : State} (hs : s.Inv) : s.advance.Inv :=
  hs.congr (advance_cfg s) (advance_mem s) (advance_written s)

/-- A canonical memory whose new cells lie inside `MEM_SIZE`, with the mark of a word that begins there, keeps the
invariant: what the writes of a byte and of a word have in common (R43, R56). -/
theorem State.Inv.store {s : State} (hs : s.Inv) {m : Memory} {a : Word} (hwf : m.wf)
    (hcells : ∀ c ∈ m, c.1 < s.cfg.memSize ∨ c ∈ s.mem) (ha : a.toNat < s.cfg.memSize) :
    State.Inv { s with mem := m, written := markWritten s.written (wordAddress a) } where
  cfg := hs.cfg
  mem := hwf
  inside c hc := (hcells c hc).elim id (hs.inside c)
  rising := markWritten_rising hs.rising _
  words x hx := by
    obtain rfl | hx := (mem_markWritten _ _ _).mp hx
    · exact ⟨wordAddress_mod a, (wordAddress_le a).trans_lt ha⟩
    · exact hs.words x hx

/-- `MemWrite(addr, 1, v)` keeps the invariant: the range check puts the byte inside `MEM_SIZE` (R43, R44). -/
theorem memWrite1_inv {s t : State} {a : Word} {v : Byte} (hs : s.Inv) (h : s.memWrite1 a v = .ok t) : t.Inv := by
  obtain ⟨ha, rfl⟩ := memWrite1_eq_ok.mp h
  refine hs.store (write_wf hs.mem _ _) (fun c hc => ?_) ha
  obtain rfl | hc := mem_write hc
  · exact .inl ha
  · exact .inr hc

/-- `MemWrite(addr, 4, v)` keeps the invariant: the range check puts all four bytes inside `MEM_SIZE` (R43, R44). -/
theorem memWrite4_inv {s t : State} {a v : Word} (hs : s.Inv) (h : s.memWrite4 a v = .ok t) : t.Inv := by
  obtain ⟨-, hlast, rfl⟩ := memWrite4_eq_ok.mp h
  refine hs.store (writeWord_wf hs.mem _ _) (fun c hc => ?_) (by omega)
  obtain ⟨-, hc⟩ | hc := mem_writeWord hc
  · exact .inl (hc.trans_lt hlast)
  · exact .inr hc

/-- Every shape of a next state keeps the invariant (R30). -/
theorem NextShape.inv {s t : State} (h : NextShape s t) (hs : s.Inv) : t.Inv := by
  cases h with
  | reg d v pc => exact hs.congr (by simp) (by simp) (by simp)
  | byte a v u hu => exact (memWrite1_inv hs hu).advance
  | word a v u hu => exact (memWrite4_inv hs hu).advance

/-- Settles O45: each shape of a next state keeps the invariant. -/
theorem stepKeepsInvariant : Obligations.StepKeepsInvariant :=
  fun _ _ hs h => (step_shape h).inv hs

end Sys2Proof.Machine
end

section
/-! PROOFS. What one completed instruction did, by its class (10_state.md R27, R28, R30): a register result, a branch, `JAL`,
or one of the two stores. The frames of memory, registers and configuration and the alignment of the pc each follow from
it by these cases. -/

namespace Sys2Proof.Machine

/-! ## The common ends of the instructions, for a state already known to be next -/

theorem writeResult_next_wrote {d : Reg} {v : Word} {s t : State} (h : writeResult d v s = .next t) :
    WroteReg s d v (s.pc + 4) t := by
  obtain ⟨u, hu, hwrote⟩ := writeResult_wrote s d v
  obtain rfl : u = t := Host.Outcome.next.inj (hu.symm.trans h)
  exact hwrote

theorem branchTo_next_jumped {c : Bool} {imm32 : Word} {s t : State} (h : branchTo c imm32 s = .next t) :
    Jumped s (if c then branchTarget imm32 else s.pc + 4) t := by
  obtain ⟨u, hu, hjumped⟩ := branchTo_jumped c imm32 s
  obtain rfl : u = t := Host.Outcome.next.inj (hu.symm.trans h)
  exact hjumped

theorem memWrite4_stored {s u : State} {a v : Word} (h : s.memWrite4 a v = .ok u) :
    Stored s a.toNat (wordAddress a) (bytesOfWord v) u.advance := by
  obtain ⟨-, -, rfl⟩ := memWrite4_eq_ok.mp h
  refine ⟨fun k hk => ?inside, fun b hb => ?outside, mem_markWritten _ _, fun r => rfl, advance_pc _, rfl⟩
  case inside =>
    have hk : k < 4 := hk
    interval_cases k <;> simp [read_writeWord, bytesOfWord]
  case outside =>
    have hb : b < a.toNat ∨ a.toNat + 4 ≤ b := hb
    rw [advance_mem, read_writeWord, if_neg (by omega), if_neg (by omega), if_neg (by omega), if_neg (by omega)]

theorem memWrite1_stored {s u : State} {a : Word} {v : Byte} (h : s.memWrite1 a v = .ok u) :
    Stored s a.toNat (wordAddress a) [v] u.advance := by
  obtain ⟨-, rfl⟩ := memWrite1_eq_ok.mp h
  refine ⟨fun k hk => ?inside, fun b hb => ?outside, mem_markWritten _ _, fun r => rfl, advance_pc _, rfl⟩
  case inside =>
    obtain rfl : k = 0 := Nat.lt_one_iff.mp hk
    simp [read_write]
  case outside =>
    have hb : b < a.toNat ∨ a.toNat + 1 ≤ b := hb
    rw [advance_mem, read_write, if_neg (by omega)]

/-- The bytes of register `r` stored at the effective address of `SW` with base `b`, and that word marked (R53, R122). -/
def StoredBySw (s : State) (r b : Reg) (imm : Imm) (t : State) : Prop :=
  let ea := eaWord (s.readReg b) (immValue s.cfg.immExt.sw imm)
  Stored s ea.toNat (wordAddress ea) (bytesOfWord (s.readReg r)) t

/-- The low byte of register `r` stored at the effective address of `SB` with base `b`, and its word marked (R53, R123). -/
def StoredBySb (s : State) (r b : Reg) (imm : Imm) (t : State) : Prop :=
  let ea := eaByte (s.readReg b) (immValue s.cfg.immExt.sb imm)
  Stored s ea.toNat (wordAddress ea) [lowByte (s.readReg r)] t

/-- `SW` that completes has stored its word at its effective address (R122). -/
theorem execSw_stored {r b : Reg} {imm : Imm} {s t : State} (h : execSw r b imm s = .next t) : StoredBySw s r b imm t := by
  obtain ⟨u, hu, rfl⟩ := storeResult_next.mp h
  exact memWrite4_stored hu

/-- `SB` that completes has stored its byte at its effective address (R123). -/
theorem execSb_stored {r b : Reg} {imm : Imm} {s t : State} (h : execSb r b imm s = .next t) : StoredBySb s r b imm t := by
  unfold execSb at h
  split at h
  · obtain ⟨u, hu, rfl⟩ := storeResult_next.mp h
    exact memWrite1_stored hu
  · cases h

/-- `JAL` that completes has linked and gone to the old value of its target register (R144, D19). -/
theorem execJal_next_wrote {l r : Reg} {s t : State} (h : execJal l r s = .next t) :
    WroteReg s l (s.pc + 4) (s.readReg r) t := by
  injection h with h
  subst h
  rw [nextPc_eq]
  exact ⟨fun x => readReg_writeReg s l x _, rfl, ⟨fun a => by simp, by simp⟩, by simp⟩

/-! ## The effect of an instruction -/

/-- What the instruction has done when it leads from `s` to a next state: it wrote its destination and went on in sequence
(R117); it went on or to a branch target (R145); it linked and jumped (R144); it stored a word or a byte (R122, R123). -/
inductive Effect (s : State) : Instr → State → Prop where
  | result {i : Instr} {d : Reg} {v : Word} {t : State} (hdest : i.destination = some d)
      (hwrote : WroteReg s d v (s.pc + 4) t) : Effect s i t
  | branch {i : Instr} {taken : Bool} {imm32 : Word} {t : State} (htransfer : i.isTransfer = true)
      (hjumped : Jumped s (if taken then branchTarget imm32 else s.pc + 4) t) : Effect s i t
  | jal {l r : Reg} {t : State} (hwrote : WroteReg s l (s.pc + 4) (s.readReg r) t) : Effect s (.jal l r) t
  | sw {r b : Reg} {imm : Imm} {t : State} (hstored : StoredBySw s r b imm t) : Effect s (.sw r b imm) t
  | sb {r b : Reg} {imm : Imm} {t : State} (hstored : StoredBySb s r b imm t) : Effect s (.sb r b imm) t

/-- The escape that completes has written `ARGD`, whichever instruction its `OP2` selects (R160). -/
theorem execAlui_next_writeResult {arg1 arg2 argD : Reg} {op2 : Opcode} {s t : State}
    (h : execAlui arg1 arg2 argD op2 s = .next t) : ∃ v, writeResult argD v s = .next t := by
  unfold execAlui at h
  split at h
  case h_1 => cases h
  case h_6 =>
    split at h
    · cases h
    · exact ⟨_, h⟩
  all_goals exact ⟨_, h⟩

/-- Every instruction that answers a next state has had the effect of its class. -/
theorem exec_effect {i : Instr} {s t : State} (h : exec i s = .next t) : Effect s i t := by
  cases i with
  | alui arg1 arg2 argD op2 =>
    obtain ⟨v, hv⟩ := execAlui_next_writeResult h
    exact .result rfl (writeResult_next_wrote hv)
  | lw argD arg1 imm =>
    obtain ⟨v, -, hv⟩ := loadResult_next.mp h
    exact .result rfl (writeResult_next_wrote hv)
  | lb argD arg1 imm =>
    obtain ⟨v, -, hv⟩ := loadResult_next.mp h
    exact .result rfl (writeResult_next_wrote hv)
  | sw r b imm => exact .sw (execSw_stored h)
  | sb r b imm => exact .sb (execSb_stored h)
  | beq arg1 arg2 imm => exact .branch rfl (branchTo_next_jumped h)
  | bne arg1 arg2 imm => exact .branch rfl (branchTo_next_jumped h)
  | blt arg1 arg2 imm => exact .branch rfl (branchTo_next_jumped h)
  | ble arg1 arg2 imm => exact .branch rfl (branchTo_next_jumped h)
  | jal l r => exact .jal (execJal_next_wrote h)
  | _ => exact .result rfl (writeResult_next_wrote h)

/-! ## The frame of an effect (R30) -/

/-- A register write leaves every other register as it was. -/
theorem WroteReg.readReg_of_ne {s t : State} {d r : Reg} {v pc : Word} (h : WroteReg s d v pc t) (hr : d ≠ r) :
    t.readReg r = s.readReg r := by
  rw [h.regs r, if_neg hr.symm]
  split
  · next h0 => rw [h0]; exact (readReg_zero s).symm
  · rfl

theorem Effect.cfg {i : Instr} {s t : State} (h : Effect s i t) : t.cfg = s.cfg := by
  cases h with
  | result _ hwrote => exact hwrote.cfg
  | branch _ hjumped => exact hjumped.cfg
  | jal hwrote => exact hwrote.cfg
  | sw hstored => exact hstored.cfg
  | sb hstored => exact hstored.cfg

theorem Effect.readReg {i : Instr} {s t : State} (h : Effect s i t) {r : Reg} (hr : i.destination ≠ some r) :
    t.readReg r = s.readReg r := by
  cases h with
  | result hdest hwrote => exact hwrote.readReg_of_ne fun hd => hr (hd ▸ hdest)
  | branch _ hjumped => exact hjumped.regs r
  | jal hwrote => exact hwrote.readReg_of_ne fun hl => hr (congrArg some hl)
  | sw hstored => exact hstored.regs r
  | sb hstored => exact hstored.regs r

theorem Effect.sameMemory {i : Instr} {s t : State} (h : Effect s i t) (hi : i.isStore = false) : SameMemory s t := by
  cases h with
  | result _ hwrote => exact hwrote.memory
  | branch _ hjumped => exact hjumped.memory
  | jal hwrote => exact hwrote.memory
  | sw _ => cases hi
  | sb _ => cases hi

theorem Effect.sw_stored {r b : Reg} {imm : Imm} {s t : State} (h : Effect s (.sw r b imm) t) : StoredBySw s r b imm t := by
  cases h with
  | result hdest _ => cases hdest
  | branch htransfer _ => cases htransfer
  | sw hstored => exact hstored

theorem Effect.sb_stored {r b : Reg} {imm : Imm} {s t : State} (h : Effect s (.sb r b imm) t) : StoredBySb s r b imm t := by
  cases h with
  | result hdest _ => cases hdest
  | branch htransfer _ => cases htransfer
  | sb hstored => exact hstored

/-- Settles O44: every effect but the two stores' leaves memory and the marks alone. -/
theorem onlyStoresWriteMemory : Obligations.OnlyStoresWriteMemory :=
  fun _ _ _ h => (exec_effect h).sameMemory

/-- Settles O43, from the frame of the executed instruction's effect. -/
theorem stepWritesOneThing : Obligations.StepWritesOneThing := by
  intro s t w i hw hi hstep
  have heff : Effect s i t := exec_effect (step_of_decode hw hi ▸ hstep)
  refine ⟨heff.cfg, fun r => heff.readReg, ?sw, ?sb, heff.sameMemory⟩
  case sw =>
    rintro r b imm rfl
    exact ⟨heff.sw_stored.outside, heff.sw_stored.marks⟩
  case sb =>
    rintro r b imm rfl
    exact ⟨fun a ha => heff.sb_stored.outside a (Nat.lt_or_gt_of_ne ha), heff.sb_stored.marks⟩

/-! ## Alignment of the pc (R28) -/

theorem add_four_aligned {a : Word} (h : a.toNat % 4 = 0) : (a + 4).toNat % 4 = 0 := by
  rw [BitVec.toNat_add, show (4 : Word).toNat = 4 from rfl]
  omega

/-- A branch target is a multiple of 4 (R145, R147). -/
theorem branchTarget_aligned (imm32 : Word) : (branchTarget imm32).toNat % 4 = 0 := by
  rw [branchTarget_eq, BitVec.toNat_shiftLeft, Nat.shiftLeft_eq]
  omega

/-- From an aligned pc every effect but that of `JAL` leaves an aligned pc. -/
theorem Effect.pc_aligned_or_jal {i : Instr} {s t : State} (h : Effect s i t) (hs : s.pc.toNat % 4 = 0) :
    t.pc.toNat % 4 = 0 ∨ ∃ l r, i = .jal l r ∧ t.pc = s.readReg r := by
  cases h with
  | result _ hwrote => exact .inl (hwrote.pc ▸ add_four_aligned hs)
  | @branch _ taken imm32 _ _ hjumped =>
    rw [hjumped.pc]
    cases taken
    case false => exact .inl (add_four_aligned hs)
    case true => exact .inl (branchTarget_aligned imm32)
  | jal hwrote => exact .inr ⟨_, _, rfl, hwrote.pc⟩
  | sw hstored => exact .inl (hstored.pc ▸ add_four_aligned hs)
  | sb hstored => exact .inl (hstored.pc ▸ add_four_aligned hs)

/-- Settles O42: of the effects only that of `JAL` can leave a misaligned pc. -/
theorem onlyJalMisalignsPc : Obligations.OnlyJalMisalignsPc := by
  intro s t hs hstep ht
  obtain ⟨w, i, hw, hi, hexec⟩ := step_next hstep
  obtain ⟨l, r, rfl, hpc⟩ := ((exec_effect hexec).pc_aligned_or_jal hs).resolve_left ht
  exact ⟨w, l, r, hw, hi, hpc⟩

end Sys2Proof.Machine
end

section
/-! PROOFS. The launch state (10_state.md R35, 70_reset_and_hazards.md R250, R251). -/

namespace Sys2Proof.Machine

/-- `x[k + 1]` is held at index `k` of the register file (R20). -/
theorem readReg_ofNat_succ (s : State) {k : Nat} (h : k < 31) : s.readReg (BitVec.ofNat 5 (k + 1)) = s.regs[k] := by
  have hnat : (BitVec.ofNat 5 (k + 1)).toNat = k + 1 := by
    rw [BitVec.toNat_ofNat]
    omega
  have hne : BitVec.ofNat 5 (k + 1) ≠ 0 := fun h0 => by simp [h0] at hnat
  rw [State.readReg, dif_neg hne]
  simp only [hnat, Nat.add_sub_cancel]

/-- Settles O47: the fields of the launch state, and its registers one by one. -/
theorem launchStateIsAsStated : Obligations.LaunchStateIsAsStated :=
  ⟨fun c regs => ⟨rfl, readReg_zero _, rfl, rfl, fun _ h => readReg_ofNat_succ (State.launch c regs) h⟩, rfl, rfl⟩

end Sys2Proof.Machine
end

section
/-! PROOFS. Words and bytes of memory (20_memory.md R42): a word that reads is its four bytes in the order of their
addresses, and where one of the four is unknown no word reads (log 20). -/

namespace Sys2Proof.Machine

/-- The `k`-th byte of four joined bytes, counted from the most significant (R42). -/
theorem byteOfWord_wordOfBytes (b0 b1 b2 b3 : Byte) :
    byteOfWord (wordOfBytes b0 b1 b2 b3) 0 = b0 ∧ byteOfWord (wordOfBytes b0 b1 b2 b3) 1 = b1 ∧
      byteOfWord (wordOfBytes b0 b1 b2 b3) 2 = b2 ∧ byteOfWord (wordOfBytes b0 b1 b2 b3) 3 = b3 := by
  refine ⟨?_, ?_, ?_, ?_⟩ <;>
  · apply BitVec.eq_of_getLsbD_eq
    intro i hi
    simp only [byteOfWord, wordOfBytes, BitVec.getLsbD_extractLsb', BitVec.getLsbD_append]
    interval_cases i <;> simp

/-- A word reads exactly when its four bytes do, the lowest address first (R42). -/
theorem wordAt_eq_ok_iff_bytes {s : State} {a : Nat} {w : Word} :
    s.wordAt a = .ok w ↔ ∀ k, k < 4 → s.mem.read (a + k) = some (byteOfWord w k) := by
  constructor
  · intro h k hk
    obtain ⟨b0, b1, b2, b3, h0, h1, h2, h3, rfl⟩ := wordAt_eq_ok.mp h
    obtain ⟨e0, e1, e2, e3⟩ := byteOfWord_wordOfBytes b0 b1 b2 b3
    interval_cases k
    · rw [e0]; exact h0
    · rw [e1]; exact h1
    · rw [e2]; exact h2
    · rw [e3]; exact h3
  · intro h
    exact wordAt_eq_ok.mpr ⟨_, _, _, _, h 0 (by decide), h 1 (by decide), h 2 (by decide), h 3 (by decide),
      (wordOfBytes_bytesOfWord w).symm⟩

/-- A word's read stops for no other reason than an unknown byte (log 20). -/
theorem wordAt_error {s : State} {a : Nat} {f : Fault} (h : s.wordAt a = .error f) : f = .uninitialisedRead := by
  unfold State.wordAt at h
  split at h
  · cases h
  · exact (Except.error.inj h).symm

/-- No word reads where one of its bytes is unknown (log 20). -/
theorem wordAt_of_unknown {s : State} {a : Nat} (h : ∃ k, k < 4 ∧ s.mem.read (a + k) = none) :
    s.wordAt a = .error .uninitialisedRead := by
  obtain ⟨k, hk, hnone⟩ := h
  cases hw : s.wordAt a with
  | ok w => exact absurd (hnone.symm.trans (wordAt_eq_ok_iff_bytes.mp hw k hk)) nofun
  | error f => rw [wordAt_error hw]

/-- A word reads, or one of its bytes is unknown. -/
theorem wordAt_ok_or_unknown (s : State) (a : Nat) :
    (∃ w, s.wordAt a = .ok w) ∨ ∃ k, k < 4 ∧ s.mem.read (a + k) = none := by
  by_cases h : ∃ k, k < 4 ∧ s.mem.read (a + k) = none
  · exact .inr h
  · have known : ∀ k, k < 4 → ∃ b, s.mem.read (a + k) = some b := fun k hk =>
      Option.ne_none_iff_exists'.mp fun hn => h ⟨k, hk, hn⟩
    obtain ⟨b0, h0⟩ := known 0 (by decide)
    obtain ⟨b1, h1⟩ := known 1 (by decide)
    obtain ⟨b2, h2⟩ := known 2 (by decide)
    obtain ⟨b3, h3⟩ := known 3 (by decide)
    exact .inl ⟨_, wordAt_eq_ok.mpr ⟨b0, b1, b2, b3, h0, h1, h2, h3, rfl⟩⟩

/-- A word's read looks at nothing but its four bytes. -/
theorem wordAt_congr {s t : State} {a : Nat} (h : ∀ k, k < 4 → t.mem.read (a + k) = s.mem.read (a + k)) :
    t.wordAt a = s.wordAt a := by
  have h0 : t.mem.read a = s.mem.read a := h 0 (by decide)
  rw [State.wordAt, h0, h 1 (by decide), h 2 (by decide), h 3 (by decide), State.wordAt]

end Sys2Proof.Machine
end

section
/-! PROOFS. The access primitives where they stop (20_memory.md R43, R44, R46, R48, R56; 60_exceptions.md R234): an
equation per check, in the order of the checks, and for each primitive the cases they make. -/

namespace Sys2Proof.Machine

/-! ## `MemRead` -/

theorem memRead4_misaligned {s : State} {a : Word} (h : a.toNat % 4 ≠ 0) : s.memRead4 a = .error .misalignedAccess := by
  rw [State.memRead4, if_pos h]

theorem memRead4_outOfRange {s : State} {a : Word} (h : a.toNat % 4 = 0) (hr : s.cfg.memSize ≤ a.toNat + 3) :
    s.memRead4 a = .error .accessOutOfRange := by
  rw [State.memRead4, if_neg (not_not.mpr h), if_pos hr]

theorem memRead4_eq_wordAt {s : State} {a : Word} (h : a.toNat % 4 = 0) (hr : a.toNat + 3 < s.cfg.memSize) :
    s.memRead4 a = s.wordAt a.toNat := by
  rw [State.memRead4, if_neg (not_not.mpr h), if_neg (not_le.mpr hr)]

theorem memRead4_cases (s : State) (a : Word) :
    (∃ w, s.memRead4 a = .ok w) ∨ (s.memRead4 a = .error .misalignedAccess ∧ a.toNat % 4 ≠ 0) ∨
      (s.memRead4 a = .error .accessOutOfRange ∧ a.toNat % 4 = 0 ∧ s.cfg.memSize ≤ a.toNat + 3) ∨
      (s.memRead4 a = .error .uninitialisedRead ∧ a.toNat % 4 = 0 ∧ a.toNat + 3 < s.cfg.memSize ∧
        ∃ k, k < 4 ∧ s.mem.read (a.toNat + k) = none) := by
  by_cases ha : a.toNat % 4 = 0
  · obtain hr | hr := Nat.lt_or_ge (a.toNat + 3) s.cfg.memSize
    · have hread := memRead4_eq_wordAt ha hr
      obtain ⟨w, hw⟩ | hk := wordAt_ok_or_unknown s a.toNat
      · exact .inl ⟨w, hread.trans hw⟩
      · exact .inr (.inr (.inr ⟨hread.trans (wordAt_of_unknown hk), ha, hr, hk⟩))
    · exact .inr (.inr (.inl ⟨memRead4_outOfRange ha hr, ha, hr⟩))
  · exact .inr (.inl ⟨memRead4_misaligned ha, ha⟩)

theorem memRead1_outOfRange {s : State} {a : Word} (h : s.cfg.memSize ≤ a.toNat) :
    s.memRead1 a = .error .accessOutOfRange := by
  rw [State.memRead1, if_pos h]

theorem memRead1_unknown {s : State} {a : Word} (h : a.toNat < s.cfg.memSize) (hb : s.mem.read a.toNat = none) :
    s.memRead1 a = .error .uninitialisedRead := by
  rw [State.memRead1, if_neg (not_le.mpr h), hb]

theorem memRead1_cases (s : State) (a : Word) :
    (∃ b, s.memRead1 a = .ok b) ∨ (s.memRead1 a = .error .accessOutOfRange ∧ s.cfg.memSize ≤ a.toNat) ∨
      (s.memRead1 a = .error .uninitialisedRead ∧ a.toNat < s.cfg.memSize ∧ s.mem.read a.toNat = none) := by
  obtain hr | hr := Nat.lt_or_ge a.toNat s.cfg.memSize
  · cases hb : s.mem.read a.toNat with
    | some b => exact .inl ⟨b, memRead1_eq_ok.mpr ⟨hr, hb⟩⟩
    | none => exact .inr (.inr ⟨memRead1_unknown hr hb, hr, rfl⟩)
  · exact .inr (.inl ⟨memRead1_outOfRange hr, hr⟩)

/-! ## `MemWrite` -/

theorem memWrite4_misaligned {s : State} {a v : Word} (h : a.toNat % 4 ≠ 0) :
    s.memWrite4 a v = .error .misalignedAccess := by
  rw [State.memWrite4, if_pos h]

theorem memWrite4_outOfRange {s : State} {a v : Word} (h : a.toNat % 4 = 0) (hr : s.cfg.memSize ≤ a.toNat + 3) :
    s.memWrite4 a v = .error .accessOutOfRange := by
  rw [State.memWrite4, if_neg (not_not.mpr h), if_pos hr]

theorem memWrite4_cases (s : State) (a v : Word) :
    (∃ t, s.memWrite4 a v = .ok t) ∨ (s.memWrite4 a v = .error .misalignedAccess ∧ a.toNat % 4 ≠ 0) ∨
      (s.memWrite4 a v = .error .accessOutOfRange ∧ a.toNat % 4 = 0 ∧ s.cfg.memSize ≤ a.toNat + 3) := by
  by_cases ha : a.toNat % 4 = 0
  · obtain hr | hr := Nat.lt_or_ge (a.toNat + 3) s.cfg.memSize
    · exact .inl ⟨_, memWrite4_eq_ok.mpr ⟨ha, hr, rfl⟩⟩
    · exact .inr (.inr ⟨memWrite4_outOfRange ha hr, ha, hr⟩)
  · exact .inr (.inl ⟨memWrite4_misaligned ha, ha⟩)

theorem memWrite1_outOfRange {s : State} {a : Word} {v : Byte} (h : s.cfg.memSize ≤ a.toNat) :
    s.memWrite1 a v = .error .accessOutOfRange := by
  rw [State.memWrite1, if_pos h]

theorem memWrite1_cases (s : State) (a : Word) (v : Byte) :
    (∃ t, s.memWrite1 a v = .ok t) ∨ (s.memWrite1 a v = .error .accessOutOfRange ∧ s.cfg.memSize ≤ a.toNat) := by
  obtain hr | hr := Nat.lt_or_ge a.toNat s.cfg.memSize
  · exact .inl ⟨_, memWrite1_eq_ok.mpr ⟨hr, rfl⟩⟩
  · exact .inr ⟨memWrite1_outOfRange hr, hr⟩

/-! ## The fetch -/

theorem fetch_misaligned {s : State} (h : s.pc.toNat % 4 ≠ 0) : s.fetch = .error .misalignedFetch := by
  rw [State.fetch, if_pos h]

theorem fetch_outOfRange {s : State} (h : s.pc.toNat % 4 = 0) (hr : s.cfg.memSize ≤ s.pc.toNat + 3) :
    s.fetch = .error .accessOutOfRange := by
  rw [State.fetch, if_neg (not_not.mpr h), if_pos hr]

theorem fetch_afterStore {s : State} (h : s.pc.toNat % 4 = 0) (hr : s.pc.toNat + 3 < s.cfg.memSize)
    (hst : s.cfg.fetchStored = .stop) (hw : s.pc.toNat ∈ s.written) : s.fetch = .error .fetchAfterStore := by
  rw [State.fetch, if_neg (not_not.mpr h), if_neg (not_le.mpr hr), if_pos ⟨hst, hw⟩]

theorem fetch_eq_wordAt {s : State} (h : s.pc.toNat % 4 = 0) (hr : s.pc.toNat + 3 < s.cfg.memSize)
    (hst : ¬ (s.cfg.fetchStored = .stop ∧ s.pc.toNat ∈ s.written)) : s.fetch = s.wordAt s.pc.toNat := by
  rw [State.fetch, if_neg (not_not.mpr h), if_neg (not_le.mpr hr), if_neg hst]

/-- A step whose fetch stops stops for the same reason (R260). -/
theorem step_of_fetch_error {s : State} {f : Fault} (h : s.fetch = .error f) : step s = .fault f := by
  simp only [step, h, raiseUndefined]

/-- Settles O9: the fetch is the word's read, and the word's value is that of its four bytes. -/
theorem fetchReadsBigEndianWord : Obligations.FetchReadsBigEndianWord := by
  intro s b0 b1 b2 b3 ha hr hst h0 h1 h2 h3
  have hfetch : s.fetch = s.wordAt s.pc.toNat := fetch_eq_wordAt ha hr fun h => hst h.1 h.2
  exact ⟨wordOfBytes b0 b1 b2 b3, hfetch.trans (wordAt_eq_ok.mpr ⟨b0, b1, b2, b3, h0, h1, h2, h3, rfl⟩),
    wordOfBytes_toNat b0 b1 b2 b3⟩

/-- Settles O10, one check of the fetch after the other. -/
theorem fetchStopsInOrder : Obligations.FetchStopsInOrder := fun _ =>
  ⟨fun ha => step_of_fetch_error (fetch_misaligned ha),
    fun ha hr => step_of_fetch_error (fetch_outOfRange ha hr),
    fun ha hr hst hw => step_of_fetch_error (fetch_afterStore ha hr hst hw),
    fun ha hr hst hk => step_of_fetch_error ((fetch_eq_wordAt ha hr hst).trans (wordAt_of_unknown hk))⟩

end Sys2Proof.Machine
end

section
/-! PROOFS. The order of bytes (20_memory.md R42): the accesses that see one word, by word, by byte, by fetch and after a
store. -/

namespace Sys2Proof.Machine

/-- The byte `k` places above an aligned address does not wrap around (R41). -/
theorem toNat_add_ofNat_aligned {a : Word} (ha : a.toNat % 4 = 0) {k : Nat} (hk : k < 4) :
    (a + BitVec.ofNat 32 k).toNat = a.toNat + k := by
  have := a.isLt
  rw [BitVec.toNat_add, BitVec.toNat_ofNat]
  omega

/-- A byte access inside a word that reads sees `W[31-8k : 24-8k]` (R42). -/
theorem memRead1_of_memRead4 {s : State} {a x w : Word} {k : Nat} (h : s.memRead4 a = .ok w) (hk : k < 4)
    (hx : x.toNat = a.toNat + k) : s.memRead1 x = .ok (byteOfWord w k) := by
  obtain ⟨-, hr, hw⟩ := memRead4_eq_ok.mp h
  rw [memRead1_eq_ok, hx]
  exact ⟨by omega, wordAt_eq_ok_iff_bytes.mp hw k hk⟩

/-- A fetch from a word that a load reads sees what the load sees (R42, R48). -/
theorem fetch_eq_of_memRead4 {s : State} {w v : Word} (h : s.memRead4 s.pc = .ok w) (hv : s.fetch = .ok v) : v = w := by
  obtain ⟨-, -, hw⟩ := memRead4_eq_ok.mp h
  obtain ⟨-, -, -, hv⟩ := fetch_eq_ok.mp hv
  exact Except.ok.inj (hv.symm.trans hw)

/-- A word that was written reads back (R42, R54). -/
theorem memRead4_of_memWrite4 {s t : State} {a w : Word} (h : s.memWrite4 a w = .ok t) : t.memRead4 a = .ok w := by
  obtain ⟨ha, hr, rfl⟩ := memWrite4_eq_ok.mp h
  exact memRead4_eq_ok.mpr ⟨ha, hr, wordAt_writeWord s a.toNat w _⟩

/-- A byte that was written reads back (R54). -/
theorem memRead1_of_memWrite1 {s t : State} {a : Word} {b : Byte} (h : s.memWrite1 a b = .ok t) :
    t.memRead1 a = .ok b := by
  obtain ⟨hr, rfl⟩ := memWrite1_eq_ok.mp h
  exact memRead1_eq_ok.mpr ⟨hr, by simp [read_write]⟩

/-- The bytes of a word that reads, at the addresses of a byte access (R42). -/
theorem memRead1_add_of_memRead4 {s : State} {a w : Word} (h : s.memRead4 a = .ok w) {k : Nat} (hk : k < 4) :
    s.memRead1 (a + BitVec.ofNat 32 k) = .ok (byteOfWord w k) :=
  memRead1_of_memRead4 h hk (toNat_add_ofNat_aligned (memRead4_eq_ok.mp h).1 hk)

/-- Settles O26: what a word, byte and fetch access see of one word, and the same after the word was stored. -/
theorem byteOrderIsBigEndian : Obligations.ByteOrderIsBigEndian := by
  intro s a w
  refine ⟨fun h => ⟨?joined, fun k hk => memRead1_add_of_memRead4 h hk, ?fetched⟩, fun t h => ?stored⟩
  case joined =>
    obtain ⟨-, -, hw⟩ := memRead4_eq_ok.mp h
    exact wordAt_eq_ok.mp hw
  case fetched =>
    rintro rfl v hv
    exact fetch_eq_of_memRead4 h hv
  case stored =>
    have hread := memRead4_of_memWrite4 h
    exact ⟨hread, fun k hk => memRead1_add_of_memRead4 hread hk⟩

end Sys2Proof.Machine
end

section
/-! PROOFS. Loads and stores where they stop (41_load_store_lui.md R120-R123, 60_exceptions.md R234): each ends as its
access does. -/

namespace Sys2Proof.Machine

/-! ## The ends of a load and of a store -/

theorem loadResult_of_error {d : Reg} {r : Except Fault Word} {f : Fault} {s : State} (h : r = .error f) :
    loadResult d r s = .fault f := by
  rw [h]; rfl

/-- A load whose read answers completes with the value read (R120, R121). -/
theorem loadResult_of_ok {d : Reg} {r : Except Fault Word} {v : Word} {s : State} (h : r = .ok v) :
    ∃ t, loadResult d r s = .next t ∧ WroteReg s d v (s.pc + 4) t := by
  rw [h]; exact writeResult_wrote s d v

theorem storeResult_of_error {r : Except Fault State} {f : Fault} (h : r = .error f) : storeResult r = .fault f := by
  rw [h]; rfl

theorem storeResult_of_ok {r : Except Fault State} {u : State} (h : r = .ok u) : ∃ t, storeResult r = .next t :=
  ⟨_, storeResult_next.mpr ⟨u, h, rfl⟩⟩

/-! ## The loads and stores by their accesses -/

theorem exec_lw_eq (d a : Reg) (imm : Imm) (s : State) : exec (.lw d a imm) s =
    loadResult d (s.memRead4 (eaWord (s.readReg a) (immValue s.cfg.immExt.lw imm))) s := rfl

theorem exec_lb_eq (d a : Reg) (imm : Imm) (s : State) : exec (.lb d a imm) s =
    loadResult d ((s.memRead1 (eaByte (s.readReg a) (immValue s.cfg.immExt.lb imm))).map sextByte) s := rfl

theorem exec_sw_eq (r b : Reg) (imm : Imm) (s : State) : exec (.sw r b imm) s =
    storeResult (s.memWrite4 (eaWord (s.readReg b) (immValue s.cfg.immExt.sw imm)) (s.readReg r)) := rfl

theorem exec_sb_of_fits {r b : Reg} {imm : Imm} {s : State} (h : sbFits (s.readReg r) = true) : exec (.sb r b imm) s =
    storeResult (s.memWrite1 (eaByte (s.readReg b) (immValue s.cfg.immExt.sb imm)) (lowByte (s.readReg r))) :=
  if_pos h

theorem exec_sb_of_not_fits {r b : Reg} {imm : Imm} {s : State} (h : ¬ sbFits (s.readReg r) = true) :
    exec (.sb r b imm) s = .fault .sbValueRange :=
  if_neg h

/-- `LB` stops where its byte's read does, the sign extension adding no stop (R121). -/
theorem loadResult_map_of_error {d : Reg} {r : Except Fault Byte} {f : Fault} {s : State} (h : r = .error f) :
    loadResult d (r.map sextByte) s = .fault f :=
  loadResult_of_error (h ▸ rfl)

/-- `LB` of a byte that reads completes with the byte sign-extended (R121). -/
theorem loadResult_map_of_ok {d : Reg} {r : Except Fault Byte} {b : Byte} {s : State} (h : r = .ok b) :
    ∃ t, loadResult d (r.map sextByte) s = .next t ∧ WroteReg s d (b.signExtend 32) (s.pc + 4) t :=
  sextByte_eq b ▸ loadResult_of_ok (h ▸ rfl)

/-! ## Where they stop -/

/-- Settles O29, by the cases of the read that each load makes. -/
theorem loadsStopOnlyWhereStated : Obligations.LoadsStopOnlyWhereStated := by
  intro d a imm s
  simp only [exec_lw_eq, exec_lb_eq]
  generalize eaWord (s.readReg a) (immValue s.cfg.immExt.lw imm) = ew
  generalize eaByte (s.readReg a) (immValue s.cfg.immExt.lb imm) = eb
  refine ⟨⟨fun ha => loadResult_of_error (memRead4_misaligned ha),
    fun ha hr => loadResult_of_error (memRead4_outOfRange ha hr),
    fun ha hr hk => loadResult_of_error ((memRead4_eq_wordAt ha hr).trans (wordAt_of_unknown hk)), ?lw⟩,
    ⟨fun hr => loadResult_map_of_error (memRead1_outOfRange hr),
    fun hr hb => loadResult_map_of_error (memRead1_unknown hr hb), ?lb⟩⟩
  case lw =>
    obtain ⟨w, hw⟩ | ⟨hf, ha⟩ | ⟨hf, ha, hr⟩ | ⟨hf, ha, hr, hk⟩ := memRead4_cases s ew
    · obtain ⟨t, ht, -⟩ := loadResult_of_ok hw
      exact .inl ⟨t, ht⟩
    · exact .inr (.inl ⟨loadResult_of_error hf, ha⟩)
    · exact .inr (.inr (.inl ⟨loadResult_of_error hf, ha, hr⟩))
    · exact .inr (.inr (.inr ⟨loadResult_of_error hf, ha, hr, hk⟩))
  case lb =>
    obtain ⟨b, hb⟩ | ⟨hf, hr⟩ | ⟨hf, hr, hb⟩ := memRead1_cases s eb
    · obtain ⟨t, ht, -⟩ := loadResult_map_of_ok hb
      exact .inl ⟨t, ht⟩
    · exact .inr (.inl ⟨loadResult_map_of_error hf, hr⟩)
    · exact .inr (.inr ⟨loadResult_map_of_error hf, hr, hb⟩)

/-- A value that does not fit lies below or above the range of R123. -/
theorem not_sbFits_iff (v : Word) : ¬ sbFits v = true ↔ v.toInt < -128 ∨ 255 < v.toInt := by
  rw [sbFits_iff]; omega

/-- Settles O32: `SW` by the cases of its write, `SB` by whether its value fits and then by the cases of its write. -/
theorem storesStopOnlyWhereStated : Obligations.StoresStopOnlyWhereStated := by
  intro r b imm s
  refine ⟨⟨fun ha => storeResult_of_error (memWrite4_misaligned ha),
    fun ha hr => storeResult_of_error (memWrite4_outOfRange ha hr), ?sw⟩,
    ⟨fun hv => exec_sb_of_not_fits ((not_sbFits_iff _).mpr hv), fun hlo hhi hr => ?sbRange, ?sb⟩⟩
  case sw =>
    rw [exec_sw_eq]
    obtain ⟨t, ht⟩ | ⟨hf, ha⟩ | ⟨hf, ha, hr⟩ := memWrite4_cases s _ _
    · exact .inl (storeResult_of_ok ht)
    · exact .inr (.inl ⟨storeResult_of_error hf, ha⟩)
    · exact .inr (.inr ⟨storeResult_of_error hf, ha, hr⟩)
  case sbRange =>
    rw [exec_sb_of_fits ((sbFits_iff _).mpr ⟨hlo, hhi⟩)]
    exact storeResult_of_error (memWrite1_outOfRange hr)
  case sb =>
    by_cases hv : sbFits (s.readReg r) = true
    · obtain ⟨hlo, hhi⟩ := (sbFits_iff _).mp hv
      rw [exec_sb_of_fits hv]
      obtain ⟨t, ht⟩ | ⟨hf, hr⟩ := memWrite1_cases s _ _
      · exact .inl (storeResult_of_ok ht)
      · exact .inr (.inr ⟨storeResult_of_error hf, hlo, hhi, hr⟩)
    · exact .inr (.inl ⟨exec_sb_of_not_fits hv, (not_sbFits_iff _).mp hv⟩)

end Sys2Proof.Machine
end

section
/-! PROOFS. What a run keeps (20_memory.md R54, R56): the induction over the steps of a run that does not stop, and by it
the configuration, the marks, the bytes of unmarked words and every byte that no step stores to. -/

namespace Sys2Proof.Machine

/-- What holds at the start of a run that does not stop and is kept by each of its steps holds at its end. -/
theorem runFrom_induction {P : State → Prop} {n : Nat} {s t : State} (h : runFrom n s = ⟨t, none⟩) (hs : P s)
    (hstep : ∀ j u v, j < n → runFrom j s = ⟨u, none⟩ → step u = .next v → P u → P v) : P t := by
  induction n generalizing t with
  | zero =>
    obtain rfl : s = t := congrArg Marked.state h
    exact hs
  | succ n ih =>
    obtain ⟨u, hu, hut⟩ := runFrom_succ_running.mp h
    have hPu : P u := ih hu fun j u v hj => hstep j u v (Nat.lt_succ_of_lt hj)
    exact hstep n u t (Nat.lt_succ_self n) hu hut hPu

/-! ## One step -/

/-- A step never changes the configuration (log 31). -/
theorem step_cfg {s t : State} (h : step s = .next t) : t.cfg = s.cfg := by
  obtain ⟨_, _, _, _, hexec⟩ := step_next h
  exact (exec_effect hexec).cfg

/-- A step takes no mark away (R56). -/
theorem NextShape.written_subset {s t : State} (h : NextShape s t) : s.written ⊆ t.written := by
  cases h with
  | reg d v pc => simp
  | byte a v u hu => exact fun x hx => ((memWrite1_stored hu).marks x).mpr (.inr hx)
  | word a v u hu => exact fun x hx => ((memWrite4_stored hu).marks x).mpr (.inr hx)

/-- A store inside one word leaves every byte of the words without a mark as it was. -/
theorem Stored.read_of_unmarked {s t : State} {a w : Nat} {bs : List Byte} (h : Stored s a w bs t)
    (hword : ∀ b, a ≤ b → b < a + bs.length → b / 4 * 4 = w) {x : Nat} (hx : x / 4 * 4 ∉ t.written) :
    t.mem.read x = s.mem.read x := by
  refine h.outside x ?_
  by_contra hin
  exact hx ((h.marks _).mpr (.inl (hword x (by omega) (by omega))))

/-- A step leaves every byte of the words without a mark as it was (R56). -/
theorem NextShape.read_of_unmarked {s t : State} (h : NextShape s t) {x : Nat} (hx : x / 4 * 4 ∉ t.written) :
    t.mem.read x = s.mem.read x := by
  cases h with
  | reg d v pc => simp
  | byte a v u hu =>
    refine (memWrite1_stored hu).read_of_unmarked (fun b hlo hhi => ?_) hx
    have hhi : b < a.toNat + 1 := hhi
    rw [wordAddress]
    omega
  | word a v u hu =>
    obtain ⟨ha, -, -⟩ := memWrite4_eq_ok.mp hu
    refine (memWrite4_stored hu).read_of_unmarked (fun b hlo hhi => ?_) hx
    have hhi : b < a.toNat + 4 := hhi
    rw [wordAddress]
    omega

/-- A step that does not store to a byte leaves it as it was (R122, R123). -/
theorem step_read_of_not_storesTo {s t : State} {a : Nat} (h : step s = .next t) (ha : s.storesTo a = false) :
    t.mem.read a = s.mem.read a := by
  obtain ⟨w, i, hw, hi, hexec⟩ := step_next h
  have heff := exec_effect hexec
  simp only [State.storesTo, hw, hi] at ha
  cases i with
  | sw r b imm =>
    have hout : ¬ (_ ≤ a ∧ a < _ + 4) := of_decide_eq_false ha
    exact heff.sw_stored.outside a (by simp only [bytesOfWord, List.length_cons, List.length_nil]; omega)
  | sb r b imm =>
    have hne : a ≠ _ := of_decide_eq_false ha
    exact heff.sb_stored.outside a (Nat.lt_or_gt_of_ne hne)
  | _ => exact (heff.sameMemory rfl).bytes a

/-! ## A run -/

theorem runFrom_cfg {n : Nat} {s t : State} (h : runFrom n s = ⟨t, none⟩) : t.cfg = s.cfg :=
  runFrom_induction (P := fun u => u.cfg = s.cfg) h rfl fun _ _ _ _ _ hstep hu => (step_cfg hstep).trans hu

theorem runFrom_written_subset {n : Nat} {s t : State} (h : runFrom n s = ⟨t, none⟩) : s.written ⊆ t.written :=
  runFrom_induction (P := fun u => s.written ⊆ u.written) h (List.Subset.refl _) fun _ _ _ _ _ hstep hu =>
    List.Subset.trans hu (step_shape hstep).written_subset

theorem runFrom_read_of_unmarked {n : Nat} {s t : State} (h : runFrom n s = ⟨t, none⟩) {a : Nat}
    (ha : a / 4 * 4 ∉ t.written) : t.mem.read a = s.mem.read a := by
  refine runFrom_induction (P := fun u => a / 4 * 4 ∉ u.written → u.mem.read a = s.mem.read a) h (fun _ => rfl) ?_ ha
  intro _ u v _ _ hstep hu hv
  have hshape := step_shape hstep
  exact (hshape.read_of_unmarked hv).trans (hu fun hmem => hv (hshape.written_subset hmem))

theorem runFrom_read_of_not_storesTo {n : Nat} {s t : State} (h : runFrom n s = ⟨t, none⟩) {a : Nat}
    (ha : ∀ j, j < n → (runFrom j s).state.storesTo a = false) : t.mem.read a = s.mem.read a := by
  refine runFrom_induction (P := fun u => u.mem.read a = s.mem.read a) h rfl ?_
  intro j u v hj hju hstep hu
  have hstores : u.storesTo a = false := by simpa [hju] using ha j hj
  exact (step_read_of_not_storesTo hstep hstores).trans hu

/-! ## Code and marks (D25) -/

/-- Settles O49: unmarked words keep their bytes, and where a fetch stops at a mark it answers an unmarked word. -/
theorem executedCodeIsNeverModified : Obligations.ExecutedCodeIsNeverModified := by
  intro k s t h
  refine ⟨fun a ha => runFrom_read_of_unmarked h ha, fun hst w hw => ?_⟩
  obtain ⟨haligned, -, hmark, hword⟩ := fetch_eq_ok.mp hw
  have hunmarked : t.pc.toNat ∉ t.written := fun hm => hmark ⟨by rw [runFrom_cfg h, hst], hm⟩
  rw [← hword]
  refine (wordAt_congr fun k hk => runFrom_read_of_unmarked h ?_).symm
  rwa [show (t.pc.toNat + k) / 4 * 4 = t.pc.toNat by omega]

/-- Settles O50: the mark and the configuration are still there at the fetch, so the step after it stops. -/
theorem fetchAfterStoreStops : Obligations.FetchAfterStoreStops := by
  rintro k s t _ hmark h rfl hst haligned hr
  have hcfg := runFrom_cfg h
  have hstep : step t = .fault .fetchAfterStore := step_of_fetch_error
    (fetch_afterStore haligned (hcfg ▸ hr) (hcfg ▸ hst) (runFrom_written_subset h hmark))
  rw [runFrom_succ, h]
  simp [Marked.step, hstep]

end Sys2Proof.Machine
end

section
/-! PROOFS. A load sees the most recent store (20_memory.md R54): the store makes its word or byte readable, a run that does
not store there keeps it so, and the load ends with what it reads. -/

namespace Sys2Proof.Machine

/-- After `SW` its word reads at its effective address (R122). -/
theorem execSw_memRead4 {r b : Reg} {imm : Imm} {s t : State} (h : execSw r b imm s = .next t) :
    t.memRead4 (eaWord (s.readReg b) (immValue s.cfg.immExt.sw imm)) = .ok (s.readReg r) := by
  obtain ⟨u, hu, rfl⟩ := storeResult_next.mp h
  exact memRead4_of_memWrite4 (t := u) hu

/-- After `SB` its byte reads at its effective address (R123). -/
theorem execSb_memRead1 {r b : Reg} {imm : Imm} {s t : State} (h : execSb r b imm s = .next t) :
    t.memRead1 (eaByte (s.readReg b) (immValue s.cfg.immExt.sb imm)) = .ok (lowByte (s.readReg r)) := by
  unfold execSb at h
  split at h
  · obtain ⟨u, hu, rfl⟩ := storeResult_next.mp h
    exact memRead1_of_memWrite1 (t := u) hu
  · cases h

/-- A run that does not store to a word keeps what it reads as (R54). -/
theorem runFrom_memRead4 {n : Nat} {s t : State} (h : runFrom n s = ⟨t, none⟩) {a w : Word}
    (ha : ∀ j, j < n → ∀ k, k < 4 → (runFrom j s).state.storesTo (a.toNat + k) = false) (hw : s.memRead4 a = .ok w) :
    t.memRead4 a = .ok w := by
  obtain ⟨haligned, hr, hword⟩ := memRead4_eq_ok.mp hw
  refine memRead4_eq_ok.mpr ⟨haligned, runFrom_cfg h ▸ hr, ?_⟩
  rw [← hword]
  exact wordAt_congr fun k hk => runFrom_read_of_not_storesTo h fun j hj => ha j hj k hk

/-- A run that does not store to a byte keeps what it reads as (R54). -/
theorem runFrom_memRead1 {n : Nat} {s t : State} (h : runFrom n s = ⟨t, none⟩) {a : Word} {b : Byte}
    (ha : ∀ j, j < n → (runFrom j s).state.storesTo a.toNat = false) (hb : s.memRead1 a = .ok b) :
    t.memRead1 a = .ok b := by
  obtain ⟨hr, hread⟩ := memRead1_eq_ok.mp hb
  exact memRead1_eq_ok.mpr ⟨runFrom_cfg h ▸ hr, (runFrom_read_of_not_storesTo h ha).trans hread⟩

/-- Settles O33: what the store put there still reads at the end of the run, and the load answers it. -/
theorem loadSeesStore : Obligations.LoadSeesStore := by
  intro r b d c immS immL n s t u hrun
  refine ⟨fun hsw hkept => ?sw, fun hsb hkept hea => ?sb⟩
  case sw =>
    have hread := runFrom_memRead4 hrun hkept (execSw_memRead4 hsw)
    refine ⟨fun hea => loadResult_of_ok ?_, fun k hk hea => loadResult_map_of_ok ?_⟩
    · rw [hea]; exact hread
    · exact memRead1_of_memRead4 hread hk hea
  case sb =>
    have hread := runFrom_memRead1 hrun hkept (execSb_memRead1 hsb)
    refine loadResult_map_of_ok (b := lowByte (s.readReg r)) ?_
    rw [hea]; exact hread

end Sys2Proof.Machine
end

section
/-! PROOFS. An instruction's word loaded where the next fetch reads (20_memory.md R48, 44_assembler_pseudo_ops.md R220): the
decoder undoes the encoder (30_encoding.md R82, R83, R86), so the next step runs the instruction. -/

namespace Sys2Proof.Machine

/-- The non-immediate format of a secondary opcode decodes to its instruction, the unused `ARG2` of `NOT` being zero
(R82, R86). -/
theorem decode_nonImmediateWord {m : OpMap} (hm : m.Wf) (op : Secondary) (arg1 arg2 argD : Reg)
    (hnot : op = .not → arg2 = 0) :
    decode m (nonImmediateWord arg1 arg2 argD (m.op2 op)) = .ok (op.instr argD arg1 arg2) := by
  simpa [decode, decodeNonImmediate, secondaryOf_op2 hm] using hnot

/-- A well-formed escape has an assigned `OP2`, and a zero `ARG2` where that is `NOT` (R82, R83). -/
theorem alui_wf_secondary {m : OpMap} {arg1 arg2 argD : Reg} {op2 : Opcode}
    (h : (Instr.alui arg1 arg2 argD op2).wf m = true) :
    ∃ op, m.secondaryOf op2 = some op ∧ (op = .not → arg2 = 0) := by
  simp only [Instr.wf] at h
  cases hop : m.secondaryOf op2 with
  | none => simp [hop] at h
  | some op =>
    refine ⟨op, rfl, ?_⟩
    rintro rfl
    simpa [hop] using h

/-- A well-formed instruction's word decodes to the instruction it names (R82, R83, R86, R160). -/
theorem decode_encode {m : OpMap} (hm : m.Wf) {i : Instr} (hi : i.wf m = true) :
    decode m (encode m i) = .ok (i.selected m) := by
  cases i with
  | alui arg1 arg2 argD op2 =>
    obtain ⟨op, hop, hnot⟩ := alui_wf_secondary hi
    simp only [encode, Instr.selected, hop]
    rw [← op2_of_secondaryOf hop]
    exact decode_nonImmediateWord hm op arg1 arg2 argD hnot
  | not argD arg1 => exact decode_nonImmediateWord hm .not arg1 0 argD fun _ => rfl
  | sub argD arg1 arg2 => exact decode_nonImmediateWord hm .sub arg1 arg2 argD nofun
  | add argD arg1 arg2 => exact decode_nonImmediateWord hm .add arg1 arg2 argD nofun
  | mlt argD arg1 arg2 => exact decode_nonImmediateWord hm .mlt arg1 arg2 argD nofun
  | div argD arg1 arg2 => exact decode_nonImmediateWord hm .div arg1 arg2 argD nofun
  | and argD arg1 arg2 => exact decode_nonImmediateWord hm .and arg1 arg2 argD nofun
  | or argD arg1 arg2 => exact decode_nonImmediateWord hm .or arg1 arg2 argD nofun
  | xor argD arg1 arg2 => exact decode_nonImmediateWord hm .xor arg1 arg2 argD nofun
  | sul argD arg1 arg2 => exact decode_nonImmediateWord hm .sul arg1 arg2 argD nofun
  | ssl argD arg1 arg2 => exact decode_nonImmediateWord hm .ssl arg1 arg2 argD nofun
  | sur argD arg1 arg2 => exact decode_nonImmediateWord hm .sur arg1 arg2 argD nofun
  | ssr argD arg1 arg2 => exact decode_nonImmediateWord hm .ssr arg1 arg2 argD nofun
  | eq argD arg1 arg2 => exact decode_nonImmediateWord hm .eq arg1 arg2 argD nofun
  | neq argD arg1 arg2 => exact decode_nonImmediateWord hm .neq arg1 arg2 argD nofun
  | lt argD arg1 arg2 => exact decode_nonImmediateWord hm .lt arg1 arg2 argD nofun
  | leq argD arg1 arg2 => exact decode_nonImmediateWord hm .leq arg1 arg2 argD nofun
  | _ => simp [encode, decode, Instr.selected, primaryOf_op1 hm]

/-- A word loaded at an aligned pc inside memory is what the fetch answers (log 33). -/
theorem fetch_withFetchWord {s : State} (ha : s.pc.toNat % 4 = 0) (hr : s.pc.toNat + 3 < s.cfg.memSize) (w : Word) :
    (s.withFetchWord 32 w.toNat).fetch = .ok w := by
  have hword : BitVec.ofNat 32 (w.toNat % 2 ^ 32) = w := by
    rw [Nat.mod_eq_of_lt w.isLt, BitVec.ofNat_toNat, BitVec.setWidth_eq]
  refine fetch_eq_ok.mpr ⟨ha, hr, ?unmarked, ?word⟩
  case unmarked => simp [State.withFetchWord]
  case word =>
    rw [State.withFetchWord, hword]
    exact wordAt_writeWord s s.pc.toNat w _

/-- Settles O11: the fetch answers the loaded word, which decodes to the instruction; a word's write leaves every byte
outside it alone. -/
theorem loadedFetchWordRuns : Obligations.LoadedFetchWordRuns := by
  intro s i hm hi ha hr
  refine ⟨step_of_decode (fetch_withFetchWord ha hr _) (decode_encode hm hi), rfl, rfl, rfl, fun a hout => ?_⟩
  rw [State.withFetchWord, read_writeWord, if_neg (by omega), if_neg (by omega), if_neg (by omega), if_neg (by omega)]

end Sys2Proof.Machine
end

section
/-! PROOFS. The fields of a word (30_encoding.md R72, R73): where each stands, a word as its fields, and a masked word field
by field (R87). -/

namespace Sys2Proof

/-! ## The place of each field -/

section
variable (w : Word) {k : Nat}

theorem fieldOp1_getLsbD (hk : k < 5) : (fieldOp1 w).getLsbD k = w.getLsbD (27 + k) := by
  simp [fieldOp1, hk]

theorem fieldArg1_getLsbD (hk : k < 5) : (fieldArg1 w).getLsbD k = w.getLsbD (22 + k) := by
  simp [fieldArg1, hk]

theorem fieldMid_getLsbD (hk : k < 5) : (fieldMid w).getLsbD k = w.getLsbD (17 + k) := by
  simp [fieldMid, hk]

theorem fieldArgD_getLsbD (hk : k < 5) : (fieldArgD w).getLsbD k = w.getLsbD (12 + k) := by
  simp [fieldArgD, hk]

theorem fieldEmpty_getLsbD (hk : k < 7) : (fieldEmpty w).getLsbD k = w.getLsbD (5 + k) := by
  simp [fieldEmpty, hk]

theorem fieldOp2_getLsbD (hk : k < 5) : (fieldOp2 w).getLsbD k = w.getLsbD k := by
  simp [fieldOp2, hk]

theorem fieldImm_getLsbD (hk : k < 17) : (fieldImm w).getLsbD k = w.getLsbD k := by
  simp [fieldImm, hk]

end

/-- Settles O1: a bit of a built word is the bit of the field that stands there, and the field reads back. -/
theorem formatsPlaceFields : Obligations.FormatsPlaceFields := by
  refine fun op1 op2 a b d imm w => ⟨fun k hk => ?short, fun k hk => ?empty, fun k hk => ?imm⟩
  case short =>
    simp only [← fieldOp1_getLsbD _ hk, ← fieldArg1_getLsbD _ hk, ← fieldMid_getLsbD _ hk, ← fieldArgD_getLsbD _ hk,
      ← fieldOp2_getLsbD _ hk]
    simp
  case empty =>
    simp only [← fieldEmpty_getLsbD _ hk]
    simp
  case imm =>
    simp only [← fieldImm_getLsbD _ hk]
    simp

/-! ## A word as its fields -/

/-- A word is the immediate format of its fields (R73). -/
theorem immediateWord_fields (w : Word) : immediateWord (fieldOp1 w) (fieldArg1 w) (fieldMid w) (fieldImm w) = w := by
  calc immediateWord (fieldOp1 w) (fieldArg1 w) (fieldMid w) (fieldImm w)
      = w.extractLsb' 22 10 ++ w.extractLsb' 17 5 ++ w.extractLsb' 0 17 := by
        rw [immediateWord, fieldOp1, fieldArg1, BitVec.extractLsb'_append_extractLsb'_eq_extractLsb' (by rfl)]; rfl
    _ = w.extractLsb' 17 15 ++ w.extractLsb' 0 17 := by
        rw [BitVec.extractLsb'_append_extractLsb'_eq_extractLsb' (by rfl)]
    _ = w.extractLsb' 0 32 := by rw [BitVec.extractLsb'_append_extractLsb'_eq_extractLsb' (by rfl)]
    _ = w := BitVec.extractLsb'_eq_self

/-- `IMM` lies over `ARGD`, `EMPTY` and `OP2` (R72, R73). -/
theorem append_fields_eq_fieldImm (w : Word) : fieldArgD w ++ fieldEmpty w ++ fieldOp2 w = fieldImm w := by
  calc fieldArgD w ++ fieldEmpty w ++ fieldOp2 w
      = w.extractLsb' 5 12 ++ w.extractLsb' 0 5 := by
        rw [fieldArgD, fieldEmpty, BitVec.extractLsb'_append_extractLsb'_eq_extractLsb' (by rfl)]; rfl
    _ = fieldImm w := by rw [fieldImm, BitVec.extractLsb'_append_extractLsb'_eq_extractLsb' (by rfl)]

/-- Words are equal when their fields in the immediate format are (R73). -/
theorem eq_iff_immediate_fields {v w : Word} :
    v = w ↔ fieldOp1 v = fieldOp1 w ∧ fieldArg1 v = fieldArg1 w ∧ fieldMid v = fieldMid w ∧ fieldImm v = fieldImm w := by
  refine ⟨by rintro rfl; simp, fun ⟨hop1, harg1, hmid, himm⟩ => ?_⟩
  rw [← immediateWord_fields v, hop1, harg1, hmid, himm, immediateWord_fields]

/-- Words are equal when their fields in the non-immediate format are (R72). -/
theorem eq_iff_nonImmediate_fields {v w : Word} :
    v = w ↔ fieldOp1 v = fieldOp1 w ∧ fieldArg1 v = fieldArg1 w ∧ fieldMid v = fieldMid w ∧ fieldArgD v = fieldArgD w ∧
      fieldEmpty v = fieldEmpty w ∧ fieldOp2 v = fieldOp2 w := by
  refine ⟨by rintro rfl; simp, fun ⟨hop1, harg1, hmid, hargD, hempty, hop2⟩ => ?_⟩
  have himm : fieldImm v = fieldImm w := by
    rw [← append_fields_eq_fieldImm v, hargD, hempty, hop2, append_fields_eq_fieldImm]
  exact eq_iff_immediate_fields.mpr ⟨hop1, harg1, hmid, himm⟩

/-- A word with `OP1` 00000 and `EMPTY` zero is the non-immediate format of its fields (R72). -/
theorem nonImmediateWord_fields {w : Word} (hop1 : fieldOp1 w = 0) (hempty : fieldEmpty w = 0) :
    nonImmediateWord (fieldArg1 w) (fieldMid w) (fieldArgD w) (fieldOp2 w) = w :=
  eq_iff_nonImmediate_fields.mpr (by simp [hop1, hempty])

/-! ## A masked word -/

section
variable (v w : Word)

@[simp] theorem fieldOp1_and : fieldOp1 (v &&& w) = fieldOp1 v &&& fieldOp1 w := BitVec.extractLsb'_and
@[simp] theorem fieldArg1_and : fieldArg1 (v &&& w) = fieldArg1 v &&& fieldArg1 w := BitVec.extractLsb'_and
@[simp] theorem fieldMid_and : fieldMid (v &&& w) = fieldMid v &&& fieldMid w := BitVec.extractLsb'_and
@[simp] theorem fieldArgD_and : fieldArgD (v &&& w) = fieldArgD v &&& fieldArgD w := BitVec.extractLsb'_and
@[simp] theorem fieldEmpty_and : fieldEmpty (v &&& w) = fieldEmpty v &&& fieldEmpty w := BitVec.extractLsb'_and
@[simp] theorem fieldOp2_and : fieldOp2 (v &&& w) = fieldOp2 v &&& fieldOp2 w := BitVec.extractLsb'_and
@[simp] theorem fieldImm_and : fieldImm (v &&& w) = fieldImm v &&& fieldImm w := BitVec.extractLsb'_and

end

end Sys2Proof
end

section
/-! PROOFS. The decoder inverted (30_encoding.md R82, R83, R86): the words that decode, by format, and what each decodes to.
By it the encoder undoes the decoder, and the decoder over bytes the encoder. -/

namespace Sys2Proof

/-! ## The words that decode -/

/-- The instruction of a primary row with the fields of a word (R76, R78), the escape `ALUI` as itself. -/
def Primary.instr (p : Primary) (w : Word) : Instr :=
  match p with
  | .alui => .alui (fieldArg1 w) (fieldMid w) (fieldArgD w) (fieldOp2 w)
  | .addi => .addi (fieldMid w) (fieldArg1 w) (fieldImm w)
  | .mlti => .mlti (fieldMid w) (fieldArg1 w) (fieldImm w)
  | .divi => .divi (fieldMid w) (fieldArg1 w) (fieldImm w)
  | .andi => .andi (fieldMid w) (fieldArg1 w) (fieldImm w)
  | .ori => .ori (fieldMid w) (fieldArg1 w) (fieldImm w)
  | .xori => .xori (fieldMid w) (fieldArg1 w) (fieldImm w)
  | .suli => .suli (fieldMid w) (fieldArg1 w) (fieldImm w)
  | .ssli => .ssli (fieldMid w) (fieldArg1 w) (fieldImm w)
  | .suri => .suri (fieldMid w) (fieldArg1 w) (fieldImm w)
  | .ssri => .ssri (fieldMid w) (fieldArg1 w) (fieldImm w)
  | .lw => .lw (fieldMid w) (fieldArg1 w) (fieldImm w)
  | .lb => .lb (fieldMid w) (fieldArg1 w) (fieldImm w)
  | .sw => .sw (fieldArg1 w) (fieldMid w) (fieldImm w)
  | .sb => .sb (fieldArg1 w) (fieldMid w) (fieldImm w)
  | .lui => .lui (fieldMid w) (fieldImm w)
  | .beq => .beq (fieldArg1 w) (fieldMid w) (fieldImm w)
  | .bne => .bne (fieldArg1 w) (fieldMid w) (fieldImm w)
  | .blt => .blt (fieldArg1 w) (fieldMid w) (fieldImm w)
  | .ble => .ble (fieldArg1 w) (fieldMid w) (fieldImm w)
  | .jal => .jal (fieldArg1 w) (fieldMid w)

/-- The instruction of a secondary opcode with the fields of a word (R77, R78). -/
def Secondary.instrOf (op : Secondary) (w : Word) : Instr := op.instr (fieldArgD w) (fieldArg1 w) (fieldMid w)

/-- `w` is a word of the immediate row `p`: its unused field, if it has one, is zero (R76, R82). -/
structure ImmediateForm (m : OpMap) (w : Word) (p : Primary) : Prop where
  opcode : m.primaryOf (fieldOp1 w) = some p
  format : p ≠ .alui
  lui : p = .lui → fieldArg1 w = 0
  jal : p = .jal → fieldImm w = 0

/-- `w` is a word of the non-immediate row `op`: `EMPTY` and the unused `ARG2` of `NOT` are zero (R77, R82). -/
structure NonImmediateForm (m : OpMap) (w : Word) (op : Secondary) : Prop where
  escape : fieldOp1 w = 0
  empty : fieldEmpty w = 0
  opcode : m.secondaryOf (fieldOp2 w) = some op
  not : op = .not → fieldMid w = 0

section
variable {m : OpMap} {w : Word} {i : Instr}

theorem ImmediateForm.decode {p : Primary} (h : ImmediateForm m w p) : decode m w = .ok (p.instr w) := by
  obtain ⟨hop, halui, hlui, hjal⟩ := h
  cases p with
  | alui => exact absurd rfl halui
  | lui => simp [Sys2Proof.decode, hop, hlui rfl, Primary.instr]
  | jal => simp [Sys2Proof.decode, hop, hjal rfl, Primary.instr]
  | _ => simp [Sys2Proof.decode, hop, Primary.instr]

theorem NonImmediateForm.decode {op : Secondary} (h : NonImmediateForm m w op) : decode m w = .ok (op.instrOf w) := by
  obtain ⟨hescape, hempty, hop, hnot⟩ := h
  simpa [Sys2Proof.decode, decodeNonImmediate, hescape, hempty, hop, Secondary.instrOf] using hnot

/-- A word of an immediate row decodes only if it has the row's form (R82, R86). -/
theorem immediateForm_of_decode {p : Primary} (hop : m.primaryOf (fieldOp1 w) = some p) (halui : p ≠ .alui)
    (h : decode m w = .ok i) : ImmediateForm m w p := by
  refine ⟨hop, halui, ?lui, ?jal⟩
  case lui =>
    rintro rfl
    by_contra harg1
    simp [decode, hop, show ¬ fieldArg1 w = 0#5 from harg1] at h
  case jal =>
    rintro rfl
    by_contra himm
    simp [decode, hop, show ¬ fieldImm w = 0#17 from himm] at h

/-- A word with `OP1` 00000 decodes only if it has the form of a non-immediate row (R82, R83, R86). -/
theorem nonImmediateForm_of_decode (hescape : fieldOp1 w = 0) (h : decode m w = .ok i) :
    ∃ op, NonImmediateForm m w op := by
  have hdec : decodeNonImmediate m w = .ok i := by simpa [decode, hescape] using h
  unfold decodeNonImmediate at hdec
  split at hdec
  · cases hdec
  next hempty =>
    split at hdec
    · cases hdec
    next op hop =>
      split at hdec
      · cases hdec
      next hnot => exact ⟨op, hescape, not_not.mp hempty, hop, fun hop => by_contra fun hmid => hnot ⟨hop, hmid⟩⟩

/-- The words that decode, by format, and what each decodes to (R86). -/
theorem decode_ok_cases (h : decode m w = .ok i) :
    (∃ p, ImmediateForm m w p ∧ i = p.instr w) ∨ ∃ op, NonImmediateForm m w op ∧ i = op.instrOf w := by
  cases hop : m.primaryOf (fieldOp1 w) with
  | none => simp [decode, hop] at h
  | some p =>
    by_cases halui : p = .alui
    · have hescape : fieldOp1 w = 0 := by rw [← op1_of_primaryOf hop, halui]; rfl
      obtain ⟨op, hform⟩ := nonImmediateForm_of_decode hescape h
      exact .inr ⟨op, hform, by simpa [hform.decode, eq_comm] using h⟩
    · have hform := immediateForm_of_decode hop halui h
      exact .inl ⟨p, hform, by simpa [hform.decode, eq_comm] using h⟩

/-! ## Encoding what was decoded -/

theorem ImmediateForm.encode {p : Primary} (h : ImmediateForm m w p) : encode m (p.instr w) = w := by
  have hword : immediateWord (m.op1 p) (fieldArg1 w) (fieldMid w) (fieldImm w) = w := by
    rw [op1_of_primaryOf h.opcode, immediateWord_fields]
  cases p with
  | alui => exact absurd rfl h.format
  | lui => rwa [h.lui rfl] at hword
  | jal => rwa [h.jal rfl] at hword
  | _ => exact hword

/-- The word of a secondary opcode's instruction (R77, R78), the unused `ARG2` of `NOT` being zero (R82). -/
theorem encode_secondary_instr {op : Secondary} {argD arg1 arg2 : Reg} (hnot : op = .not → arg2 = 0) :
    encode m (op.instr argD arg1 arg2) = nonImmediateWord arg1 arg2 argD (m.op2 op) := by
  cases op with
  | not => rw [hnot rfl]; rfl
  | _ => rfl

theorem NonImmediateForm.encode {op : Secondary} (h : NonImmediateForm m w op) : encode m (op.instrOf w) = w := by
  rw [Secondary.instrOf, encode_secondary_instr h.not, op2_of_secondaryOf h.opcode,
    nonImmediateWord_fields h.escape h.empty]

/-- An instruction other than the escape is well formed under every opcode map: its word has no other check (R82, R83). -/
theorem wf_of_ne_alui (hi : ∀ a b d o, i ≠ .alui a b d o) : i.wf m = true := by
  cases i with
  | alui a b d o => exact absurd rfl (hi a b d o)
  | _ => rfl

theorem Primary.instr_ne_alui {p : Primary} (hp : p ≠ .alui) (w : Word) (a b d : Reg) (o : Opcode) :
    p.instr w ≠ .alui a b d o := by
  cases p with
  | alui => exact absurd rfl hp
  | _ => nofun

theorem Secondary.instrOf_ne_alui (op : Secondary) (w : Word) (a b d : Reg) (o : Opcode) :
    op.instrOf w ≠ .alui a b d o := by
  cases op <;> nofun

end

/-- Settles O3: a word that decodes has the form of a row, and the row's encoding puts its fields back. -/
theorem encodeOfDecodeIsWord : Obligations.EncodeOfDecodeIsWord := by
  intro m w i h
  obtain ⟨p, hform, rfl⟩ | ⟨op, hform, rfl⟩ := decode_ok_cases h
  · have hne := Primary.instr_ne_alui hform.format w
    exact ⟨hform.encode, wf_of_ne_alui hne, hne⟩
  · have hne := op.instrOf_ne_alui w
    exact ⟨hform.encode, wf_of_ne_alui hne, hne⟩

/-! ## Decoding what was encoded -/

theorem selected_of_ne_alui {m : OpMap} {i : Instr} (hi : ∀ a b d o, i ≠ .alui a b d o) : i.selected m = i := by
  cases i with
  | alui a b d o => exact absurd rfl (hi a b d o)
  | _ => rfl

/-- The escape names the instruction of the secondary opcode in its `OP2` (R160). -/
theorem selected_alui {m : OpMap} (hm : m.Wf) (op : Secondary) (arg1 arg2 argD : Reg) :
    (Instr.alui arg1 arg2 argD (m.op2 op)).selected m = op.instr argD arg1 arg2 := by
  simp [Instr.selected, secondaryOf_op2 hm]

/-- The four bytes of a word decode as the word (R42, R70). -/
theorem decodeBytes_bytesOfWord (m : OpMap) (w : Word) : decodeBytes m (bytesOfWord w) = decode m w :=
  congrArg (decode m) (Machine.wordOfBytes_bytesOfWord w)

/-- Settles O2: the four bytes join to the word, which decodes to the instruction that was encoded or that `OP2` selects. -/
theorem decodeOfEncodeIsSelected : Obligations.DecodeOfEncodeIsSelected := by
  intro m hm i hi
  refine ⟨?decoded, selected_of_ne_alui, ?escape⟩
  case decoded =>
    calc decodeBytes m (encodeBytes m i) = decode m (encode m i) := decodeBytes_bytesOfWord m (encode m i)
      _ = .ok (i.selected m) := Machine.decode_encode hm hi
  case escape =>
    rintro a b d op rfl
    exact selected_alui hm op a b d

end Sys2Proof
end

section
/-! PROOFS. What a step does at a reserved word and at the all-zero word (30_encoding.md R82-R84). -/

namespace Sys2Proof.Machine

/-! ## Reserved words -/

/-- A step at a word that does not decode stops as ReservedEncoding (R83). -/
theorem step_of_not_decodes {s : State} {w : Word} (hw : s.fetch = .ok w) (h : ∀ i, decode s.cfg.opMap w ≠ .ok i) :
    step s = .fault .reservedEncoding := by
  cases hdec : decode s.cfg.opMap w with
  | error r => simp only [step, hw, hdec, raiseUndefined]
  | ok i => exact absurd hdec (h i)

/-- The opcode of `NOT` is certain under every opcode map (R75 (c), R77). -/
theorem secondaryOf_not (m : OpMap) : m.secondaryOf 0b00100 = some .not := by
  simp [OpMap.secondaryOf, Secondary.all, OpMap.op2]

/-- Settles O7: each condition contradicts the form that the word must have to decode. -/
theorem reservedWordsStop : Obligations.ReservedWordsStop := by
  intro s w hw
  refine ⟨fun hnone => ?op1, fun h0 hempty => ?empty, fun h0 hnone => ?op2, fun h0 hop2 hmid => ?not,
    fun hlui harg1 => ?lui, fun hjal himm => ?jal⟩ <;> refine step_of_not_decodes hw fun i hi => ?_
  case op1 => simp [decode, hnone] at hi
  case empty =>
    obtain ⟨op, hform⟩ := nonImmediateForm_of_decode h0 hi
    exact hempty hform.empty
  case op2 =>
    obtain ⟨op, hform⟩ := nonImmediateForm_of_decode h0 hi
    exact Option.some_ne_none op (hform.opcode.symm.trans hnone)
  case not =>
    obtain ⟨op, hform⟩ := nonImmediateForm_of_decode h0 hi
    have hop : some op = some .not := by rw [← hform.opcode, hop2, secondaryOf_not]
    exact hmid (hform.not (Option.some.inj hop))
  case lui => exact harg1 ((immediateForm_of_decode hlui nofun hi).lui rfl)
  case jal => exact himm ((immediateForm_of_decode hjal nofun hi).jal rfl)

/-! ## The all-zero word -/

/-- The all-zero word is `SUB $zero, $zero, $zero` under every opcode map (R84). -/
theorem decode_zero (m : OpMap) : decode m 0 = .ok (.sub 0 0 0) := by
  have hop : m.secondaryOf (fieldOp2 0) = some .sub := by
    simp [OpMap.secondaryOf, Secondary.all, OpMap.op2, fieldOp2]
  exact NonImmediateForm.decode ⟨rfl, rfl, hop, nofun⟩

/-- A register result for `$zero` changes the pc alone (R22, R117). -/
theorem WroteReg.jumped_of_zero {s t : State} {v pc : Word} (h : WroteReg s 0 v pc t) : Jumped s pc t where
  regs r := by
    rw [h.regs]
    split_ifs with hr
    · rw [hr]; exact (readReg_zero s).symm
    · rfl
  pc := h.pc
  memory := h.memory
  cfg := h.cfg

/-- Settles O55: the word's instruction writes its difference to `$zero`. -/
theorem zeroWordIsNoOperation : Obligations.ZeroWordIsNoOperation := by
  intro s hw
  obtain ⟨t, hexec, hwrote⟩ := writeResult_wrote s 0 (sub32 (s.readReg 0) (s.readReg 0))
  exact ⟨t, (step_of_decode hw (decode_zero _)).trans hexec, hwrote.jumped_of_zero⟩

end Sys2Proof.Machine
end

section
/-! PROOFS. The opcode maps (30_encoding.md R75-R77): how many values a map assigns, and the decoder under the spec's map
against the rows of the table (R86, R87). -/

namespace Sys2Proof

/-! ## How many values are assigned -/

/-- Rising values of width `n` answer the lookup of exactly as many of the `2^n` numbers as there are values. -/
theorem countP_find?_of_rising {α : Type} {n : Nat} (f : α → BitVec n) {l : List α} (h : (l.map f).Pairwise (· < ·)) :
    (List.range (2 ^ n)).countP (fun k => (l.find? fun p => f p == BitVec.ofNat n k).isSome) = l.length := by
  have hnodup : (l.map fun p => (f p).toNat).Nodup := by
    rw [List.nodup_iff_pairwise_ne, List.pairwise_map]
    exact (List.pairwise_map.mp h).imp fun hlt => (BitVec.lt_def.mp hlt).ne
  have hperm : ((List.range (2 ^ n)).filter fun k => (l.find? fun p => f p == BitVec.ofNat n k).isSome).Perm
      (l.map fun p => (f p).toNat) := by
    refine (List.perm_ext_iff_of_nodup (List.nodup_range.filter _) hnodup).mpr fun k => ?_
    simp only [List.mem_filter, List.mem_range, List.find?_isSome, beq_iff_eq, List.mem_map]
    constructor
    · rintro ⟨hk, p, hp, hfp⟩
      exact ⟨p, hp, by rw [hfp, BitVec.toNat_ofNat, Nat.mod_eq_of_lt hk]⟩
    · rintro ⟨p, hp, rfl⟩
      exact ⟨(f p).isLt, p, hp, by simp⟩
  rw [List.countP_eq_length_filter, hperm.length_eq, List.length_map]

/-- No secondary opcode lies in row `11` (R77). -/
theorem op2_toNat_lt (m : OpMap) (op : Secondary) : (m.op2 op).toNat < 24 := by
  have hrow : ∀ (row : BitVec 2) (col : BitVec 3), row.toNat ≤ 2 → (row ++ col).toNat < 24 := by
    intro row col hle
    rw [BitVec.toNat_append, Nat.shiftLeft_eq, Nat.mul_comm, ← Nat.two_pow_add_eq_or_of_lt col.isLt]
    omega
  cases op with
  | sub | add | mlt | div | not | and | or | xor => simp [OpMap.op2]
  | _ => exact hrow _ _ (by decide)

/-- Settles O6: the values of each table rise, so there are as many as there are opcodes. -/
theorem everyOpcodeMapAssignsTwentyOne : Obligations.EveryOpcodeMapAssignsTwentyOne := by
  intro m hm
  refine ⟨countP_find?_of_rising m.op1 hm.1, countP_find?_of_rising m.op2 hm.2, fun c hc => ?_⟩
  cases hop : m.secondaryOf c with
  | none => rfl
  | some op =>
    have hlt := op2_toNat_lt m op
    rw [op2_of_secondaryOf hop] at hlt
    omega

/-- A value of `OP1` is assigned to an opcode exactly when it is that opcode's (R75, R76). -/
theorem primaryOf_eq_some {m : OpMap} (hm : m.Wf) {c : Opcode} {p : Primary} : m.primaryOf c = some p ↔ c = m.op1 p :=
  ⟨fun h => (op1_of_primaryOf h).symm, fun h => by rw [h, primaryOf_op1 hm]⟩

/-- A value of `OP2` is assigned to an opcode exactly when it is that opcode's (R75, R77). -/
theorem secondaryOf_eq_some {m : OpMap} (hm : m.Wf) {c : Opcode} {op : Secondary} :
    m.secondaryOf c = some op ↔ c = m.op2 op :=
  ⟨fun h => (op2_of_secondaryOf h).symm, fun h => by rw [h, secondaryOf_op2 hm]⟩

/-! ## The table -/

/-- The bits that a primary row fixes (R87). -/
def Primary.mask : Primary → Word
  | .lui => 0xFFC00000
  | .jal => 0xF801FFFF
  | _ => 0xF8000000

/-- The bits that a secondary row fixes (R87). -/
def Secondary.mask : Secondary → Word
  | .not => 0xF83E0FFF
  | _ => 0xF8000FFF

/-- The table's row for a primary opcode: its opcode and zeros elsewhere (R87). -/
def Primary.row (p : Primary) : TableRow := ⟨(p.instr 0).mnemonic, immediateWord (OpMap.decided.op1 p) 0 0 0, p.mask⟩

/-- The table's row for a secondary opcode: its opcode and zeros elsewhere (R87). -/
def Secondary.row (op : Secondary) : TableRow :=
  ⟨(op.instrOf 0).mnemonic, nonImmediateWord 0 0 0 (OpMap.decided.op2 op), op.mask⟩

/-- The 36 rows of the table are those of the opcodes, in the table's order, without the escape (R87). -/
theorem instructionRows_eq :
    instructionRows = (Primary.all.filter (· ≠ .alui)).map Primary.row ++ Secondary.all.map Secondary.row := rfl

theorem mem_instructionRows {r : TableRow} :
    r ∈ instructionRows ↔ (∃ p : Primary, p ≠ .alui ∧ p.row = r) ∨ ∃ op : Secondary, op.row = r := by
  simp [instructionRows_eq, Primary.mem_all, Secondary.mem_all]

theorem Primary.instr_mnemonic (p : Primary) (w : Word) : (p.instr w).mnemonic = p.row.mnemonic := by cases p <;> rfl

theorem Secondary.instrOf_mnemonic (op : Secondary) (w : Word) : (op.instrOf w).mnemonic = op.row.mnemonic := by
  cases op <;> rfl

/-- A field under a mask that covers it only in some rows is zero when it is zero in those rows. -/
theorem and_ite_allOnes_eq_zero {n : Nat} {c : Prop} [Decidable c] (x : BitVec n) :
    x &&& (if c then BitVec.allOnes n else 0) = 0 ↔ (c → x = 0) := by
  split_ifs with hc <;> simp [hc]

theorem Primary.fields_mask (p : Primary) :
    fieldOp1 p.mask = BitVec.allOnes 5 ∧ fieldArg1 p.mask = (if p = .lui then BitVec.allOnes 5 else 0) ∧
      fieldMid p.mask = 0 ∧ fieldImm p.mask = (if p = .jal then BitVec.allOnes 17 else 0) := by
  cases p <;> decide

theorem Secondary.fields_mask (op : Secondary) :
    fieldOp1 op.mask = BitVec.allOnes 5 ∧ fieldArg1 op.mask = 0 ∧
      fieldMid op.mask = (if op = .not then BitVec.allOnes 5 else 0) ∧ fieldArgD op.mask = 0 ∧
      fieldEmpty op.mask = BitVec.allOnes 7 ∧ fieldOp2 op.mask = BitVec.allOnes 5 := by
  cases op <;> decide

/-- The words of a primary row are those of its form (R86, R87). -/
theorem Primary.row_match {p : Primary} (hp : p ≠ .alui) (w : Word) :
    w &&& p.row.mask = p.row.value ↔ ImmediateForm OpMap.decided w p := by
  obtain ⟨hop1, harg1, hmid, himm⟩ := p.fields_mask
  calc w &&& p.row.mask = p.row.value
      ↔ fieldOp1 w = OpMap.decided.op1 p ∧ (p = .lui → fieldArg1 w = 0) ∧ (p = .jal → fieldImm w = 0) := by
        rw [eq_iff_immediate_fields]
        simp only [Primary.row, fieldOp1_and, fieldArg1_and, fieldMid_and, fieldImm_and, hop1, harg1, hmid, himm,
          fieldOp1_immediateWord, fieldArg1_immediateWord, fieldMid_immediateWord, fieldImm_immediateWord,
          and_ite_allOnes_eq_zero, BitVec.and_allOnes]
        simp
    _ ↔ ImmediateForm OpMap.decided w p :=
        ⟨fun ⟨hop, hlui, hjal⟩ => ⟨(primaryOf_eq_some decided_wf).mpr hop, hp, hlui, hjal⟩,
          fun h => ⟨(primaryOf_eq_some decided_wf).mp h.opcode, h.lui, h.jal⟩⟩

/-- The words of a secondary row are those of its form (R86, R87). -/
theorem Secondary.row_match (op : Secondary) (w : Word) :
    w &&& op.row.mask = op.row.value ↔ NonImmediateForm OpMap.decided w op := by
  obtain ⟨hop1, harg1, hmid, hargD, hempty, hop2⟩ := op.fields_mask
  calc w &&& op.row.mask = op.row.value
      ↔ fieldOp1 w = 0 ∧ (op = .not → fieldMid w = 0) ∧ fieldEmpty w = 0 ∧ fieldOp2 w = OpMap.decided.op2 op := by
        rw [eq_iff_nonImmediate_fields]
        simp only [Secondary.row, fieldOp1_and, fieldArg1_and, fieldMid_and, fieldArgD_and, fieldEmpty_and, fieldOp2_and,
          hop1, harg1, hmid, hargD, hempty, hop2, fieldOp1_nonImmediateWord, fieldArg1_nonImmediateWord,
          fieldMid_nonImmediateWord, fieldArgD_nonImmediateWord, fieldEmpty_nonImmediateWord, fieldOp2_nonImmediateWord,
          and_ite_allOnes_eq_zero, BitVec.and_allOnes]
        simp
    _ ↔ NonImmediateForm OpMap.decided w op :=
        ⟨fun ⟨hescape, hnot, hempty, hop⟩ => ⟨hescape, hempty, (secondaryOf_eq_some decided_wf).mpr hop, hnot⟩,
          fun h => ⟨h.escape, h.not, h.empty, (secondaryOf_eq_some decided_wf).mp h.opcode⟩⟩

/-- A word of a row decodes to an instruction with the row's mnemonic (R86). -/
theorem decode_of_row {r : TableRow} {w : Word} (hr : r ∈ instructionRows) (hw : w &&& r.mask = r.value) :
    ∃ i, decode OpMap.decided w = .ok i ∧ i.mnemonic = r.mnemonic := by
  obtain ⟨p, hp, rfl⟩ | ⟨op, rfl⟩ := mem_instructionRows.mp hr
  · exact ⟨p.instr w, ((Primary.row_match hp w).mp hw).decode, p.instr_mnemonic w⟩
  · exact ⟨op.instrOf w, ((op.row_match w).mp hw).decode, op.instrOf_mnemonic w⟩

/-- A word that decodes is of a row (R86). -/
theorem row_of_decode {w : Word} {i : Instr} (h : decode OpMap.decided w = .ok i) :
    ∃ r ∈ instructionRows, w &&& r.mask = r.value := by
  obtain ⟨p, hform, -⟩ | ⟨op, hform, -⟩ := decode_ok_cases h
  · exact ⟨p.row, mem_instructionRows.mpr (.inl ⟨p, hform.format, rfl⟩), (Primary.row_match hform.format w).mpr hform⟩
  · exact ⟨op.row, mem_instructionRows.mpr (.inr ⟨op, rfl⟩), (op.row_match w).mpr hform⟩

/-- Settles O4: the row that the table finds is a row of the word, and every row of the word has the mnemonic of the
instruction that it decodes to. -/
theorem decoderAgreesWithOpcodeTable : Obligations.DecoderAgreesWithOpcodeTable := by
  intro w
  cases hfind : instructionRows.find? fun r => w &&& r.mask == r.value with
  | some r =>
    obtain ⟨i, hdec, hname⟩ := decode_of_row (List.mem_of_find?_eq_some hfind) (by simpa using List.find?_some hfind)
    simp [hdec, hname, Except.toOption]
  | none =>
    cases hdec : decode OpMap.decided w with
    | error e => rfl
    | ok i =>
      obtain ⟨r, hr, hw⟩ := row_of_decode hdec
      exact absurd hw (by simpa using List.find?_eq_none.mp hfind r hr)

/-- Settles O5, word by word: the eleven words are closed, and the decoder runs on them. -/
theorem writtenOutWordsDecode : Obligations.WrittenOutWordsDecode :=
  ⟨by decide, by decide, by decide, by decide, by decide, by decide, by decide, by decide, by decide, by decide, by decide⟩

end Sys2Proof
end

section
/-! PROOFS. The ALU instructions by the values they write (40_alu_immediate.md R117, R119, 43_alu_register.md R160), once
each in bit-vector operations, and the words of the register forms. -/

namespace Sys2Proof.Machine

/-- A register result completes, and a property of the value computed is one of the value written (R117). -/
theorem writeResult_completes {d : Reg} {v : Word} {s : State} {P : Word → Prop} (h : P v) :
    ∃ t u, writeResult d v s = .next t ∧ WroteReg s d u (s.pc + 4) t ∧ P u := by
  obtain ⟨t, hnext, hwrote⟩ := writeResult_wrote s d v
  exact ⟨t, v, hnext, hwrote, h⟩

section
variable (d a b : Reg) (imm : Imm) (s : State)

theorem exec_not_eq : exec (.not d a) s = writeResult d (~~~s.readReg a) s := by
  rw [← not32_eq]; rfl

theorem exec_and_eq : exec (.and d a b) s = writeResult d (s.readReg a &&& s.readReg b) s := rfl

theorem exec_or_eq : exec (.or d a b) s = writeResult d (s.readReg a ||| s.readReg b) s := rfl

theorem exec_xor_eq : exec (.xor d a b) s = writeResult d (s.readReg a ^^^ s.readReg b) s := rfl

theorem exec_sur_eq : exec (.sur d a b) s = writeResult d (shifted .sur (s.readReg a) (s.readReg b)) s :=
  congrArg (writeResult d · s) (shift_eq_shifted s.cfg .sur _ _ nofun)

theorem exec_ssr_eq : exec (.ssr d a b) s = writeResult d (shifted .ssr (s.readReg a) (s.readReg b)) s :=
  congrArg (writeResult d · s) (shift_eq_shifted s.cfg .ssr _ _ nofun)

theorem exec_addi_eq : exec (.addi d a imm) s = writeResult d (s.readReg a + imm.signExtend 32) s := by
  rw [← sextImm_eq, ← add32_eq]; rfl

theorem exec_mlti_eq :
    exec (.mlti d a imm) s = writeResult d (s.readReg a * widened s.cfg.immExt.mlti imm) s := by
  rw [← immValue_eq, ← mul32_eq]; rfl

theorem exec_divi_eq :
    exec (.divi d a imm) s = writeResult d (div32 s.cfg (s.readReg a) (widened s.cfg.immExt.divi imm)) s := by
  rw [← immValue_eq]; rfl

theorem exec_andi_eq :
    exec (.andi d a imm) s = writeResult d (s.readReg a &&& widened s.cfg.immExt.andi imm) s := by
  rw [← immValue_eq]; rfl

theorem exec_ori_eq :
    exec (.ori d a imm) s = writeResult d (s.readReg a ||| widened s.cfg.immExt.ori imm) s := by
  rw [← immValue_eq]; rfl

theorem exec_xori_eq :
    exec (.xori d a imm) s = writeResult d (s.readReg a ^^^ widened s.cfg.immExt.xori imm) s := by
  rw [← immValue_eq]; rfl

theorem exec_suli_eq :
    exec (.suli d a imm) s = writeResult d (shifted .sul (s.readReg a) (widened s.cfg.immExt.suli imm)) s := by
  rw [← immValue_eq]
  exact congrArg (writeResult d · s) (shift_eq_shifted s.cfg .sul _ _ nofun)

/-- `SSLI` alone keeps the configuration's reading of the shift (R107, D10). -/
theorem exec_ssli_eq :
    exec (.ssli d a imm) s = writeResult d (shift s.cfg .ssl (s.readReg a) (widened s.cfg.immExt.ssli imm)) s := by
  rw [← immValue_eq]; rfl

theorem exec_suri_eq :
    exec (.suri d a imm) s = writeResult d (shifted .sur (s.readReg a) (widened s.cfg.immExt.suri imm)) s := by
  rw [← immValue_eq]
  exact congrArg (writeResult d · s) (shift_eq_shifted s.cfg .sur _ _ nofun)

theorem exec_ssri_eq :
    exec (.ssri d a imm) s = writeResult d (shifted .ssr (s.readReg a) (widened s.cfg.immExt.ssri imm)) s := by
  rw [← immValue_eq]
  exact congrArg (writeResult d · s) (shift_eq_shifted s.cfg .ssr _ _ nofun)

end

/-- The non-immediate format as the join of its shifted fields, bit by bit (R72). -/
theorem nonImmediateWord_eq_shiftedFields (arg1 arg2 argD : Reg) (op2 : Opcode) :
    nonImmediateWord arg1 arg2 argD op2 = shiftedFields arg1 arg2 argD op2 := by
  apply BitVec.eq_of_getLsbD_eq
  intro k hk
  simp only [nonImmediateWord, shiftedFields, BitVec.getLsbD_append, BitVec.getLsbD_or, BitVec.getLsbD_shiftLeft]
  interval_cases k <;> simp

/-- Settles O13, from the bits of each operation's result and the format of its word. -/
theorem logicActsOnEachBit : Obligations.LogicActsOnEachBit := by
  intro d a b s m
  rw [exec_not_eq, exec_and_eq, exec_or_eq, exec_xor_eq]
  exact ⟨writeResult_completes fun k hk => by simp [hk], writeResult_completes fun k _ => BitVec.getLsbD_and,
    writeResult_completes fun k _ => BitVec.getLsbD_or, writeResult_completes fun k _ => BitVec.getLsbD_xor,
    nonImmediateWord_eq_shiftedFields a 0 d _, nonImmediateWord_eq_shiftedFields a b d _,
    nonImmediateWord_eq_shiftedFields a b d _, nonImmediateWord_eq_shiftedFields a b d _⟩

/-- Settles O22: `ADDI` is a register result of that sum. -/
theorem addiAddsSignExtended : Obligations.AddiAddsSignExtended := fun d a imm s =>
  exec_addi_eq d a imm s ▸ writeResult_wrote s d _

/-- Settles O23, each instruction by its equation. -/
theorem immediateAluResults : Obligations.ImmediateAluResults := by
  intro d a imm s
  rw [exec_mlti_eq, exec_andi_eq, exec_ori_eq, exec_xori_eq]
  exact ⟨writeResult_wrote s d _, writeResult_wrote s d _, writeResult_wrote s d _, writeResult_wrote s d _⟩

end Sys2Proof.Machine
end

section
/-! PROOFS. The widened immediate as a number (30_encoding.md R79): the field's own below 2^16, and past the range of the
shift amounts under either widening otherwise. -/

namespace Sys2Proof.Machine

/-- Widening keeps the field's number, or, where it copies a sign bit that is set, adds the 15 bits above it. -/
theorem widened_toNat (e : Ext) (imm : Imm) :
    (widened e imm).toNat = imm.toNat ∨ 2 ^ 16 ≤ imm.toNat ∧ (widened e imm).toNat = imm.toNat + (2 ^ 32 - 2 ^ 17) := by
  cases e with
  | zero => exact .inl (BitVec.toNat_setWidth_of_le (by decide))
  | sign =>
    rw [widened, BitVec.toNat_signExtend, BitVec.toNat_setWidth_of_le (by decide), BitVec.msb_eq_decide]
    by_cases hsign : 2 ^ 16 ≤ imm.toNat
    · exact .inr ⟨hsign, by simpa using hsign⟩
    · exact .inl (by simpa using hsign)

theorem widened_toNat_le_iff (e : Ext) (imm : Imm) : (widened e imm).toNat ≤ 31 ↔ imm.toNat ≤ 31 := by
  have := widened_toNat e imm
  omega

theorem widened_toNat_of_le (e : Ext) {imm : Imm} (h : imm.toNat ≤ 31) : (widened e imm).toNat = imm.toNat := by
  have := widened_toNat e imm
  omega

theorem widened_eq_zero_iff (e : Ext) (imm : Imm) : widened e imm = 0 ↔ imm = 0 := by
  have h := widened_toNat e imm
  simp only [← BitVec.toNat_inj, BitVec.ofNat_eq_ofNat, BitVec.toNat_zero]
  omega

end Sys2Proof.Machine
end

section
/-! PROOFS. Division (40_alu_immediate.md R102, R113): the quotient read signed, its remainder, and `DIVI`. -/

namespace Sys2Proof.Machine

/-- `div32` read signed under either rounding: the two corners, and elsewhere the rounded quotient (R113). -/
theorem div32_signed (c : Config) (a b : Word) (h : c.divSigned = true) :
    div32 c a b = if b = 0 ∨ (a = 0x80000000 ∧ b = 0xFFFFFFFF) then Config.divCorner a b
      else BitVec.ofInt 32 (roundedQuotient c.divRound a.toInt b.toInt) := by
  have hzero : b.toInt = 0 ↔ b = 0 := BitVec.toInt_inj (y := 0)
  have hmin : a.toInt = -2 ^ 31 ↔ a = 0x80000000 := BitVec.toInt_inj (y := 0x80000000)
  have hneg : b.toInt = -1 ↔ b = 0xFFFFFFFF := BitVec.toInt_inj (y := 0xFFFFFFFF)
  simp only [div32, h, if_true, hzero, hmin, hneg, ite_or]

/-- `div32` read signed and rounded toward minus infinity (R113; log 6). -/
theorem div32_eq_flooredQuotient (c : Config) (a b : Word) (hsigned : c.divSigned = true)
    (hround : c.divRound = .towardMinusInf) : div32 c a b = flooredQuotient a b := by
  rw [div32_signed c a b hsigned, hround]; rfl

/-- Outside the corners the default reading is the signed division of bit vectors (R113, D8). -/
theorem div32_eq_sdiv {c : Config} {a b : Word} (hsigned : c.divSigned = true) (hround : c.divRound = .towardZero)
    (hb : b ≠ 0) (hfits : ¬ (a = 0x80000000 ∧ b = 0xFFFFFFFF)) : div32 c a b = a.sdiv b := by
  apply BitVec.eq_of_toInt_eq
  rw [div32_eq_truncatedQuotient c a b hsigned hround, truncatedQuotient, if_neg (not_or.mpr ⟨hb, hfits⟩),
    BitVec.toInt_ofInt, BitVec.toInt_sdiv]

/-- The remainder that R102 computes from the quotient is the signed remainder of bit vectors. -/
theorem sub_sdiv_mul_eq_srem (a b : Word) : a - a.sdiv b * b = a.srem b := by
  apply BitVec.eq_of_toInt_eq
  calc (a - a.sdiv b * b).toInt
      = (a.toInt - a.toInt.tdiv b.toInt * b.toInt).bmod (2 ^ 32) := by
        rw [BitVec.toInt_sub, BitVec.toInt_mul, BitVec.toInt_sdiv, Int.bmod_mul_bmod, Int.sub_bmod_bmod]
    _ = ((a.srem b).toInt).bmod (2 ^ 32) := by rw [BitVec.toInt_srem, Int.tmod_def, mul_comm]
    _ = (a.srem b).toInt := BitVec.toInt_bmod_cancel _

/-- The remainder of a truncated quotient has the dividend's sign. -/
theorem mul_tmod_nonneg (x y : Int) : 0 ≤ x * x.tmod y := by
  obtain hx | hx := le_total 0 x
  · exact mul_nonneg hx (Int.tmod_nonneg y hx)
  · have hneg : 0 ≤ -x * (-x).tmod y := mul_nonneg (by omega) (Int.tmod_nonneg y (by omega))
    simpa [Int.neg_tmod] using hneg

/-- Settles O15: quotient and remainder are the signed ones of bit vectors, which are the integers' truncated ones. -/
theorem truncatedQuotientFits : Obligations.TruncatedQuotientFits := by
  intro c a b hsigned hround hb hfits
  have hcorner : a ≠ BitVec.intMin 32 ∨ b ≠ -1#32 := not_and_or.mp hfits
  have hb' : b.toInt ≠ 0 := fun h => hb (BitVec.eq_of_toInt_eq h)
  rw [div32_eq_sdiv hsigned hround hb hfits, mul32_eq, sub32_eq, sub_sdiv_mul_eq_srem, BitVec.toInt_srem,
    BitVec.toInt_sdiv_of_ne_or_ne a b hcorner]
  refine ⟨rfl, ?law, ?smaller, mul_tmod_nonneg _ _⟩
  case law => exact (Int.tdiv_mul_add_tmod _ _).symm
  case smaller =>
    rw [Int.natAbs_tmod]
    exact Nat.mod_lt _ (Int.natAbs_pos.mpr hb')

/-- Settles O24, each clause from `div32` under its reading. -/
theorem diviNeverTrapsAndTruncates : Obligations.DiviNeverTrapsAndTruncates := by
  intro d a imm s
  rw [exec_divi_eq]
  refine writeResult_completes ⟨div32_eq_truncatedQuotient _ _ _, div32_eq_flooredQuotient _ _ _, ?unsigned, ?zero⟩
  case unsigned =>
    exact fun hunsigned himm => div32_unsigned _ _ _ hunsigned ((widened_eq_zero_iff _ _).not.mpr himm)
  case zero =>
    intro himm
    rw [(widened_eq_zero_iff _ _).mpr himm]
    exact div32_zero _ _

end Sys2Proof.Machine
end

section
/-! PROOFS. Shifts (40_alu_immediate.md R106-R109, R114, R115, 43_alu_register.md R171, R172): the amounts that shift and
those that give the free value, the right shifts as divisions, and the signed left shift where its readings agree. -/

namespace Sys2Proof.Machine

/-! ## By the amount -/

theorem shift_ssl_of_le (c : Config) (a : Word) {amt : Word} (h : amt.toNat ≤ 31) :
    shift c .ssl a amt = sshl32 c a amt.toNat := if_pos h

theorem shift_of_gt (c : Config) (op : ShiftOp) (a : Word) {amt : Word} (h : 31 < amt.toNat) :
    shift c op a amt = Config.shiftOor op a amt := if_neg (by omega)

/-- Settles O25: the immediate's number decides which branch of the shift is taken. -/
theorem immediateShiftsByImmediate : Obligations.ImmediateShiftsByImmediate := by
  intro d a imm s
  rw [exec_suli_eq, exec_suri_eq, exec_ssri_eq, exec_ssli_eq]
  refine ⟨writeResult_wrote s d _, writeResult_wrote s d _, writeResult_wrote s d _,
    writeResult_completes ⟨?asUnsigned, ?inRange, ?beyond⟩, fun e => widened_toNat_le_iff e imm⟩
  case asUnsigned => exact fun h => shift_eq_shifted _ _ _ _ fun _ => h
  case inRange =>
    intro h
    rw [shift_ssl_of_le _ _ ((widened_toNat_le_iff _ _).mpr h), widened_toNat_of_le _ h]
  case beyond =>
    exact fun h => shift_of_gt _ _ _ (not_le.mp ((widened_toNat_le_iff _ _).not.mpr (not_le.mpr h)))

/-! ## The right shifts as divisions -/

/-- The arithmetic right shift rounds the signed quotient down (R114). -/
theorem shifted_ssr_toInt (a : Word) {amt : Word} (h : amt.toNat ≤ 31) :
    (shifted .ssr a amt).toInt = a.toInt.fdiv (2 ^ amt.toNat) := by
  have hshift : shifted .ssr a amt = a.sshiftRight amt.toNat := if_pos h
  rw [hshift, BitVec.toInt_sshiftRight, Int.shiftRight_eq_div_pow, Int.fdiv_eq_ediv_of_nonneg _ (by positivity)]
  norm_cast

/-- The logical right shift is the unsigned quotient (R114). -/
theorem shifted_sur_toNat (a : Word) {amt : Word} (h : amt.toNat ≤ 31) :
    (shifted .sur a amt).toNat = a.toNat / 2 ^ amt.toNat := by
  have hshift : shifted .sur a amt = a >>> amt.toNat := if_pos h
  rw [hshift, BitVec.toNat_ushiftRight, Nat.shiftRight_eq_div_pow]

/-- Settles O18: the register and the immediate forms are the same two shifts. -/
theorem rightShiftsDivide : Obligations.RightShiftsDivide := by
  intro d a b imm s
  rw [exec_ssr_eq, exec_sur_eq, exec_ssri_eq, exec_suri_eq]
  refine ⟨fun h => ⟨writeResult_completes (shifted_ssr_toInt _ h), writeResult_completes (shifted_sur_toNat _ h)⟩,
    fun h => ⟨writeResult_completes ?signed, writeResult_completes ?unsigned⟩⟩
  case signed => rw [shifted_ssr_toInt _ ((widened_toNat_le_iff _ _).mpr h), widened_toNat_of_le _ h]
  case unsigned => rw [shifted_sur_toNat _ ((widened_toNat_le_iff _ _).mpr h), widened_toNat_of_le _ h]

/-! ## The signed left shift -/

section
variable {a : Word} {n : Nat} (hbits : ∀ k, 31 - n ≤ k → k ≤ 31 → a.getLsbD k = a.getLsbD 31)
include hbits

/-- Where bits 31 down to 31-n are equal, shifting all but them out leaves only copies of the sign. -/
theorem sshiftRight_of_topBits : a.sshiftRight (31 - n) = if a.getLsbD 31 then BitVec.allOnes 32 else 0 := by
  apply BitVec.eq_of_getLsbD_eq
  intro k hk
  have hcopy : (a.sshiftRight (31 - n)).getLsbD k = a.getLsbD 31 := by
    rw [BitVec.getLsbD_sshiftRight, decide_eq_false (by omega), Bool.not_false, Bool.true_and]
    split
    · exact hbits _ (by omega) (by omega)
    · exact BitVec.msb_eq_getLsbD_last a
  rw [hcopy]
  split
  · next hneg => rw [hneg, BitVec.getLsbD_allOnes, decide_eq_true hk]
  · next hpos => rw [Bool.eq_false_iff.mpr hpos]; exact BitVec.getLsbD_zero.symm

theorem topBitsEqual_of_topBits : topBitsEqual a n = true := by
  rw [topBitsEqual, shra32_eq, sshiftRight_of_topBits hbits]
  cases a.getLsbD 31 <;> rfl

/-- The number then fits in `32 - n` bits, since its quotient by `2^(31-n)` rounded down is 0 or -1. -/
theorem toInt_bounds_of_topBits : -2 ^ (31 - n) ≤ a.toInt ∧ a.toInt < 2 ^ (31 - n) := by
  have hquotient : a.toInt / 2 ^ (31 - n) = if a.getLsbD 31 then -1 else 0 := by
    calc a.toInt / 2 ^ (31 - n)
        = (a.sshiftRight (31 - n)).toInt := by
          rw [BitVec.toInt_sshiftRight, Int.shiftRight_eq_div_pow]; norm_cast
      _ = if a.getLsbD 31 then -1 else 0 := by
          rw [sshiftRight_of_topBits hbits]; split <;> rfl
  have hpos : (0 : Int) < 2 ^ (31 - n) := by positivity
  have hdiv := Int.mul_ediv_add_emod a.toInt (2 ^ (31 - n))
  have hnonneg := Int.emod_nonneg a.toInt hpos.ne'
  have hlt := Int.emod_lt_of_pos a.toInt hpos
  rw [hquotient] at hdiv
  split at hdiv <;> constructor <;> linarith

end

/-- A left shift whose signed product fits in 32 bits is that product. -/
theorem toInt_shiftLeft_of_fits {a : Word} {n : Nat} (hlow : -2 ^ 31 ≤ a.toInt * 2 ^ n) (hhigh : a.toInt * 2 ^ n < 2 ^ 31) :
    (a <<< n).toInt = a.toInt * 2 ^ n := by
  calc (a <<< n).toInt
      = ((a.toNat : Int) * 2 ^ n).bmod (2 ^ 32) := by rw [BitVec.toInt_shiftLeft, Nat.shiftLeft_eq]; push_cast; rfl
    _ = (a.toInt * 2 ^ n).bmod (2 ^ 32) := by rw [BitVec.toInt_eq_toNat_bmod, Int.bmod_mul_bmod]
    _ = a.toInt * 2 ^ n := Int.bmod_eq_of_le (by norm_num at *; linarith) (by norm_num at *; linarith)

/-- Where the top bits are equal both readings are the unsigned shift (R114). -/
theorem sshl32_of_topBitsEqual {c : Config} {a : Word} {n : Nat} (h : topBitsEqual a n = true) : sshl32 c a n = a <<< n := by
  rw [sshl32, ← shl32_eq]
  cases c.sshl with
  | asUnsigned => rfl
  | openReading => exact if_pos h

/-- Settles O17: the equal top bits make the readings agree, and keep the product by `2^n` inside 32 bits. -/
theorem signedLeftShiftReadingsAgree : Obligations.SignedLeftShiftReadingsAgree := by
  intro c a n hn hbits
  obtain ⟨hlow, hhigh⟩ := toInt_bounds_of_topBits hbits
  have hpow : (2 : Int) ^ (31 - n) * 2 ^ n = 2 ^ 31 := by rw [← pow_add, Nat.sub_add_cancel hn]
  have hpos : (0 : Int) < 2 ^ n := by positivity
  rw [sshl32_of_topBitsEqual (topBitsEqual_of_topBits hbits)]
  exact ⟨rfl, toInt_shiftLeft_of_fits (by nlinarith) (by nlinarith)⟩

end Sys2Proof.Machine
end

section
/-! PROOFS. Loads and stores where they complete (41_load_store_lui.md R120-R123): what a load writes, what a store leaves
in memory, and the byte that `LB` then `SB` copies. -/

namespace Sys2Proof.Machine

/-! ## Loads -/

/-- Settles O27: the word's read answers the joined bytes, and the load ends with it. -/
theorem lwLoadsBigEndianWord : Obligations.LwLoadsBigEndianWord := by
  intro d a imm s b0 b1 b2 b3 ea ha hr h0 h1 h2 h3
  have hword : s.wordAt ea.toNat = .ok (wordOfBytes b0 b1 b2 b3) :=
    wordAt_eq_ok.mpr ⟨b0, b1, b2, b3, h0, h1, h2, h3, rfl⟩
  obtain ⟨t, hnext, hwrote⟩ := loadResult_of_ok (d := d) (memRead4_eq_ok.mpr ⟨ha, hr, hword⟩)
  exact ⟨t, _, hnext, hwrote, wordOfBytes_toNat b0 b1 b2 b3⟩

/-- Settles O28: the byte's read answers, and the load ends with the byte sign-extended. -/
theorem lbLoadsSignExtendedByte : Obligations.LbLoadsSignExtendedByte := fun _ _ _ _ _ hr hb =>
  loadResult_map_of_ok (memRead1_eq_ok.mpr ⟨hr, hb⟩)

/-- `LB` that completes has read a byte and written it sign-extended (R121). -/
theorem exec_lb_next {d c : Reg} {imm : Imm} {s t : State} (h : exec (.lb d c imm) s = .next t) :
    ∃ v, s.mem.read (eaByte (s.readReg c) (immValue s.cfg.immExt.lb imm)).toNat = some v ∧
      WroteReg s d (v.signExtend 32) (s.pc + 4) t := by
  obtain ⟨w, hw, hnext⟩ := loadResult_next.mp h
  cases hread : s.memRead1 (eaByte (s.readReg c) (immValue s.cfg.immExt.lb imm)) with
  | error f => rw [hread] at hw; cases hw
  | ok v =>
    obtain rfl : sextByte v = w := by rw [hread] at hw; exact Except.ok.inj hw
    exact ⟨v, (memRead1_eq_ok.mp hread).2, sextByte_eq v ▸ writeResult_next_wrote hnext⟩

/-! ## Stores -/

/-- The address of the word a byte lies in, as the statements write it (R41). -/
theorem wordAddress_eq_sub (a : Word) : wordAddress a = a.toNat - a.toNat % 4 := by
  unfold wordAddress; omega

/-- Settles O30: the write answers, and what `SW` then stored is the word's four bytes. -/
theorem swStoresBigEndianWord : Obligations.SwStoresBigEndianWord := by
  intro r b imm s ea ha hr
  obtain ⟨t, hnext⟩ := storeResult_of_ok (memWrite4_eq_ok (v := s.readReg r).mpr ⟨ha, hr, rfl⟩)
  have hstored : Stored s ea.toNat (wordAddress ea) (bytesOfWord (s.readReg r)) t := execSw_stored hnext
  rw [wordAddress_aligned ha] at hstored
  exact ⟨t, hnext, hstored⟩

/-- `SB` of a value that fits completes inside memory, with its byte stored and its word marked (R56, R123). -/
theorem exec_sb_stores {r b : Reg} {imm : Imm} {s : State} {ea : Word}
    (hea : eaByte (s.readReg b) (immValue s.cfg.immExt.sb imm) = ea) (hr : ea.toNat < s.cfg.memSize)
    (hfits : sbFits (s.readReg r) = true) :
    ∃ t, exec (.sb r b imm) s = .next t ∧ Stored s ea.toNat (wordAddress ea) [lowByte (s.readReg r)] t := by
  subst hea
  obtain ⟨t, hnext⟩ := storeResult_of_ok (memWrite1_eq_ok (v := lowByte (s.readReg r)).mpr ⟨hr, rfl⟩)
  rw [← exec_sb_of_fits hfits] at hnext
  exact ⟨t, hnext, execSb_stored hnext⟩

/-- Settles O31: a value in the range fits, so `SB` stores its byte. -/
theorem sbStoresLowByte : Obligations.SbStoresLowByte := by
  intro r b imm s ea hr hlo hhi
  obtain ⟨t, hnext, hstored⟩ := exec_sb_stores rfl hr ((sbFits_iff (s.readReg r)).mpr ⟨hlo, hhi⟩)
  rw [wordAddress_eq_sub] at hstored
  exact ⟨t, hnext, hstored⟩

/-! ## `LB` then `SB` -/

/-- A sign-extended byte always fits `SB` (R123, D18). -/
theorem sbFits_signExtend (v : Byte) : sbFits (v.signExtend 32) = true := by
  have hlo := v.le_toInt
  have hhi := v.toInt_lt
  rw [sbFits_iff, BitVec.toInt_signExtend_of_le (by decide)]
  omega

/-- The low byte of a sign-extended byte is the byte (R121, R123). -/
theorem lowByte_signExtend (v : Byte) : lowByte (v.signExtend 32) = v := by
  apply BitVec.eq_of_getLsbD_eq
  intro k hk
  rw [lowByte, BitVec.getLsbD_extractLsb', BitVec.getLsbD_signExtend]
  simp [hk, show k < 32 by omega]

/-- Settles O34: the loaded value fits, its low byte is the byte read, and the load left the base, the configuration and
memory alone. -/
theorem lbThenSbCopiesByte : Obligations.LbThenSbCopiesByte := by
  intro d c b immL immS s t hd hdb hlb src dst hr
  obtain ⟨v, hread, hwrote⟩ := exec_lb_next hlb
  have hvalue : t.readReg d = v.signExtend 32 := by rw [hwrote.regs, if_neg hd, if_pos rfl]
  have hdst : eaByte (t.readReg b) (immValue t.cfg.immExt.sb immS) = dst := by
    rw [hwrote.readReg_of_ne hdb, hwrote.cfg]
  obtain ⟨u, hsb, hstored⟩ := exec_sb_stores hdst (hwrote.cfg ▸ hr) (hvalue ▸ sbFits_signExtend v)
  rw [hvalue, lowByte_signExtend] at hstored
  refine ⟨u, hsb, ?copied, fun a ha => ?kept⟩
  case copied => exact (hstored.inside 0 Nat.one_pos).trans hread.symm
  case kept => exact (hstored.outside a (Nat.lt_or_gt_of_ne ha)).trans (hwrote.memory.bytes a)

end Sys2Proof.Machine
end

section
/-! PROOFS. `LUI`, and the 32-bit constant that `LUI` and `ORI` build (41_load_store_lui.md R124, R126). -/

namespace Sys2Proof.Machine

theorem exec_lui_eq (d : Reg) (imm : Imm) (s : State) :
    exec (.lui d imm) s = writeResult d (imm.setWidth 32 <<< 15) s := by
  rw [← luiValue_eq]; rfl

/-- Settles O35: `LUI` is a register result of the shifted field. -/
theorem luiPlacesUpperBits : Obligations.LuiPlacesUpperBits := fun d imm s =>
  exec_lui_eq d imm s ▸ writeResult_wrote s d _

/-- A second write of the same register supersedes the first. -/
theorem WroteReg.trans {s t u : State} {d : Reg} {v w pc pc' : Word} (hst : WroteReg s d v pc t)
    (htu : WroteReg t d w pc' u) : WroteReg s d w pc' u where
  regs r := by
    rw [htu.regs r, hst.regs r]
    split_ifs <;> rfl
  pc := htu.pc
  memory := ⟨fun a => (htu.memory.bytes a).trans (hst.memory.bytes a), htu.memory.written.trans hst.memory.written⟩
  cfg := htu.cfg.trans hst.cfg

/-- The value written counts only where the register is not `$zero` (R22). -/
theorem WroteReg.congr_value {s t : State} {d : Reg} {v w pc : Word} (h : WroteReg s d v pc t) (hvw : d ≠ 0 → v = w) :
    WroteReg s d w pc t where
  regs r := by
    rw [h.regs r]
    split_ifs with h0 hd
    · rfl
    · exact hvw (hd ▸ h0)
    · rfl
  pc := h.pc
  memory := h.memory
  cfg := h.cfg

/-- Zeros above a number leave it as it is. -/
theorem toNat_zero_append (n : Nat) {m : Nat} (low : BitVec m) : (0#n ++ low).toNat = low.toNat := by
  rw [BitVec.toNat_append, BitVec.toNat_zero, Nat.zero_shiftLeft, Nat.zero_or]

/-- A field whose two top bits are zero widens with zeros under either widening (R79). -/
theorem widened_zero_append (e : Ext) (low : BitVec 15) : widened e (0#2 ++ low) = 0#17 ++ low := by
  have hlow := low.isLt
  have hfield := toNat_zero_append 2 low
  have hwidened := widened_toNat e (0#2 ++ low)
  apply BitVec.eq_of_toNat_eq
  rw [toNat_zero_append 17 low]
  omega

/-- The upper 17 bits and the lower 15 join to the constant, whichever way the lower are widened (R126). -/
theorem lui_or_widened (e : Ext) (k : Word) :
    (k.extractLsb' 15 17).setWidth 32 <<< 15 ||| widened e (0#2 ++ k.extractLsb' 0 15) = k := by
  rw [← luiValue_eq, luiValue, widened_zero_append]
  calc (k.extractLsb' 15 17 ++ 0#15) ||| (0#17 ++ k.extractLsb' 0 15)
      = k.extractLsb' 15 17 ++ k.extractLsb' 0 15 := by
        rw [BitVec.or_append, BitVec.or_zero, BitVec.zero_or]
    _ = k.extractLsb' 0 32 := BitVec.extractLsb'_append_extractLsb'_eq_extractLsb' rfl
    _ = k := BitVec.extractLsb'_eq_self

/-- Settles O36: the `ORI` supersedes what the `LUI` wrote, and the two values join to the constant. -/
theorem luiThenOriBuildsConstant : Obligations.LuiThenOriBuildsConstant := by
  intro d k s
  obtain ⟨t, hlui, hupper⟩ := luiPlacesUpperBits d (k.extractLsb' 15 17) s
  obtain ⟨u, hori, hboth⟩ := writeResult_wrote t d
    (t.readReg d ||| widened t.cfg.immExt.ori (0#2 ++ k.extractLsb' 0 15))
  rw [← exec_ori_eq] at hori
  refine ⟨u, by simp only [loadConstant, execAll, hlui, hori], ?wrote⟩
  have hpc : t.pc + 4 = s.pc + 8 := by rw [hupper.pc, BitVec.add_assoc]; rfl
  rw [hpc] at hboth
  refine (hupper.trans hboth).congr_value fun hd => ?value
  rw [hupper.regs, if_neg hd, if_pos rfl]
  exact lui_or_widened _ k

end Sys2Proof.Machine
end

section
/-! PROOFS. The branches and `JAL` (42_branch_jump.md R140-R147): when a branch is taken, where it then goes, and the
instructions that stay in sequence. -/

namespace Sys2Proof.Machine

/-! ## The conditions (40_alu_immediate.md R116) -/

theorem eq32_iff (a b : Word) : eq32 a b = true ↔ a = b := beq_iff_eq

theorem ne32_iff (a b : Word) : ne32 a b = true ↔ ¬ a = b := by
  rw [ne32, Bool.not_eq_true', ← Bool.not_eq_true, eq32_iff]

section
variable {c : Config} (a b : Word)

theorem lt32_iff_signed (h : c.cmpSigned = true) : lt32 c a b = true ↔ a.toInt < b.toInt := by
  rw [lt32, if_pos h, decide_eq_true_iff]

theorem lt32_iff_unsigned (h : c.cmpSigned = false) : lt32 c a b = true ↔ a.toNat < b.toNat := by
  rw [lt32, h, if_neg Bool.false_ne_true, decide_eq_true_iff]

theorem le32_iff_signed (h : c.cmpSigned = true) : le32 c a b = true ↔ a.toInt ≤ b.toInt := by
  rw [le32, if_pos h, decide_eq_true_iff]

theorem le32_iff_unsigned (h : c.cmpSigned = false) : le32 c a b = true ↔ a.toNat ≤ b.toNat := by
  rw [le32, h, if_neg Bool.false_ne_true, decide_eq_true_iff]

end

/-! ## Where a branch goes -/

/-- A branch completes; taken it goes to the widened immediate shifted left by 2 (R145, D6, D29). -/
theorem branchTo_immValue_jumped {cond : Bool} {P : Prop} [Decidable P] (hcond : cond = true ↔ P) (e : Ext) (imm : Imm)
    (s : State) :
    ∃ t, branchTo cond (immValue e imm) s = .next t ∧ Jumped s (if P then widened e imm <<< 2 else s.pc + 4) t := by
  rw [← if_congr hcond rfl rfl, ← immValue_eq, ← branchTarget_eq]
  exact branchTo_jumped cond (immValue e imm) s

/-- Settles O37: both branches are taken by the equality of the registers. -/
theorem beqBneBranchAbsolutely : Obligations.BeqBneBranchAbsolutely := by
  intro a b imm s
  refine ⟨branchTo_immValue_jumped (eq32_iff _ _) s.cfg.immExt.beq imm s, ?bne⟩
  case bne =>
    rw [← ite_not]
    exact branchTo_immValue_jumped (ne32_iff _ _) s.cfg.immExt.bne imm s

/-- A branch on an order: under each setting of `CMP_SIGNED` it is taken where that setting's order holds (R116, R145). -/
theorem branchTo_ordered_jumped {cond : Bool} {signedOrder unsignedOrder : Prop} [Decidable signedOrder]
    [Decidable unsignedOrder] (e : Ext) (imm : Imm) (s : State)
    (hsigned : s.cfg.cmpSigned = true → (cond = true ↔ signedOrder))
    (hunsigned : s.cfg.cmpSigned = false → (cond = true ↔ unsignedOrder)) :
    ∃ t p, branchTo cond (immValue e imm) s = .next t ∧ Jumped s p t ∧
      (s.cfg.cmpSigned = true → p = if signedOrder then widened e imm <<< 2 else s.pc + 4) ∧
      (s.cfg.cmpSigned = false → p = if unsignedOrder then widened e imm <<< 2 else s.pc + 4) := by
  obtain ⟨t, hnext, hjumped⟩ := branchTo_immValue_jumped (Iff.refl (cond = true)) e imm s
  exact ⟨t, _, hnext, hjumped, fun h => if_congr (hsigned h) rfl rfl, fun h => if_congr (hunsigned h) rfl rfl⟩

/-- Settles O38: each branch is taken where the configured order holds. -/
theorem bltBleBranchAbsolutely : Obligations.BltBleBranchAbsolutely := fun _ _ imm s =>
  ⟨branchTo_ordered_jumped s.cfg.immExt.blt imm s (lt32_iff_signed _ _) (lt32_iff_unsigned _ _),
    branchTo_ordered_jumped s.cfg.immExt.ble imm s (le32_iff_signed _ _) (le32_iff_unsigned _ _)⟩

/-! ## The reach of a branch -/

theorem widened_zero_toNat (imm : Imm) : (widened .zero imm).toNat = imm.toNat :=
  BitVec.toNat_setWidth_of_le (by decide)

/-- Where the sign bit of the field is set, sign extension adds the 15 bits above it (R79). -/
theorem widened_sign_toNat_of_le {imm : Imm} (h : 2 ^ 16 ≤ imm.toNat) :
    (widened .sign imm).toNat = imm.toNat + (2 ^ 32 - 2 ^ 17) := by
  have hmsb : imm.msb = true := by rw [BitVec.msb_eq_decide]; exact decide_eq_true h
  rw [widened, BitVec.toNat_signExtend, hmsb, if_pos rfl, BitVec.toNat_setWidth_of_le (by decide)]

/-- The target as a number: four times the widened immediate, modulo `2^32` (R145). -/
theorem branchTarget_immValue_toNat (e : Ext) (imm : Imm) :
    (branchTarget (immValue e imm)).toNat = 4 * (widened e imm).toNat % 2 ^ 32 := by
  rw [immValue_eq, branchTarget_eq, BitVec.toNat_shiftLeft, Nat.shiftLeft_eq, Nat.mul_comm]

/-- Settles O39: below `2^16` both widenings keep the field's number, from there on only zero extension does. -/
theorem branchTargetsAlignedAndInReach : Obligations.BranchTargetsAlignedAndInReach := by
  intro imm
  have hfield := imm.isLt
  refine ⟨fun e => branchTarget_aligned _, fun hlow e => ?low, fun hhigh => ?high⟩
  case low =>
    have hwidened := widened_toNat e imm
    rw [branchTarget_immValue_toNat]
    omega
  case high =>
    rw [branchTarget_immValue_toNat, branchTarget_immValue_toNat, widened_sign_toNat_of_le hhigh, widened_zero_toNat]
    omega

/-! ## `JAL`, and the instructions in sequence -/

/-- Settles O40: `JAL` has no stop, and what it did is that of every completed `JAL`. -/
theorem jalLinksAndJumpsToOldTarget : Obligations.JalLinksAndJumpsToOldTarget := fun _ _ _ =>
  ⟨_, rfl, execJal_next_wrote rfl⟩

/-- Every effect but that of a transfer leaves the address of the next instruction in the pc (R27, R146). -/
theorem Effect.pc_of_not_isTransfer {i : Instr} {s t : State} (h : Effect s i t) (hi : i.isTransfer = false) :
    t.pc = s.pc + 4 := by
  cases h with
  | result _ hwrote => exact hwrote.pc
  | branch htransfer _ => exact absurd htransfer (Bool.eq_false_iff.mp hi)
  | jal _ => cases hi
  | sw hstored => exact hstored.pc
  | sb hstored => exact hstored.pc

/-- Settles O41: only the effects of a branch and of `JAL` set another pc. -/
theorem onlyTransfersLeaveSequence : Obligations.OnlyTransfersLeaveSequence :=
  fun _ _ _ h => (exec_effect h).pc_of_not_isTransfer

end Sys2Proof.Machine
end

section
/-! PROOFS. The register-register instructions (43_alu_register.md R161-R176): what each writes, in bit-vector operations,
and under each setting of the orders (40_alu_immediate.md R116). -/

namespace Sys2Proof.Machine

section
variable (d a b : Reg) (s : State)

theorem exec_sub_eq : exec (.sub d a b) s = writeResult d (s.readReg a - s.readReg b) s := by
  rw [← sub32_eq]; rfl

theorem exec_add_eq : exec (.add d a b) s = writeResult d (s.readReg a + s.readReg b) s := by
  rw [← add32_eq]; rfl

theorem exec_mlt_eq : exec (.mlt d a b) s = writeResult d (s.readReg a * s.readReg b) s := by
  rw [← mul32_eq]; rfl

theorem exec_div_eq : exec (.div d a b) s = writeResult d (div32 s.cfg (s.readReg a) (s.readReg b)) s := rfl

theorem exec_sul_eq : exec (.sul d a b) s = writeResult d (shifted .sul (s.readReg a) (s.readReg b)) s :=
  congrArg (writeResult d · s) (shift_eq_shifted s.cfg .sul _ _ nofun)

/-- `SSL` alone keeps the configuration's reading of the shift (R170, D10). -/
theorem exec_ssl_eq : exec (.ssl d a b) s = writeResult d (shift s.cfg .ssl (s.readReg a) (s.readReg b)) s := rfl

theorem exec_eq_eq : exec (.eq d a b) s = writeResult d (truthWord (eq32 (s.readReg a) (s.readReg b))) s := rfl

theorem exec_neq_eq : exec (.neq d a b) s = writeResult d (truthWord (ne32 (s.readReg a) (s.readReg b))) s := rfl

theorem exec_lt_eq : exec (.lt d a b) s = writeResult d (truthWord (lt32 s.cfg (s.readReg a) (s.readReg b))) s := rfl

theorem exec_leq_eq : exec (.leq d a b) s = writeResult d (truthWord (le32 s.cfg (s.readReg a) (s.readReg b))) s := rfl

end

/-! ## Arithmetic and shifts -/

/-- Settles O12: the sums and products of bit vectors are those modulo `2^32`, and the words are the format's. -/
theorem subAddMltWrapModulo : Obligations.SubAddMltWrapModulo := by
  intro d a b s m
  rw [exec_sub_eq, exec_add_eq, exec_mlt_eq]
  exact ⟨writeResult_wrote s d _, writeResult_wrote s d _, writeResult_wrote s d _,
    nonImmediateWord_eq_shiftedFields a b d _, nonImmediateWord_eq_shiftedFields a b d _,
    nonImmediateWord_eq_shiftedFields a b d _⟩

/-- Settles O14, each clause from `div32` under its reading. -/
theorem divNeverTrapsAndTruncates : Obligations.DivNeverTrapsAndTruncates := by
  intro d a b s
  rw [exec_div_eq]
  refine writeResult_completes ⟨div32_eq_truncatedQuotient _ _ _, div32_eq_flooredQuotient _ _ _,
    div32_unsigned _ _ _, ?zero⟩
  case zero =>
    intro hb
    rw [hb]
    exact div32_zero _ _

/-- Settles O16: the amount in the register decides which branch of the shift is taken. -/
theorem registerShiftsByWholeAmount : Obligations.RegisterShiftsByWholeAmount := by
  intro d a b s
  rw [exec_sul_eq, exec_sur_eq, exec_ssr_eq, exec_ssl_eq]
  exact ⟨writeResult_wrote s d _, writeResult_wrote s d _, writeResult_wrote s d _,
    writeResult_completes ⟨fun h => shift_eq_shifted _ _ _ _ fun _ => h, shift_ssl_of_le _ _, shift_of_gt _ _ _⟩⟩

/-! ## The set instructions -/

/-- What a set instruction writes is the truth of what its condition decides (R116). -/
theorem truthWord_of_iff {c : Bool} {P : Prop} [Decidable P] (h : c = true ↔ P) : truthWord c = if P then 1 else 0 :=
  if_congr h rfl rfl

/-- Settles O19, by the equality that both conditions decide. -/
theorem eqNeqWriteTruth : Obligations.EqNeqWriteTruth := by
  intro d a b s
  rw [exec_eq_eq, exec_neq_eq, truthWord_of_iff (eq32_iff _ _), truthWord_of_iff (ne32_iff _ _), ite_not]
  exact ⟨writeResult_wrote s d _, writeResult_wrote s d _⟩

/-- Words with the same bit 31 lie equally far above their signed numbers, so both orders sort them alike (R116). -/
theorem toInt_toNat_same_offset {a b : Word} (h : a.getLsbD 31 = b.getLsbD 31) :
    ∃ k : Int, a.toInt = a.toNat - k ∧ b.toInt = b.toNat - k := by
  have hmsb : a.msb = b.msb := by rw [BitVec.msb_eq_getLsbD_last, BitVec.msb_eq_getLsbD_last]; exact h
  rw [BitVec.toInt_eq_msb_cond, BitVec.toInt_eq_msb_cond, hmsb]
  cases b.msb with
  | false => exact ⟨0, by simp⟩
  | true => exact ⟨2 ^ 32, by simp⟩

/-- A condition that reads the signed order under `CMP_SIGNED` and the unsigned one otherwise reads the unsigned one
also where the two agree. -/
theorem iff_unsigned_of_orders {c : Config} {cond : Bool} {signedOrder unsignedOrder agree : Prop}
    (hsigned : c.cmpSigned = true → (cond = true ↔ signedOrder))
    (hunsigned : c.cmpSigned = false → (cond = true ↔ unsignedOrder))
    (hagree : agree → (signedOrder ↔ unsignedOrder)) (h : c.cmpSigned = false ∨ agree) : cond = true ↔ unsignedOrder := by
  cases hc : c.cmpSigned with
  | false => exact hunsigned hc
  | true =>
    have hsame : agree := h.resolve_left (by simp [hc])
    exact (hsigned hc).trans (hagree hsame)

/-- Settles O20: each order under its setting, and the unsigned one also where bit 31 is equal. -/
theorem ltLeqWriteOrder : Obligations.LtLeqWriteOrder := by
  intro d a b s
  rw [exec_lt_eq, exec_leq_eq]
  refine ⟨writeResult_completes ⟨fun h => truthWord_of_iff (lt32_iff_signed _ _ h), fun h => truthWord_of_iff ?lt⟩,
    writeResult_completes ⟨fun h => truthWord_of_iff (le32_iff_signed _ _ h), fun h => truthWord_of_iff ?leq⟩⟩
  case lt =>
    refine iff_unsigned_of_orders (lt32_iff_signed _ _) (lt32_iff_unsigned _ _) (fun hbit => ?_) h
    obtain ⟨k, ha, hb⟩ := toInt_toNat_same_offset hbit
    omega
  case leq =>
    refine iff_unsigned_of_orders (le32_iff_signed _ _) (le32_iff_unsigned _ _) (fun hbit => ?_) h
    obtain ⟨k, ha, hb⟩ := toInt_toNat_same_offset hbit
    omega

end Sys2Proof.Machine
end

section
/-! PROOFS. The escape `ALUI` (43_alu_register.md R160): it is the instruction that its `OP2` selects, which for the eight
certain values of row 00 no opcode map decides (30_encoding.md R75, R77). -/

namespace Sys2Proof.Machine

/-! ## The certain row -/

/-- Row `00` of the secondary map, whose values are certain whole (R75 (c), R77). -/
def certainRow : List Secondary := [.sub, .add, .mlt, .div, .not, .and, .or, .xor]

/-- The certain values find their opcodes under every map, since no other opcode stands before them in the table. -/
theorem secondaryOf_op2_of_certain (m : OpMap) {op : Secondary} (h : op ∈ certainRow) :
    m.secondaryOf (m.op2 op) = some op := by
  have hrising : (certainRow.map m.op2).Pairwise (· < ·) :=
    show ([0, 1, 2, 3, 4, 5, 6, 7] : List Opcode).Pairwise (· < ·) by decide
  have hall : Secondary.all = certainRow ++ [.sul, .ssl, .sur, .ssr, .eq, .neq, .lt, .leq] := rfl
  rw [OpMap.secondaryOf, hall, List.find?_append, find?_of_rising m.op2 hrising h, Option.some_or]

/-! ## What the escape does -/

section
variable {s : State} (a b d : Reg) {o : Opcode}

theorem exec_alui_eq : exec (.alui a b d o) s = execAlui a b d o s := rfl

/-- The escape executes the instruction that `OP2` selects, the unused `ARG2` of `NOT` being zero (R160, R82). -/
theorem exec_alui_of_secondaryOf {op : Secondary} (hop : s.cfg.opMap.secondaryOf o = some op) (hnot : op = .not → b = 0) :
    exec (.alui a b d o) s = exec (op.instr d a b) s := by
  rw [exec_alui_eq, execAlui, hop]
  cases op with
  | not => exact if_neg (not_not.mpr (hnot rfl))
  | _ => rfl

/-- Where `OP2` selects no instruction the escape is reserved (R160, R83). -/
theorem exec_alui_of_unassigned (h : s.cfg.opMap.secondaryOf o = none) :
    exec (.alui a b d o) s = .fault .reservedEncoding := by
  rw [exec_alui_eq, execAlui, h]; rfl

/-- Where `OP2` selects `NOT` and `ARG2` is not zero the escape is reserved (R160, R82). -/
theorem exec_alui_not_of_ne {b : Reg} (hb : b ≠ 0) : exec (.alui a b d 0b00100) s = .fault .reservedEncoding := by
  rw [exec_alui_eq, execAlui, secondaryOf_not]
  exact if_pos hb

/-- A secondary instruction completes in every state with a register result (R117, R160). -/
theorem exec_secondary_writeResult (op : Secondary) : ∃ v, exec (op.instr d a b) s = writeResult d v s := by
  cases op <;> exact ⟨_, rfl⟩

/-- The escape and the instruction that `OP2` selects complete in the same state. -/
theorem exec_alui_completes {op : Secondary} (hop : s.cfg.opMap.secondaryOf o = some op) (hnot : op = .not → b = 0) :
    ∃ t, exec (.alui a b d o) s = .next t ∧ exec (op.instr d a b) s = .next t := by
  obtain ⟨v, hv⟩ := exec_secondary_writeResult (s := s) a b d op
  rw [exec_alui_of_secondaryOf a b d hop hnot, hv]
  exact ⟨_, rfl, rfl⟩

/-- The escape with a certain value writes what that value's instruction writes (R160). -/
theorem exec_alui_certain_wrote {op : Secondary} {v : Word} (hcertain : op ∈ certainRow) (hnot : op = .not → b = 0)
    (h : exec (op.instr d a b) s = writeResult d v s) :
    ∃ t, exec (.alui a b d (s.cfg.opMap.op2 op)) s = .next t ∧ WroteReg s d v (s.pc + 4) t := by
  rw [exec_alui_of_secondaryOf a b d (secondaryOf_op2_of_certain _ hcertain) hnot, h]
  exact writeResult_wrote s d v

end

/-- Settles O21: a well-formed map and the certain row both find the selected instruction, and the two stops are what the
lookup leaves. -/
theorem aluiExecutesSelectedInstruction : Obligations.AluiExecutesSelectedInstruction := by
  intro s a b d
  refine ⟨fun hm op hnot => exec_alui_completes a b d (secondaryOf_op2 hm op) hnot,
    exec_alui_certain_wrote a b d (op := .sub) (by decide) nofun (exec_sub_eq d a b s),
    exec_alui_certain_wrote a b d (op := .add) (by decide) nofun (exec_add_eq d a b s),
    exec_alui_certain_wrote a b d (op := .mlt) (by decide) nofun (exec_mlt_eq d a b s),
    exec_alui_completes a b d (secondaryOf_op2_of_certain _ (op := .div) (by decide)) nofun,
    exec_alui_certain_wrote a 0 d (op := .not) (by decide) (fun _ => rfl) (exec_not_eq d a s),
    exec_alui_certain_wrote a b d (op := .and) (by decide) nofun (exec_and_eq d a b s),
    exec_alui_certain_wrote a b d (op := .or) (by decide) nofun (exec_or_eq d a b s),
    exec_alui_certain_wrote a b d (op := .xor) (by decide) nofun (exec_xor_eq d a b s),
    exec_alui_not_of_ne a d, fun _ h => exec_alui_of_unassigned a b d h⟩

end Sys2Proof.Machine
end

section
/-! PROOFS. The loading of an image (44_assembler_pseudo_ops.md R220, 70_reset_and_hazards.md R251): one word, then by
induction over the image what stays as it was and what each word reads as. -/

namespace Sys2Proof.Machine

/-- A word of the image is loaded exactly where it lies inside memory, and then only memory changes (R220). -/
theorem loadWord_eq_some {s t : State} {index : Nat} {w : Word} :
    s.loadWord index w = some t ↔ 4 * index + 3 < s.cfg.memSize ∧ t = { s with mem := s.mem.writeWord (4 * index) w } := by
  unfold State.loadWord
  split
  · next hout => exact ⟨nofun, fun ⟨hr, _⟩ => absurd hr (not_lt.mpr hout)⟩
  · next hin => exact ⟨fun ht => ⟨not_le.mp hin, (Option.some.inj ht).symm⟩, fun ⟨_, ht⟩ => ht ▸ rfl⟩

/-- An image is loaded by its first word and then the rest. -/
theorem load_cons_eq_some {s t : State} {e : Nat × Word} {image : List (Nat × Word)} :
    s.load (e :: image) = some t ↔ 4 * e.1 + 3 < s.cfg.memSize ∧
      State.load { s with mem := s.mem.writeWord (4 * e.1) e.2 } image = some t := by
  simp only [State.load, Option.bind_eq_some_iff, loadWord_eq_some, and_assoc, exists_and_left, exists_eq_left]

/-- Loading an image changes nothing but memory; in particular it marks no word (R251). -/
theorem load_keeps {image : List (Nat × Word)} {s t : State} (h : s.load image = some t) :
    t.regs = s.regs ∧ t.pc = s.pc ∧ t.written = s.written ∧ t.cfg = s.cfg := by
  induction image generalizing s with
  | nil =>
    obtain rfl := Option.some.inj h
    exact ⟨rfl, rfl, rfl, rfl⟩
  | cons e image ih =>
    obtain ⟨-, hrest⟩ := load_cons_eq_some.mp h
    have hkeeps := ih hrest
    exact hkeeps

/-- A byte of no word of the image is as before (R251). -/
theorem load_read_outside {image : List (Nat × Word)} {s t : State} (h : s.load image = some t) {a : Nat}
    (ha : ∀ e ∈ image, a / 4 ≠ e.1) : t.mem.read a = s.mem.read a := by
  induction image generalizing s with
  | nil => exact Option.some.inj h ▸ rfl
  | cons e image ih =>
    obtain ⟨-, hrest⟩ := load_cons_eq_some.mp h
    obtain ⟨hhead, htail⟩ := List.forall_mem_cons.mp ha
    rw [ih hrest htail, read_writeWord, if_neg (by omega), if_neg (by omega), if_neg (by omega), if_neg (by omega)]

/-- A word of an image with distinct indices lies inside memory and reads back: no later word of the image touches it
(R220). -/
theorem load_wordAt {image : List (Nat × Word)} {s t : State} (hdistinct : (image.map Prod.fst).Nodup)
    (h : s.load image = some t) : ∀ e ∈ image, t.wordAt (4 * e.1) = .ok e.2 ∧ 4 * e.1 + 3 < s.cfg.memSize := by
  induction image generalizing s with
  | nil => nofun
  | cons e image ih =>
    obtain ⟨hr, hrest⟩ := load_cons_eq_some.mp h
    obtain ⟨hnew, hdistinct⟩ := List.nodup_cons.mp hdistinct
    intro x hx
    obtain rfl | hx := List.mem_cons.mp hx
    · have huntouched : ∀ k, k < 4 → ∀ y ∈ image, (4 * x.1 + k) / 4 ≠ y.1 := fun k hk y hy hindex =>
        hnew (List.mem_map.mpr ⟨y, hy, by omega⟩)
      have hword := wordAt_writeWord s (4 * x.1) x.2 s.written
      exact ⟨(wordAt_congr fun k hk => load_read_outside hrest (huntouched k hk)).trans hword, hr⟩
    · exact ih hdistinct hrest x hx

/-- Settles O48: each word by its own load, and all else because only memory at the image's words changes. -/
theorem loadedImageReadsBack : Obligations.LoadedImageReadsBack := fun _ _ _ hdistinct h =>
  ⟨load_wordAt hdistinct h, fun _ => load_read_outside h, load_keeps h⟩

end Sys2Proof.Machine
end

section
/-! PROOFS. The pseudo-ops (44_assembler_pseudo_ops.md R196-R212, D26): one instruction runs as itself, a second register
result supersedes the first, and each expansion by its instructions' equations. -/

namespace Sys2Proof.Machine

/-! ## Running an expansion -/

theorem execAll_cons_of_next {i : Instr} {rest : List Instr} {s t : State} (h : exec i s = .next t) :
    execAll (i :: rest) s = execAll rest t := by
  rw [execAll, h]

/-- An expansion of one instruction that completes. -/
theorem execAll_single {i : Instr} {s t : State} (h : exec i s = .next t) : execAll [i] s = .next t :=
  execAll_cons_of_next h

/-- An expansion to one instruction, with what the instruction is known to do. -/
theorem expansion_of_single {p : Pseudo} {i : Instr} {s : State} {P : State → Prop} (hp : p.expand = some [i])
    (h : ∃ t, exec i s = .next t ∧ P t) : ∃ is t, p.expand = some is ∧ execAll is s = .next t ∧ P t := by
  obtain ⟨t, hnext, hP⟩ := h
  exact ⟨_, t, hp, execAll_single hnext, hP⟩

/-- An expansion to one register result. -/
theorem expansion_of_writeResult {p : Pseudo} {i : Instr} {s : State} {d : Reg} {v w : Word} (hp : p.expand = some [i])
    (hi : exec i s = writeResult d v s) (hvw : v = w) :
    ∃ is t, p.expand = some is ∧ execAll is s = .next t ∧ WroteReg s d w (s.pc + 4) t :=
  expansion_of_single hp (hvw ▸ hi ▸ writeResult_wrote s d v)

/-- The register written has the value, unless it is `$zero` (R22). -/
theorem WroteReg.readReg_self {s t : State} {d : Reg} {v pc : Word} (h : WroteReg s d v pc t) (hd : d ≠ 0) :
    t.readReg d = v := by
  rw [h.regs, if_neg hd, if_pos rfl]

theorem pc_add_four_add_four (pc : Word) : pc + 4 + 4 = pc + 8 := BitVec.add_assoc pc 4 4

/-- An expansion to a register result and its complement in place: `NOT` reads what was just written, and `$zero` shows
neither (R200-R202). -/
theorem expansion_of_complement {p : Pseudo} {i : Instr} {s : State} {d : Reg} {v : Word}
    (hp : p.expand = some [i, .not d d]) (hi : exec i s = writeResult d v s) :
    ∃ is t, p.expand = some is ∧ execAll is s = .next t ∧ WroteReg s d (~~~v) (s.pc + 8) t := by
  obtain ⟨t, hfirst, hwrote⟩ := writeResult_wrote s d v
  obtain ⟨u, hnot, hcomplement⟩ := writeResult_wrote t d (~~~t.readReg d)
  rw [hwrote.pc, pc_add_four_add_four] at hcomplement
  refine ⟨_, u, hp, ?runs, (hwrote.trans hcomplement).congr_value fun hd => ?value⟩
  case runs =>
    rw [execAll_cons_of_next (hi.trans hfirst)]
    exact execAll_single ((exec_not_eq d d t).trans hnot)
  case value => rw [hwrote.readReg_self hd]

/-! ## The register pseudo-ops -/

/-- Settles O56: three are a result and its complement, the others are one instruction with its sources swapped or
`$zero`. -/
theorem registerPseudoOpsMeetPseudocode : Obligations.RegisterPseudoOpsMeetPseudocode := by
  intro d a b s
  refine ⟨expansion_of_complement rfl (exec_and_eq d a b s), expansion_of_complement rfl (exec_or_eq d a b s),
    expansion_of_complement rfl (exec_xor_eq d a b s), expansion_of_writeResult rfl (exec_add_eq d a regZero s) ?cpy,
    expansion_of_writeResult rfl (exec_add_eq d regZero regZero s) ?clr, fun h => ⟨?gtSigned, ?geqSigned⟩,
    fun h => ⟨?gtUnsigned, ?geqUnsigned⟩⟩
  case cpy => exact (congrArg (s.readReg a + ·) (readReg_zero s)).trans (BitVec.add_zero _)
  case clr => exact (congrArg (fun z => z + z) (readReg_zero s)).trans (BitVec.add_zero _)
  case gtSigned => exact expansion_of_writeResult rfl (exec_lt_eq d b a s) (truthWord_of_iff (lt32_iff_signed _ _ h))
  case geqSigned => exact expansion_of_writeResult rfl (exec_leq_eq d b a s) (truthWord_of_iff (le32_iff_signed _ _ h))
  case gtUnsigned => exact expansion_of_writeResult rfl (exec_lt_eq d b a s) (truthWord_of_iff (lt32_iff_unsigned _ _ h))
  case geqUnsigned => exact expansion_of_writeResult rfl (exec_leq_eq d b a s) (truthWord_of_iff (le32_iff_unsigned _ _ h))

/-! ## `SUBI` -/

/-- A number in the signed range of `IMM` comes back out of its field as itself (R79, R81). -/
theorem signExtend_ofInt {v : Int} (hlo : -65536 ≤ v) (hhi : v ≤ 65535) :
    (BitVec.ofInt 17 v).signExtend 32 = BitVec.ofInt 32 v := by
  rw [BitVec.signExtend, BitVec.toInt_ofInt, Int.bmod_eq_of_le (by norm_num; omega) (by norm_num; omega)]

theorem immOfInt_of_fits {v : Int} (h : -65536 ≤ v ∧ v ≤ 65535) : immOfInt v = some (BitVec.ofInt 17 v) := if_pos h

theorem immOfInt_of_not_fits {v : Int} (h : ¬ (-65536 ≤ v ∧ v ≤ 65535)) : immOfInt v = none := if_neg h

/-- Settles O57: the negated number either fits, and adding it subtracts the number, or has no field. -/
theorem subiSubtractsNumber : Obligations.SubiSubtractsNumber := by
  intro d a v s
  refine ⟨fun ⟨hlo, hhi⟩ => ?subtracts, fun h => ?refused⟩
  case subtracts =>
    have hexpand : (Pseudo.subi d a v).expand = some [.addi d a (BitVec.ofInt 17 (-v))] := by
      rw [Pseudo.expand, immOfInt_of_fits (by omega)]; rfl
    refine expansion_of_writeResult hexpand (exec_addi_eq d a _ s) ?_
    rw [signExtend_ofInt (by omega) (by omega), BitVec.ofInt_neg, BitVec.sub_eq_add_neg]
  case refused =>
    rw [Pseudo.expand, immOfInt_of_not_fits (by omega)]; rfl

/-! ## The transfer pseudo-ops -/

/-- Settles O58: `BEQ` of `$zero` with itself is always taken, `BGT` and `BGE` are `BLT` and `BLE` of the swapped registers,
and `JMP` and `RET` are a `JAL`, whose link to `$zero` is discarded. -/
theorem transferPseudoOpsMeetPseudocode : Obligations.TransferPseudoOpsMeetPseudocode := by
  intro a b imm s
  refine ⟨expansion_of_single rfl ?goto, expansion_of_single rfl ?jmp, expansion_of_single rfl ?ret,
    fun h => ⟨expansion_of_single rfl ?bgtSigned, expansion_of_single rfl ?bgeSigned⟩,
    fun h => ⟨expansion_of_single rfl ?bgtUnsigned, expansion_of_single rfl ?bgeUnsigned⟩⟩
  case goto =>
    obtain ⟨hbeq, -⟩ := beqBneBranchAbsolutely regZero regZero imm s
    rwa [if_pos rfl] at hbeq
  case jmp => exact jalLinksAndJumpsToOldTarget regRa a s
  case ret =>
    obtain ⟨t, hnext, hwrote⟩ := jalLinksAndJumpsToOldTarget regZero regRa s
    exact ⟨t, hnext, hwrote.jumped_of_zero⟩
  case bgtSigned => exact branchTo_immValue_jumped (lt32_iff_signed _ _ h) s.cfg.immExt.blt imm s
  case bgeSigned => exact branchTo_immValue_jumped (le32_iff_signed _ _ h) s.cfg.immExt.ble imm s
  case bgtUnsigned => exact branchTo_immValue_jumped (lt32_iff_unsigned _ _ h) s.cfg.immExt.blt imm s
  case bgeUnsigned => exact branchTo_immValue_jumped (le32_iff_unsigned _ _ h) s.cfg.immExt.ble imm s

end Sys2Proof.Machine
end

section
/-! PROOFS. `PUSH` and `POP` (44_assembler_pseudo_ops.md R211, R212): what each does to registers and stack, and that the
second undoes the first. -/

namespace Sys2Proof.Machine

/-- A word offset of 0 addresses the base, however it is widened (R53). -/
theorem eaWord_zero_offset (base : Word) (e : Ext) : eaWord base (immValue e 0) = base := by
  rw [eaWord_eq, immValue_eq, (widened_eq_zero_iff e 0).mpr rfl, BitVec.mul_comm]
  exact BitVec.add_zero base

/-- A word's read looks at nothing but memory and the configuration. -/
theorem memRead4_congr {s t : State} (hmem : SameMemory s t) (hcfg : t.cfg = s.cfg) (a : Word) :
    t.memRead4 a = s.memRead4 a := by
  rw [State.memRead4, hcfg, wordAt_congr fun k _ => hmem.bytes _, State.memRead4]

theorem regSp_ne_zero : regSp ≠ 0 := by decide

/-- `PUSH` at an aligned stack pointer inside memory: the register's word lies at the old stack pointer, which is 4 less
now (R211). -/
theorem push_completes {r : Reg} {s : State} (ha : (s.readReg regSp).toNat % 4 = 0)
    (hr : (s.readReg regSp).toNat + 3 < s.cfg.memSize) :
    ∃ is t, (Pseudo.push r).expand = some is ∧ execAll is s = .next t ∧
      t.memRead4 (s.readReg regSp) = .ok (s.readReg r) ∧ t.readReg regSp = s.readReg regSp - 4 ∧
      (∀ q, q ≠ regSp → t.readReg q = s.readReg q) ∧ t.pc = s.pc + 8 := by
  obtain ⟨t, hsw⟩ : ∃ t, exec (.sw r regSp 0) s = .next t := by
    rw [exec_sw_eq, eaWord_zero_offset]
    exact storeResult_of_ok (memWrite4_eq_ok.mpr ⟨ha, hr, rfl⟩)
  have hstored : StoredBySw s r regSp 0 t := execSw_stored hsw
  have hread := execSw_memRead4 hsw
  rw [eaWord_zero_offset] at hread
  obtain ⟨u, haddi, hsp⟩ := addiAddsSignExtended regSp regSp (BitVec.ofInt 17 (-4)) t
  refine ⟨_, u, rfl, (execAll_cons_of_next hsw).trans (execAll_single haddi), ?read, ?sp, fun q hq => ?other, ?pc⟩
  case read => rw [memRead4_congr hsp.memory hsp.cfg, hread]
  case sp => rw [hsp.readReg_self regSp_ne_zero, hstored.regs, BitVec.sub_eq_add_neg]; rfl
  case other => rw [hsp.readReg_of_ne hq.symm, hstored.regs]
  case pc => rw [hsp.pc, hstored.pc, pc_add_four_add_four]

/-- `POP` where a word reads 4 above the stack pointer: the stack pointer is 4 more, and then the register holds that word
(R212). -/
theorem pop_completes {d : Reg} {s : State} {v : Word} (h : s.memRead4 (s.readReg regSp + 4) = .ok v) :
    ∃ is t, (Pseudo.pop d).expand = some is ∧ execAll is s = .next t ∧ (d ≠ 0 → t.readReg d = v) ∧
      (d ≠ regSp → t.readReg regSp = s.readReg regSp + 4) ∧
      (∀ q, q ≠ d → q ≠ regSp → t.readReg q = s.readReg q) ∧ t.pc = s.pc + 8 := by
  obtain ⟨t, haddi, hsp⟩ := addiAddsSignExtended regSp regSp 4 s
  have hbase : t.readReg regSp = s.readReg regSp + 4 := hsp.readReg_self regSp_ne_zero
  have hread : t.memRead4 (eaWord (t.readReg regSp) (immValue t.cfg.immExt.lw 0)) = .ok v := by
    rw [eaWord_zero_offset, hbase, memRead4_congr hsp.memory hsp.cfg, h]
  obtain ⟨u, hlw, hloaded⟩ := loadResult_of_ok (d := d) (s := t) hread
  rw [← exec_lw_eq] at hlw
  refine ⟨_, u, rfl, (execAll_cons_of_next haddi).trans (execAll_single hlw), hloaded.readReg_self, fun hd => ?sp,
    fun q hd hq => ?other, ?pc⟩
  case sp => rw [hloaded.readReg_of_ne hd, hbase]
  case other => rw [hloaded.readReg_of_ne hd.symm, hsp.readReg_of_ne hq.symm]
  case pc => rw [hloaded.pc, hsp.pc, pc_add_four_add_four]

/-- Settles O59: `POP` reads 4 above the lowered stack pointer, which is where `PUSH` put the word; `$zero` needs no
restoring and `$sp` is the register loaded last. -/
theorem pushPopRestores : Obligations.PushPopRestores := by
  intro r s ha hr
  obtain ⟨push, t, hpush, htnext, hread, hlowered, htother, htpc⟩ := push_completes (r := r) ha hr
  have hraised : t.readReg regSp + 4 = s.readReg regSp := by rw [hlowered, BitVec.sub_add_cancel]
  rw [← hraised] at hread
  obtain ⟨pop, u, hpop, hunext, hloaded, hsp, huother, hupc⟩ := pop_completes (d := r) hread
  rw [hraised] at hread hsp
  refine ⟨push, pop, t, u, hpush, hpop, htnext, hlowered, (memRead4_eq_ok.mp hread).2.2, hunext, fun q => ?restored, ?pc⟩
  case restored =>
    by_cases hq0 : q = 0
    · subst hq0; exact (readReg_zero u).trans (readReg_zero s).symm
    by_cases hqr : q = r
    · subst hqr; exact hloaded hq0
    by_cases hqsp : q = regSp
    · subst hqsp; exact hsp (Ne.symm hqr)
    · rw [huother q hqr hqsp, htother q hqsp]
  case pc => rw [hupc, htpc, BitVec.add_assoc]; rfl

end Sys2Proof.Machine
end

section
/-! PROOFS. Where the assembler puts its words (44_assembler_pseudo_ops.md R194-R220): a line becomes as many words as
the location counter is moved on by, so every word lies where its line was placed, aligned and inside the address space. -/

namespace Sys2Proof

/-! ## Word counts (R196-R212, R215) -/

/-- The number of instructions a pseudo-op becomes where it has an expansion (`Pseudo.expand_length`). -/
def Pseudo.wordCount : Pseudo → Nat
  | .nand _ _ _ | .nor _ _ _ | .nxor _ _ _ | .la _ _ | .lv _ _ | .push _ | .pop _ => 2
  | .subi _ _ _ | .gt _ _ _ | .geq _ _ _ | .cpy _ _ | .clr _ | .bgt _ _ _ | .bge _ _ _ | .goto _ | .jmp _ | .ret => 1

theorem Pseudo.expand_length {p : Pseudo} {is : List Instr} (h : p.expand = some is) : is.length = p.wordCount := by
  cases p with
  | subi argD arg1 imm => obtain ⟨n, -, rfl⟩ := Option.map_eq_some_iff.mp h; rfl
  | _ => obtain rfl := Option.some.inj h; rfl

end Sys2Proof

namespace Sys2Proof.Asm

/-- Every line of the form becomes `n` words (`lineWords_length`): those of a pseudo-op, or one instruction or datum. -/
def Form.HasLength (n : Nat) : Form → Prop
  | .none p => p.wordCount = n
  | .r p => ∀ a, (p a).wordCount = n
  | .rrPseudo p => ∀ a b, (p a b).wordCount = n
  | .rrrPseudo p => ∀ a b c, (p a b c).wordCount = n
  | .rriNegated p => ∀ a b v, (p a b v).wordCount = n
  | .branchPseudo p => ∀ a b v, (p a b v).wordCount = n
  | .target p => ∀ v, (p v).wordCount = n
  | .value p => ∀ a v, (p a v).wordCount = n
  | .location p => ∀ a v, (p a v).wordCount = n
  | .rr _ | .rrr _ | .rri _ | .lui _ | .branch _ | .word => n = 1

/-- The word count beside every mnemonic is that of its form (R216). -/
theorem mnemonics_hasLength : ∀ e ∈ mnemonics, e.2.1.HasLength e.2.2 := by
  simp [mnemonics, Form.HasLength, Pseudo.wordCount]

theorem formOf_hasLength {mn : List Char} {form : Form} {count : Nat} (h : formOf mn = .ok (form, count)) :
    form.HasLength count := by
  unfold formOf at h
  split at h
  · next e he =>
    have hlength := mnemonics_hasLength e (List.mem_of_find?_eq_some he)
    rwa [Except.ok.inj h] at hlength
  · cases h

/-- A computation is not refused exactly when none of its parts is. -/
theorem bind_eq_ok {α β : Type} {x : Except AsmError α} {f : α → Except AsmError β} {b : β} :
    (x >>= f) = .ok b ↔ ∃ a, x = .ok a ∧ f a = .ok b := by
  cases x with
  | error e => exact ⟨nofun, nofun⟩
  | ok a => exact ⟨fun h => ⟨a, rfl, h⟩, fun ⟨_, ha, h⟩ => Except.ok.inj ha ▸ h⟩

theorem pseudoWords_length {m : OpMap} {p : Pseudo} {n : Nat} {ws : List Word} (hp : p.wordCount = n)
    (h : pseudoWords m p = .ok ws) : ws.length = n := by
  unfold pseudoWords at h
  split at h
  · next is his => rw [← Except.ok.inj h, List.length_map, Pseudo.expand_length his, hp]
  · cases h

theorem singleton_length {w : Word} {ws : List Word} {n : Nat} (hn : n = 1)
    (h : (Except.ok [w] : Except AsmError (List Word)) = .ok ws) : ws.length = n := by
  rw [← Except.ok.inj h, hn]; rfl

/-- A line that is not refused becomes as many words as its form says (R216). -/
theorem lineWords_length {m : OpMap} {labels : Labels} {form : Form} {ops : List Operand} {n : Nat} {ws : List Word}
    (hform : form.HasLength n) (h : lineWords m labels form ops = .ok ws) : ws.length = n := by
  unfold lineWords at h
  split at h
  -- the pseudo-ops, whose operands are registers, or pass one check or two
  case h_1 => exact pseudoWords_length hform h
  case h_2 | h_4 | h_6 => exact pseudoWords_length (hform ..) h
  case h_8 =>
    obtain ⟨_, -, h⟩ := bind_eq_ok.mp h
    exact pseudoWords_length (hform ..) h
  case h_11 | h_12 | h_13 | h_14 =>
    obtain ⟨_, -, h⟩ := bind_eq_ok.mp h
    obtain ⟨_, -, h⟩ := bind_eq_ok.mp h
    exact pseudoWords_length (hform ..) h
  -- the instructions and `.WORD`, in the same way
  case h_3 | h_5 => exact singleton_length hform h
  case h_7 | h_9 | h_10 | h_15 =>
    obtain ⟨_, -, h⟩ := bind_eq_ok.mp h
    obtain ⟨_, -, h⟩ := bind_eq_ok.mp h
    exact singleton_length hform h
  -- operands of another form
  case h_16 => cases h

/-! ## Locations (R213-R216) -/

/-- The line lies at a multiple of 4, and its words end inside the 32-bit address space. -/
def Placed.Fits (p : Placed) : Prop :=
  p.location % 4 = 0 ∧ ∃ count, p.form.HasLength count ∧ p.location + 4 * count ≤ 2 ^ 32

/-- What one line does to the walk (R194, R213-R216): a line alone, `.NAME` and `.ORIG` place nothing and leave the
counter where it is or at a multiple of 4; any other line is placed and moves it past its words. -/
theorem place_cons {loc : Nat} {consts : List (Name × Int)} {labels all : Labels} {line : Line} {rest : List Line}
    {placed : List Placed} (h : place loc consts labels (line :: rest) = .ok (placed, all)) :
    (∃ loc' consts' labels', (loc' = loc ∨ loc' % 4 = 0) ∧ place loc' consts' labels' rest = .ok (placed, all)) ∨
    ∃ p count consts' labels' more, placed = p :: more ∧ p.location = loc ∧ p.form.HasLength count ∧
      loc + 4 * count ≤ 2 ^ 32 ∧ place (loc + 4 * count) consts' labels' rest = .ok (more, all) := by
  rw [place] at h
  dsimp only at h
  split at h
  · cases h
  · split at h
    -- a line that holds a label at most
    · exact .inl ⟨loc, _, _, .inl rfl, h⟩
    · split_ifs at h
      -- `.NAME`
      · split at h
        · split at h
          · cases h
          · exact .inl ⟨loc, _, _, .inl rfl, h⟩
        · cases h
        · cases h
      -- `.ORIG`
      · split at h
        · split_ifs at h with hrange haligned
          exact .inl ⟨_, _, _, .inr (not_not.mp haligned), h⟩
        · cases h
      -- a mnemonic, a pseudo-op or `.WORD`
      · split at h
        · cases h
        · next form count hform =>
          split_ifs at h with hend
          split at h
          · cases h
          · next more _ hmore =>
            obtain ⟨rfl, rfl⟩ := Prod.mk.inj (Except.ok.inj h)
            exact .inr ⟨_, count, _, _, more, rfl, rfl, formOf_hasLength hform, not_lt.mp hend, hmore⟩

/-- From an aligned location counter on, every line is placed where it fits. -/
theorem place_fits {lines : List Line} {loc : Nat} {consts : List (Name × Int)} {labels all : Labels}
    {placed : List Placed} (hloc : loc % 4 = 0) (h : place loc consts labels lines = .ok (placed, all)) :
    ∀ p ∈ placed, p.Fits := by
  induction lines generalizing loc consts labels placed with
  | nil =>
    obtain ⟨rfl, -⟩ := Prod.mk.inj (Except.ok.inj h)
    nofun
  | cons line rest ih =>
    obtain ⟨loc', _, _, hloc', hrest⟩ | ⟨p, count, _, _, more, rfl, rfl, hlength, hend, hrest⟩ := place_cons h
    · exact ih (hloc'.elim (fun he => he ▸ hloc) id) hrest
    · exact List.forall_mem_cons.mpr ⟨⟨hloc, count, hlength, hend⟩, ih (by omega) hrest⟩

/-! ## The emitted words (R216, R219) -/

/-- The words of a line lie one after the other from its location on. -/
theorem mem_emitFrom {location : Nat} {text : List Char} {ws : List Word} {e : Emitted}
    (h : e ∈ emitFrom location text ws) : ∃ k, k < ws.length ∧ e.location = location + 4 * k := by
  induction ws generalizing location with
  | nil => cases h
  | cons w ws ih =>
    obtain rfl | h := List.mem_cons.mp h
    · exact ⟨0, Nat.succ_pos _, rfl⟩
    · obtain ⟨k, hk, hlocation⟩ := ih h
      exact ⟨k + 1, Nat.succ_lt_succ hk, by omega⟩

/-- Every emitted word is one of a placed line's. -/
theorem mem_emitAll {m : OpMap} {labels : Labels} {placed : List Placed} {out : List Emitted} {e : Emitted}
    (h : emitAll m labels placed = .ok out) (he : e ∈ out) :
    ∃ p ∈ placed, ∃ ws, lineWords m labels p.form p.operands = .ok ws ∧ e ∈ emitFrom p.location p.text ws := by
  induction placed generalizing out with
  | nil =>
    obtain rfl := Except.ok.inj h
    cases he
  | cons p rest ih =>
    obtain ⟨ws, hws, h⟩ := bind_eq_ok.mp h
    obtain ⟨more, hmore, h⟩ := bind_eq_ok.mp h
    obtain rfl := Except.ok.inj h
    obtain he | he := List.mem_append.mp he
    · exact ⟨p, List.mem_cons_self, ws, hws, he⟩
    · obtain ⟨q, hq, hwords⟩ := ih hmore he
      exact ⟨q, List.mem_cons_of_mem p hq, hwords⟩

/-- A word of a line that fits is aligned and inside the address space. -/
theorem Placed.Fits.word {p : Placed} (hp : p.Fits) {m : OpMap} {labels : Labels} {ws : List Word} {e : Emitted}
    (hws : lineWords m labels p.form p.operands = .ok ws) (he : e ∈ emitFrom p.location p.text ws) :
    e.location % 4 = 0 ∧ e.location + 4 ≤ 2 ^ 32 := by
  obtain ⟨haligned, count, hlength, hend⟩ := hp
  obtain ⟨k, hk, hlocation⟩ := mem_emitFrom he
  rw [lineWords_length hlength hws] at hk
  omega

/-- Lines that assemble were placed and emitted, no two words at one location. -/
theorem assembleLines_ok {m : OpMap} {lines : List Line} {out : List Emitted} (h : assembleLines m lines = .ok out) :
    ∃ placed labels, place 0 [] [] lines = .ok (placed, labels) ∧ emitAll m labels placed = .ok out ∧
      (out.map Emitted.location).Nodup := by
  obtain ⟨⟨placed, labels⟩, hplaced, h⟩ := bind_eq_ok.mp h
  obtain ⟨emitted, hemitted, h⟩ := bind_eq_ok.mp h
  split at h
  · next hdistinct =>
    obtain rfl := Except.ok.inj h
    exact ⟨placed, labels, hplaced, hemitted, hdistinct⟩
  · cases h

/-- Aligned locations that differ have different indices (R219, R220). -/
theorem imageOf_distinct {out : List Emitted} (haligned : ∀ e ∈ out, e.location % 4 = 0)
    (hdistinct : (out.map Emitted.location).Nodup) : ((imageOf out).map Prod.fst).Nodup := by
  rw [imageOf, List.map_map]
  refine List.Nodup.map_on (fun x hx y hy hxy => ?_) (List.Nodup.of_map _ hdistinct)
  have hindex : x.location / 4 = y.location / 4 := hxy
  refine List.inj_on_of_nodup_map hdistinct hx hy ?_
  have := haligned x hx
  have := haligned y hy
  omega

/-- Settles O60: every word belongs to a line that was placed where it fits, and the assembler has checked that the
locations differ. -/
theorem assembledWordsLieApart : Obligations.AssembledWordsLieApart := by
  intro m src out h
  obtain ⟨lines, -, h⟩ := bind_eq_ok.mp h
  obtain ⟨placed, labels, hplaced, hemitted, hdistinct⟩ := assembleLines_ok h
  have hlies : ∀ e ∈ out, e.location % 4 = 0 ∧ e.location + 4 ≤ 2 ^ 32 := fun e he => by
    obtain ⟨p, hp, ws, hws, hword⟩ := mem_emitAll hemitted he
    exact (place_fits (Nat.zero_mod 4) hplaced p hp).word hws hword
  exact ⟨hlies, imageOf_distinct (fun e he => (hlies e he).1) hdistinct⟩

end Sys2Proof.Asm
end

section
/-! PROOFS. How a run ends (60_exceptions.md R231, 70_reset_and_hazards.md R256, R260): a run that has not ended after `k`
steps goes on from there, and the end it reports is the one that fits the steps of the run. -/

namespace Sys2Proof.Machine

/-! ## Stops -/

/-- A step either answers a next state or sets the stopped mark and nothing else (R260). -/
theorem Marked.step_next_or_stop (s : State) :
    (∃ t, Machine.step s = .next t) ∨ ∃ w, Marked.step ⟨s, none⟩ = ⟨s, some w⟩ := by
  cases h : Machine.step s with
  | next t => exact .inl ⟨t, rfl⟩
  | fault f => exact .inr ⟨.fault f, by simp [Marked.step, h]⟩
  | refused r => exact .inr ⟨.refused r, by simp [Marked.step, h]⟩

/-- A run that has not stopped had not stopped at any point before. -/
theorem runFrom_not_stopped_of_le {k j : Nat} {s t : State} (hkj : k ≤ j) (h : runFrom j s = ⟨t, none⟩) :
    (runFrom k s).stopped = none := by
  induction hkj generalizing t with
  | refl => rw [h]
  | step _ ih =>
    obtain ⟨u, hu, -⟩ := runFrom_succ_running.mp h
    exact ih hu

/-- A run whose condition does not hold stops where its step sets the mark, whichever stop it is (R231, R260). -/
theorem runUntilEnd_of_stop {k : Nat} {s : State} {w : Stop} (h : haltsAt s.cfg.halt k s = false)
    (hstop : (Marked.step ⟨s, none⟩).stopped = some w) (fuel : Nat) :
    runUntilEnd (fuel + 1) k s = .stopped k s w := by
  cases hs : Machine.step s with
  | next t => simp [Marked.step, hs] at hstop
  | fault f =>
    obtain rfl : Stop.fault f = w := by simpa [Marked.step, hs] using hstop
    exact runUntilEnd_of_fault h hs fuel
  | refused r =>
    obtain rfl : Stop.refused r = w := by simpa [Marked.step, hs] using hstop
    simp [runUntilEnd, h, hs]

/-- A run whose condition does not hold, and that is allowed no more steps, is unfinished. -/
theorem runUntilEnd_of_no_fuel {k : Nat} {s : State} (h : haltsAt s.cfg.halt k s = false) :
    runUntilEnd 0 k s = .unfinished s := by
  simp [runUntilEnd, h]

/-! ## A run that has not ended yet -/

/-- The run from `s` has come to `t` in `k` steps, and at no state before did the `HALT` condition hold. -/
structure Ongoing (k : Nat) (s t : State) : Prop where
  running : runFrom k s = ⟨t, none⟩
  notYet : ∀ j, j < k → haltsAt s.cfg.halt j (runFrom j s).state = false

theorem ongoing_zero (s : State) : Ongoing 0 s s := ⟨runFrom_zero s, fun _ hj => absurd hj (Nat.not_lt_zero _)⟩

/-- Completion is the condition at a state that an ongoing run has come to (R256). -/
theorem completesAt_iff_ongoing {k : Nat} {s t : State} :
    CompletesAt k s t ↔ Ongoing k s t ∧ haltsAt t.cfg.halt k t = true := by
  constructor
  · rintro ⟨hrun, hhalts, hnotYet⟩
    exact ⟨⟨hrun, hnotYet⟩, by rwa [runFrom_cfg hrun]⟩
  · rintro ⟨⟨hrun, hnotYet⟩, hhalts⟩
    exact ⟨hrun, by rwa [runFrom_cfg hrun] at hhalts, hnotYet⟩

/-- The condition fails up to and including the state after `k` steps exactly where it failed before and fails there. -/
theorem ongoing_and_not_halts {k : Nat} {s t : State} :
    Ongoing k s t ∧ haltsAt t.cfg.halt k t = false ↔
      runFrom k s = ⟨t, none⟩ ∧ ∀ i, i ≤ k → haltsAt s.cfg.halt i (runFrom i s).state = false := by
  constructor
  · rintro ⟨⟨hrun, hnotYet⟩, hhere⟩
    refine ⟨hrun, fun i hi => ?_⟩
    obtain hlt | rfl := Nat.lt_or_eq_of_le hi
    · exact hnotYet i hlt
    · rwa [hrun, ← runFrom_cfg hrun]
  · rintro ⟨hrun, hnever⟩
    have hhere := hnever k le_rfl
    rw [hrun, ← runFrom_cfg hrun] at hhere
    exact ⟨⟨hrun, fun j hj => hnever j hj.le⟩, hhere⟩

/-- One more step of an ongoing run: the condition does not hold and the step answers a next state (R260). -/
theorem ongoing_succ {k : Nat} {s t : State} :
    Ongoing (k + 1) s t ↔ ∃ u, (Ongoing k s u ∧ haltsAt u.cfg.halt k u = false) ∧ step u = .next t := by
  constructor
  · rintro ⟨hrun, hnotYet⟩
    obtain ⟨u, hu, hstep⟩ := runFrom_succ_running.mp hrun
    exact ⟨u, ongoing_and_not_halts.mpr ⟨hu, fun i hi => hnotYet i (Nat.lt_succ_of_le hi)⟩, hstep⟩
  · rintro ⟨u, hu, hstep⟩
    obtain ⟨hrun, hnever⟩ := ongoing_and_not_halts.mp hu
    exact ⟨runFrom_succ_running.mpr ⟨u, hrun, hstep⟩, fun j hj => hnever j (Nat.le_of_lt_succ hj)⟩

/-- `runUntilEnd` takes the steps of an ongoing run and goes on from where it has come to. -/
theorem Ongoing.runUntilEnd_add {k : Nat} {s t : State} (h : Ongoing k s t) (fuel : Nat) :
    runUntilEnd (k + fuel) 0 s = runUntilEnd fuel k t := by
  induction k generalizing t fuel with
  | zero =>
    obtain rfl : s = t := congrArg Marked.state h.running
    rw [Nat.zero_add]
  | succ k ih =>
    obtain ⟨u, ⟨hu, hhere⟩, hstep⟩ := ongoing_succ.mp h
    calc runUntilEnd (k + 1 + fuel) 0 s = runUntilEnd (k + (fuel + 1)) 0 s := by rw [Nat.add_assoc, Nat.add_comm 1]
      _ = runUntilEnd (fuel + 1) k u := ih hu (fuel + 1)
      _ = runUntilEnd fuel (k + 1) t := runUntilEnd_of_next hhere hstep fuel

/-! ## The end that is reported -/

/-- What the end of a run from `s` within `limit` steps says of its steps (`runUntilEnd_eq_iff`). -/
def RunEnd.Fits (limit : Nat) (s : State) : RunEnd → Prop
  | .complete k t => k ≤ limit ∧ CompletesAt k s t
  | .stopped k t w => k < limit ∧ runFrom k s = ⟨t, none⟩ ∧ (runFrom (k + 1) s).stopped = some w ∧
      ∀ i, i ≤ k → haltsAt s.cfg.halt i (runFrom i s).state = false
  | .unfinished t => runFrom limit s = ⟨t, none⟩ ∧ ∀ i, i ≤ limit → haltsAt s.cfg.halt i (runFrom i s).state = false

/-- An ongoing run that has come to where the condition holds reports its completion, which fits. -/
theorem Ongoing.runUntilEnd_fits_of_halts {k : Nat} {s t : State} (h : Ongoing k s t)
    (hhere : haltsAt t.cfg.halt k t = true) (fuel : Nat) : (runUntilEnd fuel k t).Fits (k + fuel) s := by
  rw [runUntilEnd_of_halts hhere]
  exact ⟨Nat.le_add_right k fuel, completesAt_iff_ongoing.mpr ⟨h, hhere⟩⟩

/-- From where an ongoing run has come to, the end that is reported fits. -/
theorem Ongoing.runUntilEnd_fits {k : Nat} {s t : State} (h : Ongoing k s t) (fuel : Nat) :
    (runUntilEnd fuel k t).Fits (k + fuel) s := by
  induction fuel generalizing k t with
  | zero =>
    cases hhere : haltsAt t.cfg.halt k t with
    | true => exact h.runUntilEnd_fits_of_halts hhere _
    | false =>
      rw [runUntilEnd_of_no_fuel hhere]
      exact ongoing_and_not_halts.mp ⟨h, hhere⟩
  | succ fuel ih =>
    cases hhere : haltsAt t.cfg.halt k t with
    | true => exact h.runUntilEnd_fits_of_halts hhere _
    | false =>
      obtain ⟨u, hstep⟩ | ⟨w, hstop⟩ := Marked.step_next_or_stop t
      · rw [runUntilEnd_of_next hhere hstep, ← Nat.succ_add_eq_add_succ]
        exact ih (ongoing_succ.mpr ⟨t, ⟨h, hhere⟩, hstep⟩)
      · rw [runUntilEnd_of_stop hhere (congrArg Marked.stopped hstop)]
        obtain ⟨hrun, hnever⟩ := ongoing_and_not_halts.mp ⟨h, hhere⟩
        exact ⟨by omega, hrun, by rw [runFrom_succ, hrun, hstop], hnever⟩

/-- Only one end fits, the one that is reported. -/
theorem RunEnd.Fits.runUntilEnd_eq {limit : Nat} {s : State} {e : RunEnd} (h : e.Fits limit s) :
    runUntilEnd limit 0 s = e := by
  cases e with
  | complete k t =>
    obtain ⟨hk, hcomplete⟩ := h
    obtain ⟨hongoing, hhalts⟩ := completesAt_iff_ongoing.mp hcomplete
    rw [← Nat.add_sub_of_le hk, hongoing.runUntilEnd_add]
    exact runUntilEnd_of_halts hhalts _
  | stopped k t w =>
    obtain ⟨hk, hrun, hstop, hnever⟩ := h
    obtain ⟨hongoing, hhere⟩ := ongoing_and_not_halts.mpr ⟨hrun, hnever⟩
    obtain ⟨fuel, rfl⟩ := Nat.exists_eq_add_of_lt hk
    rw [runFrom_succ, hrun] at hstop
    rw [Nat.add_assoc, hongoing.runUntilEnd_add]
    exact runUntilEnd_of_stop hhere hstop fuel
  | unfinished t =>
    obtain ⟨hongoing, hhere⟩ := ongoing_and_not_halts.mpr h
    exact (hongoing.runUntilEnd_add 0).trans (runUntilEnd_of_no_fuel hhere)

/-- `runUntilEnd` reports an end exactly where it fits the steps of the run (R260). -/
theorem runUntilEnd_eq_iff {limit : Nat} {s : State} {e : RunEnd} : runUntilEnd limit 0 s = e ↔ e.Fits limit s := by
  constructor
  · rintro rfl
    simpa using (ongoing_zero s).runUntilEnd_fits limit
  · exact RunEnd.Fits.runUntilEnd_eq

/-! ## Completion -/

/-- A run that has stopped is not complete then or later (R231). -/
theorem not_completesAt_of_stopped {k j : Nat} {s t : State} (hstop : (runFrom k s).stopped ≠ none) (hkj : k ≤ j) :
    ¬ CompletesAt j s t := fun hcomplete =>
  hstop (runFrom_not_stopped_of_le hkj hcomplete.1)

/-- A run is complete no earlier than at any point where it is complete: the condition fails before (R256). -/
theorem CompletesAt.le {k j : Nat} {s t u : State} (hk : CompletesAt k s t) (hj : CompletesAt j s u) : k ≤ j := by
  obtain ⟨hrun, hhalts, -⟩ := hj
  obtain ⟨-, -, hnotYet⟩ := hk
  by_contra hlt
  have hfails := hnotYet j (not_le.mp hlt)
  simp [hrun, hhalts] at hfails

/-- A run is complete at one point at most (R256). -/
theorem CompletesAt.unique {k j : Nat} {s t u : State} (hk : CompletesAt k s t) (hj : CompletesAt j s u) :
    k = j ∧ t = u := by
  obtain rfl := Nat.le_antisymm (hk.le hj) (hj.le hk)
  exact ⟨rfl, congrArg Marked.state (hk.1.symm.trans hj.1)⟩

/-- Settles O52: completion needs a run without a stop and is unique, and the reported end is the one that fits. -/
theorem stoppedRunNeverCompletes : Obligations.StoppedRunNeverCompletes := fun _ _ _ _ _ =>
  ⟨not_completesAt_of_stopped, CompletesAt.unique, runUntilEnd_eq_iff, fun _ => runUntilEnd_eq_iff⟩

end Sys2Proof.Machine
end

section
/-! PROOFS. What a step runs, and where a run stays (00_scope.md R8, 70_reset_and_hazards.md R256, R260): a step that
changes nothing repeats for ever, be it that of a stopped machine or that of the halt idiom. -/

namespace Sys2Proof.Machine

/-! ## The instruction of a step -/

/-- Settles O8, by the rule of a step whose word decodes. -/
theorem stepRunsDecodedInstruction : Obligations.StepRunsDecodedInstruction := fun _ _ _ => step_of_decode

/-! ## Steps that change nothing -/

/-- A run stays where a step changes nothing. -/
theorem Marked.run_of_step_eq {m : Marked} (h : m.step = m) (k : Nat) : Marked.run k m = m := by
  induction k with
  | zero => rfl
  | succ k ih => rw [Marked.run, h, ih]

/-- A stopped machine stays as it is (R8, R260). -/
theorem Marked.step_of_stopped {m : Marked} (h : m.stopped ≠ none) : m.step = m := by
  obtain ⟨s, mark⟩ := m
  cases mark with
  | none => exact absurd rfl h
  | some w => rfl

/-- A raise sets the stopped mark and nothing else (R260). -/
theorem Marked.step_of_fault {m : Marked} {f : Fault} (hm : m.stopped = none) (hf : Machine.step m.state = .fault f) :
    m.step = ⟨m.state, some (.fault f)⟩ := by
  simp only [Marked.step, hm, hf]

/-- Settles O51: the raise marks the state, and from there no step changes anything. -/
theorem stopKeepsState : Obligations.StopKeepsState := by
  refine fun k m => ⟨fun hstopped => Marked.run_of_step_eq (Marked.step_of_stopped hstopped) k, fun f hm hf => ?raise⟩
  case raise =>
    rw [Marked.run, Marked.step_of_fault hm hf]
    exact Marked.run_of_step_eq (Marked.step_of_stopped (Option.some_ne_none _)) k

/-! ## Self-branch -/

/-- The self-branch condition holds exactly where the step answers the very same state (R256, log 22). -/
theorem haltsAt_selfBranch_iff {k : Nat} {s : State} : haltsAt .selfBranch k s = true ↔ step s = .next s := by
  cases h : step s <;> simp [haltsAt, h]

/-- Settles O53: the final state's step leads to itself, so the rest of the run stays there. -/
theorem completedRunStays : Obligations.CompletedRunStays := by
  rintro k j s t hhalt ⟨hrun, hhalts, -⟩ hkj
  rw [hhalt, haltsAt_selfBranch_iff] at hhalts
  calc runFrom j s = Marked.run (j - k) (runFrom k s) := by
        rw [runFrom, runFrom, ← Marked.run_add, Nat.add_sub_of_le hkj]
    _ = Marked.run (j - k) ⟨t, none⟩ := by rw [hrun]
    _ = ⟨t, none⟩ := Marked.run_of_step_eq (Marked.step_eq_running.mpr ⟨rfl, hhalts⟩) _

/-! ## The halt idiom -/

/-- A taken branch to its own address changes nothing (R145). -/
theorem branchTo_self {cond : Bool} {imm32 : Word} {s : State} (hcond : cond = true) (htarget : branchTarget imm32 = s.pc) :
    branchTo cond imm32 s = .next s := by
  rw [branchTo, if_pos hcond, htarget]
  rfl

/-- Settles O54: a register equals itself, so the branch is taken, and to where it stands. -/
theorem selfBranchHalts : Obligations.SelfBranchHalts := by
  intro s w a imm k hw hi htarget
  have hstep : step s = .next s := (step_of_decode hw hi).trans (branchTo_self ((eq32_iff _ _).mpr rfl) htarget)
  exact ⟨hstep, haltsAt_selfBranch_iff.mpr hstep⟩

end Sys2Proof.Machine
end

section
/-! PROOFS. The invariant where a run begins (10_state.md R35, 70_reset_and_hazards.md R250, R251). -/

namespace Sys2Proof.Machine

/-- A launch lists no memory and marks no word, so the invariant asks for an admissible configuration alone (R4, R251). -/
theorem launch_inv {c : Config} (hc : c.Wf) (regs : Vector Word 31) : (State.launch c regs).Inv where
  cfg := hc
  mem := ⟨List.Pairwise.nil, List.forall_mem_nil _⟩
  inside := List.forall_mem_nil _
  rising := List.Pairwise.nil
  words := List.forall_mem_nil _

/-- The spec's defaults are an admissible configuration (R4). -/
theorem config_decided_wf : Config.decided.Wf := ⟨by decide, by decide, by decide, decided_wf, by decide⟩

/-- Settles O46: reset is the launch at the spec's defaults. -/
theorem launchHasInvariant : Obligations.LaunchHasInvariant :=
  ⟨launch_inv config_decided_wf resetRegs, fun _ regs hc => launch_inv hc regs⟩

end Sys2Proof.Machine
end
